-- ==== Sys2Proof/Word.lean ====
section
/-!
DEFINITION. The widths of the Huffman codec engine (00_scope.md R6, 20_memory.md R43, R47): plain synonyms of `BitVec`.
-/

namespace Sys2Proof

/-- A register, a frequency, a command word, the data of a host transaction (R6, R41, R42, R60). -/
abbrev Word := BitVec 32

/-- A cell of `SRC`, `PK`, `OUT`, `CT_LEN` or `CT_BITS` (R6, R47). -/
abbrev Byte := BitVec 8

/-- A node weight, 40 bits: the sum of 256 frequencies of 32 bits fits (R6). -/
abbrev Weight := BitVec 40

/-- A node handle, 0 to 510 (R6). -/
abbrev Handle := BitVec 9

/-- A 26-bit cell address of the flat region (R43). -/
abbrev CellAddr := BitVec 26

/-- A bit-string, first (leftmost, earliest) bit first (00_scope.md section 6). -/
abbrev BitString := List Bool

end Sys2Proof
end

