-- ==== Sys2Proof/Syntax.lean ====
section
/-!
DEFINITION. The syntax of the engine: its eight commands (30_encoding.md R61), the names of the registers and cells the host
port reaches (10_state.md R11, 20_memory.md R40, R43), and the operations of the host agent (R41, R42, R65, R165).
-/

namespace Sys2Proof

/-- The eight commands of R61. No command carries an operand in its word (R62). -/
inductive Instr where
  /-- R131. -/
  | nop
  /-- R132. -/
  | clear
  /-- R76. -/
  | fcount
  /-- R83. -/
  | tbuild
  /-- R97. -/
  | cgen
  /-- R107. -/
  | pack
  /-- R119. -/
  | unpack
  /-- R130. -/
  | encode
  deriving DecidableEq, Repr

/-- All eight commands, in the order of R61. -/
def Instr.all : List Instr :=
  [.nop, .clear, .fcount, .tbuild, .cgen, .pack, .unpack, .encode]

/-- The sixteen registers of R11, in the order of their numbers. -/
inductive Reg where
  | id
  | cmd
  | status
  | errInfo
  | srcLen
  | byteCount
  | bitCount
  | outLen
  | root
  | nodeCount
  | capSrc
  | capPk
  | reserved12
  | reserved13
  | reserved14
  | reserved15
  deriving DecidableEq, Repr

/-- The registers in the order of their numbers 0 to 15 (R11). -/
def Reg.all : List Reg :=
  [.id, .cmd, .status, .errInfo, .srcLen, .byteCount, .bitCount, .outLen, .root, .nodeCount, .capSrc, .capPk,
    .reserved12, .reserved13, .reserved14, .reserved15]

/-- A cell named by (space, index), the spaces of R40. `unmapped` is what every address that no space holds names (R43). -/
inductive Cell where
  | reg (r : Reg)
  | freq (s : Nat)
  | ctLen (s : Nat)
  | ctBits (k : Nat)
  | nodeInfo (h : Nat)
  | nodeWlo (h : Nat)
  | nodeWhi (h : Nat)
  | src (i : Nat)
  | pk (i : Nat)
  | out (i : Nat)
  | unmapped
  deriving DecidableEq, Repr

/-- What the host agent can do next (R177): a transaction at a cell address, the poll `WAIT` of R65, or the platform's reset
(R165). `partialAccess` stands for a bus access that is narrower or wider than one cell, which R46 leaves outside the spec. -/
inductive HostOp where
  /-- `HostRead` of one whole cell (R41). -/
  | read (a : CellAddr)
  /-- `HostWrite` of one whole cell (R42). -/
  | write (a : CellAddr) (v : Word)
  /-- `WAIT`: reads of `STATUS` until the value read has `BUSY = 0` (R65). -/
  | wait
  /-- The platform asserts reset (R165, R166). -/
  | reset
  /-- A bus access that is not exactly one cell wide (R46). -/
  | partialAccess (a : CellAddr)
  deriving DecidableEq, Repr

/-- The source's Container as a host loads it (R66 `decode`, R134): the present codes by symbol, the packed bytes and the two
counts. -/
structure Container where
  codes : List (Nat × BitString)
  payload : List Byte
  byteCount : Word
  bitCount : Word
  deriving DecidableEq, Repr

end Sys2Proof
end

