-- ==== Sys2Proof/Decode.lean ====
section
/-!
DEFINITION. The command word (30_encoding.md R60 to R64): the decoder, total on all 2^32 words, and the encoder. The word is the
data of one host write to `CMD`, moved whole (20_memory.md R45, R53): there is no fetch and no byte order (assumption log 9).
-/

namespace Sys2Proof

/-- Why a word is no command: the two ways of R63. -/
inductive DecodeError where
  /-- `OPC` in `0x08 .. 0xFF` with `RSV = 0`. -/
  | illegalOpcode (opc : Byte)
  /-- `RSV != 0`, whatever `OPC`. -/
  | reservedBits (rsv : BitVec 24)
  deriving DecidableEq, Repr

/-- R60: bits 7:0. -/
def opcField (w : Word) : Byte := w.extractLsb' 0 8

/-- R60: bits 31:8, "reserved, must be 0". -/
def rsvField (w : Word) : BitVec 24 := w.extractLsb' 8 24

/-- The opcode map of R61. -/
def decodeOpc : Nat → Option Instr
  | 0x00 => some .nop
  | 0x01 => some .clear
  | 0x02 => some .fcount
  | 0x03 => some .tbuild
  | 0x04 => some .cgen
  | 0x05 => some .pack
  | 0x06 => some .unpack
  | 0x07 => some .encode
  | _ => none

/-- R61, R63: the command a word names, or why it names none. -/
def decode (w : Word) : Except DecodeError Instr :=
  if rsvField w = 0#24 then
    match decodeOpc (opcField w).toNat with
    | some i => .ok i
    | none => .error (.illegalOpcode (opcField w))
  else .error (.reservedBits (rsvField w))

/-- R61: the operation code of a command. -/
def Instr.opc : Instr → Byte
  | .nop => 0x00#8
  | .clear => 0x01#8
  | .fcount => 0x02#8
  | .tbuild => 0x03#8
  | .cgen => 0x04#8
  | .pack => 0x05#8
  | .unpack => 0x06#8
  | .encode => 0x07#8

/-- R60: the word of a command, `RSV` zero above `OPC`. -/
def encode (i : Instr) : Word := 0#24 ++ i.opc

/-- The decoder on a row of spec/opcode_table.json: a command is one word of 32 bits, whatever number of them the row gives. -/
def decodeTableWord (nbits w : Nat) : Option Instr :=
  if w % 2 ^ nbits < 2 ^ 32 then
    match decode (BitVec.ofNat 32 (w % 2 ^ nbits)) with
    | .ok i => some i
    | .error _ => none
  else none

end Sys2Proof
end

