-- ==== Sys2Proof/Config.lean ====
section
/-!
DEFINITION. What one implementation of the engine fixes (00_scope.md R4, R5), its constants, and the free values that the spec
leaves open (10_state.md R34, 20_memory.md R41): opaque, so that nothing can be proved about which value they are.
-/

namespace Sys2Proof

/-- The capacity parameters of R5. "Capacity parameters, taken by the model as arguments": State carries them, so every
statement about every state speaks of every choice of them (assumption log 1). -/
structure Config where
  /-- `SRC_MAX`: the number of cells of `SRC` and of `OUT`. -/
  srcMax : Nat
  /-- `PK_MAX`: the number of cells of `PK`. -/
  pkMax : Nat
  deriving DecidableEq, Repr

/-- R5: "default 65536" for both. -/
def Config.default : Config := ⟨65536, 65536⟩

/-- `NSYM` of R4. -/
def Config.nSym : Nat := 256

/-- `NNODE` of R4: the number of node slots. -/
def Config.nNode : Nat := 511

/-- `LCODE` of R4: the greatest code length. -/
def Config.lCode : Nat := 255

/-- R14: register `ID` always reads this value. -/
def Config.idValue : Word := 0x48554631#32

/-- The three byte buffers whose content after reset the spec leaves unspecified (R34, R168). -/
inductive Buffer where
  | src
  | pk
  | out
  deriving DecidableEq, Repr

/-- FREE VALUE (assumption log 3): the byte that a cell of a buffer holds after a reset until something writes it (R34:
"unspecified: any value per cell, fixed until written"). Arguments: which reset, which buffer, which cell. -/
opaque Config.powerOnByte : Nat → Buffer → Nat → Byte

/-- FREE VALUE (assumption log 6): the value of the n-th host read of a data cell made while BUSY (R41: "an unspecified 32-bit
value (each such read may return a different value)"). -/
opaque Config.busyRead : Nat → Word

end Sys2Proof
end

