-- ==== Sys2Proof/Machine/State.lean ====
section
/-!
DEFINITION. The state of the engine and of its host (10_state.md), as plain data, and the state after reset (R34).
-/

namespace Sys2Proof.Machine

/-- The error codes of R143, the values `STATUS.ERR` can hold; "`STATUS.ERR` never holds" 8 to 15. -/
inductive ErrCode where
  /-- 0: success. -/
  | none
  /-- 1. -/
  | emptyInput
  /-- 2. -/
  | insufficientAlphabet
  /-- 3. -/
  | internalConsistency
  /-- 4. -/
  | malformedContainer
  /-- 5. -/
  | capacity
  /-- 6. -/
  | illegalCmd
  /-- 7. -/
  | sequence
  deriving DecidableEq, Repr

/-- Which limit a `CAPACITY` error reports (R144). -/
inductive Limit where
  /-- 1: the packed stream needs more than `PK_MAX` bytes. -/
  | packedFull
  /-- 2: the output needs more than `SRC_MAX` bytes. -/
  | outFull
  /-- 3: `SRC_LEN > SRC_MAX`. -/
  | srcLen
  /-- 4: `BYTE_COUNT > PK_MAX`. -/
  | byteCount
  deriving DecidableEq, Repr

/-- An error as a command raises it: a code of R143 with the information of R144. -/
inductive CmdError where
  | emptyInput
  | insufficientAlphabet (n : Nat)
  | internalConsistency (i : Nat)
  /-- `MALFORMED_CONTAINER(0xFFFFFFFF)`: the two counts disagree. -/
  | malformedCounts
  /-- `MALFORMED_CONTAINER(start)`. -/
  | malformedStream (start : Nat)
  | capacity (l : Limit)
  | illegalCmd (w : Word)
  | sequence
  deriving DecidableEq, Repr

/-- R25: `kind`, 0 = Leaf, 1 = Internal. -/
inductive NodeKind where
  | leaf
  | internal
  deriving DecidableEq, Repr

/-- One slot of the node arena (R25). -/
structure Node where
  kind : NodeKind
  sym : Byte
  weight : Weight
  left : Handle
  right : Handle
  deriving DecidableEq, Repr

/-- The slot with every field 0 (R34). -/
def Node.zero : Node := ⟨.leaf, 0#8, 0#40, 0#9, 0#9⟩

/-- A space held sparsely: the cells that differ from what an unlisted cell reads as, by rising index (assumption log 10). -/
abbrev Table (α : Type) := List (Nat × α)

/-- A byte space: a table of `Host.Cell`. -/
abbrev Memory := List Host.Cell

/-- The host agent, and what decides when the engine moves (assumption logs 4, 5, 6). -/
structure HostSide where
  /-- The operations the host has still to issue, in order (R50). -/
  script : List HostOp
  /-- What the host's reads returned, newest first. -/
  reads : List (CellAddr × Word)
  /-- How many host operations still come before the completion owed (R172). -/
  delay : Nat
  /-- The same for the commands still to be accepted. -/
  delays : List Nat
  /-- How many unspecified values reads while BUSY have returned (R41). -/
  freeReads : Nat
  deriving DecidableEq, Repr

/-- The whole architectural state (R10), with the host agent beside it. -/
structure State where
  /-- `SRC_MAX` and `PK_MAX` (R5), read in `CAP_SRC` and `CAP_PK` (R31). -/
  cfg : Config
  /-- `STATUS.BUSY` (R13). -/
  busy : Bool
  /-- `STATUS.DONE` (R13). -/
  done : Bool
  /-- `STATUS.TV` (R13). -/
  tv : Bool
  /-- `STATUS.ERR` (R13, R143). -/
  err : ErrCode
  /-- `CUR` (R12). -/
  cur : Word
  /-- `ERR_INFO` (R16). -/
  errInfo : Word
  /-- `SRC_LEN` (R17). -/
  srcLen : Word
  /-- `BYTE_COUNT` (R18). -/
  byteCount : Word
  /-- `BIT_COUNT` (R19). -/
  bitCount : Word
  /-- `OUT_LEN` (R20). -/
  outLen : Word
  /-- `ROOT` (R21). -/
  root : Handle
  /-- `NODE_COUNT` (R21). -/
  nodeCount : BitVec 10
  /-- `FREQ` (R24). -/
  freq : Table Word
  /-- `CT_LEN` (R22). -/
  ctLen : Memory
  /-- `CT_BITS` (R23). -/
  ctBits : Memory
  /-- `NODE` (R25). -/
  node : Table Node
  /-- `SRC` (R27): the cells written since reset. -/
  src : Memory
  /-- `PK` (R28): the cells written since reset. -/
  pk : Memory
  /-- `OUT` (R29): the cells written since reset. -/
  out : Memory
  /-- The model's own: which reset the unwritten buffer cells date from (assumption log 3). -/
  powerOns : Nat
  /-- The model's own: the host agent. -/
  host : HostSide
  deriving DecidableEq, Repr

/-- Why the model stops where the hardware has no behaviour to follow. -/
inductive Fault where
  /-- Raised by CGEN (alone or as a stage of ENCODE) when its walk passes level 255, which R98 excludes for a valid tree: only an
  arena that breaks R33 while `TV = 1` gets here, and no run does. Safe: the model stops (assumption log 7). -/
  | walkTooDeep
  deriving DecidableEq, Repr

/-- What the model declines to give a meaning. -/
inductive Refusal where
  /-- Raised by an arm of `exec` for an instruction that has no meaning yet. Safe: the model stops. -/
  | notModelled (mnemonic : String)
  /-- Raised by the host port for a bus access that is not exactly one cell (R46: "outside this spec (a model refuses it)").
  Safe: the model stops (assumption log 8). -/
  | notWholeCell
  deriving DecidableEq, Repr

/-- A host with nothing to issue. -/
def HostSide.idle : HostSide := ⟨[], [], 0, [], 0⟩

/-- The state right after reset of an engine of configuration `c` (R34): registers and tables zero, nothing written in the
buffers. `p` says which reset this is. -/
def State.resetOf (c : Config) (p : Nat) (h : HostSide) : State where
  cfg := c
  busy := false
  done := false
  tv := false
  err := .none
  cur := 0#32
  errInfo := 0#32
  srcLen := 0#32
  byteCount := 0#32
  bitCount := 0#32
  outLen := 0#32
  root := 0#9
  nodeCount := 0#10
  freq := []
  ctLen := []
  ctBits := []
  node := []
  src := []
  pk := []
  out := []
  powerOns := p
  host := h

/-- R34: the machine right after reset, with the default parameters of R5. -/
def State.reset : State := State.resetOf Config.default 0 HostSide.idle

end Sys2Proof.Machine
end

