-- ==== Sys2Proof/Machine/Flags.lean ====
section
/-!
DEFINITION. The status register and the error report (10_state.md R13, 60_exceptions.md R143, R144).
-/

namespace Sys2Proof.Machine

/-- R143: the code of an error, the value of `STATUS.ERR`. -/
def ErrCode.num : ErrCode → BitVec 4
  | .none => 0#4
  | .emptyInput => 1#4
  | .insufficientAlphabet => 2#4
  | .internalConsistency => 3#4
  | .malformedContainer => 4#4
  | .capacity => 5#4
  | .illegalCmd => 6#4
  | .sequence => 7#4

/-- R144: "which limit". -/
def Limit.num : Limit → Word
  | .packedFull => 1#32
  | .outFull => 2#32
  | .srcLen => 3#32
  | .byteCount => 4#32

/-- R143: the code an error is reported under. -/
def CmdError.code : CmdError → ErrCode
  | .emptyInput => .emptyInput
  | .insufficientAlphabet _ => .insufficientAlphabet
  | .internalConsistency _ => .internalConsistency
  | .malformedCounts => .malformedContainer
  | .malformedStream _ => .malformedContainer
  | .capacity _ => .capacity
  | .illegalCmd _ => .illegalCmd
  | .sequence => .sequence

/-- R144: what `ERR_INFO` records for an error. -/
def CmdError.info : CmdError → Word
  | .emptyInput => 0#32
  | .insufficientAlphabet n => BitVec.ofNat 32 n
  | .internalConsistency i => BitVec.ofNat 32 i
  | .malformedCounts => 0xFFFFFFFF#32
  | .malformedStream start => BitVec.ofNat 32 start
  | .capacity l => l.num
  | .illegalCmd w => w
  | .sequence => 0#32

/-- The result of a body as `STATUS.ERR` reports it (R141). -/
def resultCode : Option CmdError → ErrCode
  | none => .none
  | some e => e.code

/-- The result of a body as `ERR_INFO` reports it (R141). -/
def resultInfo : Option CmdError → Word
  | none => 0#32
  | some e => e.info

/-- R13: `REG.STATUS` as the host reads it: `BUSY` in bit 0, `DONE` in bit 1, `TV` in bit 2, `ERR` in bits 7:4, the rest 0. -/
def State.status (s : State) : Word :=
  0#24 ++ s.err.num ++ 0#1 ++ BitVec.ofBool s.tv ++ BitVec.ofBool s.done ++ BitVec.ofBool s.busy

end Sys2Proof.Machine
end

