-- ==== Sys2Proof/Machine/Ops.lean ====
section
/-!
DEFINITION. The named operations over tables, memory and registers, and the completion of a command, with an error or without
(60_exceptions.md R141, R142, R145, R156).
-/

namespace Sys2Proof.Machine

/-! ## Tables -/

/-- The listed value of a cell. -/
def Table.find {α : Type} : Table α → Nat → Option α
  | [], _ => none
  | (b, w) :: t, a => if a = b then some w else Table.find t a

/-- Lists a value at its place by index. -/
def Table.insert {α : Type} : Table α → Nat → α → Table α
  | [], a, v => [(a, v)]
  | (b, w) :: t, a, v =>
    if a < b then (a, v) :: (b, w) :: t
    else if a = b then (a, v) :: t
    else (b, w) :: Table.insert t a v

/-- Lists no value for a cell. -/
def Table.erase {α : Type} (t : Table α) (a : Nat) : Table α := t.filter (fun c => !(c.1 == a))

/-- A write of one cell. `d` is what an unlisted cell reads as: writing it removes the entry. -/
def Table.write {α : Type} [DecidableEq α] (d : Option α) (t : Table α) (a : Nat) (v : α) : Table α :=
  if some v = d then Table.erase t a else Table.insert t a v

/-- The canonical form: indexes strictly rising, and no entry equal to what an unlisted cell reads as. -/
abbrev Table.wf {α : Type} [DecidableEq α] (d : Option α) (t : Table α) : Prop :=
  t.Pairwise (fun x y => x.1 < y.1) ∧ ∀ c ∈ t, some c.2 ≠ d

/-- Every listed index is one the space has. -/
abbrev Table.below {α : Type} (n : Nat) (t : Table α) : Prop := ∀ c ∈ t, c.1 < n

/-- What an unlisted cell of the byte spaces `CT_LEN` and `CT_BITS` reads as (R34: 0). -/
def Memory.zero : Option Byte := some 0#8

/-- What an unlisted cell of `SRC`, `PK`, `OUT` reads as: no stored value, so that the read takes the free value of R168. -/
def Memory.unwritten : Option Byte := none

/-- The canonical form of a byte space whose unlisted cells read as `d`. -/
abbrev Memory.wf (d : Option Byte) (m : Memory) : Prop := Table.wf d m

/-! ## Cells -/

/-- `FREQ[s]` (R24). -/
def State.freqAt (s : State) (i : Nat) : Word := (Table.find s.freq i).getD 0#32

/-- `CT_LEN[s]` (R22). -/
def State.ctLenAt (s : State) (i : Nat) : Byte := (Table.find s.ctLen i).getD 0#8

/-- `CT_BITS[k]` (R23). -/
def State.ctBitsAt (s : State) (k : Nat) : Byte := (Table.find s.ctBits k).getD 0#8

/-- `NODE[h]` (R25). -/
def State.nodeAt (s : State) (h : Nat) : Node := (Table.find s.node h).getD Node.zero

/-- `SRC[i]` (R27, R168). -/
def State.srcAt (s : State) (i : Nat) : Byte := (Table.find s.src i).getD (Config.powerOnByte s.powerOns .src i)

/-- `PK[i]` (R28, R168). -/
def State.pkAt (s : State) (i : Nat) : Byte := (Table.find s.pk i).getD (Config.powerOnByte s.powerOns .pk i)

/-- `OUT[i]` (R29, R168). -/
def State.outAt (s : State) (i : Nat) : Byte := (Table.find s.out i).getD (Config.powerOnByte s.powerOns .out i)

/-- `FREQ[s] <- v`. -/
def State.setFreq (s : State) (i : Nat) (v : Word) : State := { s with freq := Table.write (some 0#32) s.freq i v }

/-- `CT_LEN[s] <- v`. -/
def State.setCtLen (s : State) (i : Nat) (v : Byte) : State := { s with ctLen := Table.write Memory.zero s.ctLen i v }

/-- `CT_BITS[k] <- v`. -/
def State.setCtBits (s : State) (k : Nat) (v : Byte) : State := { s with ctBits := Table.write Memory.zero s.ctBits k v }

/-- `NODE[h] <- v`. -/
def State.setNode (s : State) (h : Nat) (v : Node) : State := { s with node := Table.write (some Node.zero) s.node h v }

/-- `SRC[i] <- v`. -/
def State.setSrc (s : State) (i : Nat) (v : Byte) : State := { s with src := Table.write Memory.unwritten s.src i v }

/-- `PK[i] <- v`. -/
def State.setPk (s : State) (i : Nat) (v : Byte) : State := { s with pk := Table.write Memory.unwritten s.pk i v }

/-- `OUT[i] <- v`. -/
def State.setOut (s : State) (i : Nat) (v : Byte) : State := { s with out := Table.write Memory.unwritten s.out i v }

/-- `for s in 0 .. 255: FREQ[s] <- 0`. -/
def State.zeroFreq (s : State) : State := { s with freq := [] }

/-- `for s in 0 .. 255: CT_LEN[s] <- 0` and `for k in 0 .. 8191: CT_BITS[k] <- 0`. -/
def State.zeroCodes (s : State) : State := { s with ctLen := [], ctBits := [] }

/-- `for h in 0 .. 510: NODE[h] <- (kind 0, sym 0, weight 0, left 0, right 0)`. -/
def State.zeroNodes (s : State) : State := { s with node := [] }

/-- `STATUS.TV <- 0 ; REG.ROOT <- 0 ; REG.NODE_COUNT <- 0` (R90, R130). -/
def State.dropTree (s : State) : State := { s with tv := false, root := 0#9, nodeCount := 0#10 }

/-- `REG.ROOT <- r ; REG.NODE_COUNT <- h ; STATUS.TV <- 1` (R83). -/
def State.setTree (s : State) (r : Handle) (h : Nat) : State :=
  { s with tv := true, root := r, nodeCount := BitVec.ofNat 10 h }

/-- `REG.BIT_COUNT <- nbits ; REG.BYTE_COUNT <- nbytes` (R107). -/
def State.setCounts (s : State) (nbits nbytes : Nat) : State :=
  { s with bitCount := BitVec.ofNat 32 nbits, byteCount := BitVec.ofNat 32 nbytes }

/-- `REG.OUT_LEN <- nout` (R119). -/
def State.setOutLen (s : State) (nout : Nat) : State := { s with outLen := BitVec.ofNat 32 nout }

/-! ## Bodies and their completion -/

/-- How the pseudocode of a command ends (R141, R142): by `return`, by `raise`, or (only outside the tree invariant) stuck. -/
inductive Body where
  | returned (s : State)
  | raised (e : CmdError) (s : State)
  | stuck (f : Fault)
  deriving DecidableEq, Repr

/-- The next stage runs only after a `return` (R130: "a `raise` inside it ending ENCODE with that error"). -/
def Body.andThen : Body → (State → Body) → Body
  | .returned s, k => k s
  | .raised e s, _ => .raised e s
  | .stuck f, _ => .stuck f

/-- R145: what a failed command leaves in its result cells, applied at the `raise`. ENCODE adds nothing to the effects of the
failing stage. -/
def errorEffects : Instr → State → State
  | .nop, s => s
  | .clear, s => s
  | .fcount, s => s
  | .tbuild, s => s.dropTree
  | .cgen, s => s
  | .pack, s => s.setCounts 0 0
  | .unpack, s => s.setOutLen 0
  | .encode, s => s

/-- R142: the error effects of the running command, applied where the body raised. -/
def Body.withEffects (i : Instr) : Body → Body
  | .returned s => .returned s
  | .raised e s => .raised e (errorEffects i s)
  | .stuck f => .stuck f

/-- The last lines of the completion step (R141), and the whole of taking an error (R156): the report, `BUSY <- 0`, `DONE <- 1`.
There is no return from an error: the engine is idle as after a success (R156, R157). -/
def State.finish (s : State) (e : Option CmdError) : State :=
  { s with err := resultCode e, errInfo := resultInfo e, busy := false, done := true }

/-- R141: completion of a command whose body ended so. -/
def Body.complete : Body → Host.Outcome State Fault Refusal
  | .returned s => .next (s.finish none)
  | .raised e s => .next (s.finish (some e))
  | .stuck f => .fault f

/-- R15: a command is accepted. The model also takes from its schedule how many host operations come before the completion. -/
def State.accept (s : State) (w : Word) : State :=
  { s with
    cur := w, busy := true, done := false, err := .none,
    host := { s.host with delay := s.host.delays.headD 0, delays := s.host.delays.tail } }

/-- R165, R166: reset, whatever the engine was doing. The parameters stay; the buffers' contents are unspecified anew. -/
def State.powerOn (s : State) : State :=
  State.resetOf s.cfg (s.powerOns + 1) { s.host with delay := 0 }

end Sys2Proof.Machine
end

