-- ==== Sys2Proof/Machine/Operands.lean ====
section
/-!
DEFINITION. What the commands read: the input bytes, the codes (10_state.md R23), the packed stream (20_memory.md R44,
45_unpack.md R117), the match of a candidate (R118). There are no other operand forms (30_encoding.md R62, 20_memory.md R48).
-/

namespace Sys2Proof.Machine

/-- `ceil8(n) = (n + 7) div 8` (00_scope.md section 6). -/
def ceil8 (n : Nat) : Nat := (n + 7) / 8

/-- The input `SRC[0 .. SRC_LEN-1]` in its order (R27). -/
def State.input (s : State) : List Byte := (List.range s.srcLen.toNat).map s.srcAt

/-- Bit `k` of a code, or of a group left-aligned in its byte: bit `7 - (k mod 8)` (R23). -/
def msbFirst (b : Byte) (k : Nat) : Bool := b.getLsbD (7 - k % 8)

/-- `code(s)` of R23: the first `CT_LEN[s]` bits of the slot of `s`; empty exactly when the entry is absent. -/
def State.code (s : State) (sym : Nat) : BitString :=
  (List.range (s.ctLenAt sym).toNat).map (fun k => msbFirst (s.ctBitsAt (32 * sym + k / 8)) k)

/-- R118's table scan order: the symbols 0 to 255. -/
def symbols : List Nat := List.range Config.nSym

/-- `streambit(j)` of R117: a full group is read from bit 7 down, the final group of `r` bits from bit `r - 1` down. -/
def State.streambit (s : State) (j : Nat) : Bool :=
  if j / 8 < s.bitCount.toNat / 8 then msbFirst (s.pkAt (j / 8)) j
  else (s.pkAt (s.bitCount.toNat / 8)).getLsbD (s.bitCount.toNat % 8 - 1 - j % 8)

/-- The recovered bitstream of R115: `streambit(0 .. BIT_COUNT-1)`. -/
def State.stream (s : State) : BitString := (List.range s.bitCount.toNat).map s.streambit

/-- `lmax` of R119: the greatest of `CT_LEN[0 .. 255]`. -/
def State.lmax (s : State) : Nat := symbols.foldl (fun m sym => max m (s.ctLenAt sym).toNat) 0

/-- `match(cand)` of R118: the least symbol whose length and code equal the candidate's. -/
def State.matchCode (s : State) (cand : BitString) : Option Nat :=
  symbols.find? (fun sym => decide ((s.ctLenAt sym).toNat = cand.length) && decide (s.code sym = cand))

/-- The symbols with a non-zero frequency, ascending (R83, R86). -/
def State.present (s : State) : List Nat := symbols.filter (fun sym => decide (s.freqAt sym ≠ 0#32))

end Sys2Proof.Machine
end

