-- ==== Sys2Proof/Machine/Cgen.lean ====
section
/-!
DEFINITION. CGEN, the code table generator (43_cgen.md R95 to R100): the tree walk.
-/

namespace Sys2Proof.Machine

/-- `CT_BITS[32*s + (k div 8)] <- CT_BITS[32*s + (k div 8)] | (1 << (7 - (k mod 8)))` (R97). -/
def setCodeBit (s : State) (sym k : Nat) : State :=
  s.setCtBits (32 * sym + k / 8) (s.ctBitsAt (32 * sym + k / 8) ||| (1#8 <<< (7 - k % 8)))

/-- The inner loop of R97 at a leaf, from bit `k` of the path on. -/
def writeBits (sym : Nat) : BitString → Nat → State → State
  | [], _, s => s
  | b :: rest, k, s => writeBits sym rest (k + 1) (if b then setCodeBit s sym k else s)

/-- R97 at a leaf: the path becomes the code of its symbol. -/
def writeCode (s : State) (sym : Nat) (path : BitString) : State :=
  writeBits sym path 0 (s.setCtLen sym (BitVec.ofNat 8 path.length))

/-- `walk(h, path)` of R97, to at most `fuel` levels. R98: in a valid tree `len(path) <= 255` at every leaf. -/
def walk : Nat → Nat → BitString → State → Body
  | 0, _, _, _ => .stuck .walkTooDeep
  | fuel + 1, h, path, s =>
    match (s.nodeAt h).kind with
    | .leaf => .returned (writeCode s (s.nodeAt h).sym.toNat path)
    | .internal =>
      (walk fuel (s.nodeAt h).left.toNat (path ++ [false]) s).andThen
        (walk fuel (s.nodeAt h).right.toNat (path ++ [true]))

/-- The pseudocode of R97. -/
def bodyCgen (s : State) : Body :=
  Body.withEffects .cgen <|
    if s.tv = false then .raised .sequence s
    else walk (Config.lCode + 1) s.root.toNat [] s.zeroCodes

/-- R97 with the completion of R141. -/
def execCgen (s : State) : Host.Outcome State Fault Refusal := (bodyCgen s).complete

end Sys2Proof.Machine
end

