-- ==== Sys2Proof/Machine/Fcount.lean ====
section
/-!
DEFINITION. FCOUNT, the frequency counter (41_fcount.md R75 to R77).
-/

namespace Sys2Proof.Machine

/-- `FREQ[s] <- FREQ[s] + 1` for the byte `s` (R76). -/
def countByte (s : State) (b : Byte) : State := s.setFreq b.toNat (s.freqAt b.toNat + 1#32)

/-- The pseudocode of R76. -/
def bodyFcount (s : State) : Body :=
  Body.withEffects .fcount <|
    if s.cfg.srcMax < s.srcLen.toNat then .raised (.capacity .srcLen) s
    else if s.srcLen = 0#32 then .raised .emptyInput s.zeroFreq
    else .returned (s.input.foldl countByte s.zeroFreq)

/-- R76 with the completion of R141. -/
def execFcount (s : State) : Host.Outcome State Fault Refusal := (bodyFcount s).complete

end Sys2Proof.Machine
end

