-- ==== Sys2Proof/Machine/Pack.lean ====
section
/-!
DEFINITION. PACK, the bit packer (44_pack.md R105 to R110).
-/

namespace Sys2Proof.Machine

/-- The packer's working state (R107): `acc`, `cnt`, `nbytes`, `nbits`. -/
structure Packer where
  acc : Byte
  cnt : Nat
  nbytes : Nat
  nbits : Nat
  deriving DecidableEq, Repr

/-- R107: all four 0. -/
def Packer.start : Packer := ⟨0#8, 0, 0, 0⟩

/-- `acc <- trunc_8((acc << 1) | b)` (R107): "shift in at the low end". -/
def shiftIn (acc : Byte) (b : Bool) : Byte := (acc <<< 1) ||| (BitVec.ofBool b).setWidth 8

/-- The inner loop of R107 over the bits of one code. An error keeps the state it was raised in. -/
def packBits : BitString → State → Packer → Except (CmdError × State) (State × Packer)
  | [], s, p => .ok (s, p)
  | b :: bs, s, p =>
    if p.cnt = 0 ∧ p.nbytes = s.cfg.pkMax then .error (.capacity .packedFull, s)
    else if p.cnt + 1 = 8 then
      packBits bs (s.setPk p.nbytes (shiftIn p.acc b)) ⟨0#8, 0, p.nbytes + 1, p.nbits + 1⟩
    else packBits bs s ⟨shiftIn p.acc b, p.cnt + 1, p.nbytes, p.nbits + 1⟩

/-- The outer loop of R107 over the input bytes, of which the first has index `i`. -/
def packBytes : List Byte → Nat → State → Packer → Except (CmdError × State) (State × Packer)
  | [], _, s, p => .ok (s, p)
  | b :: bs, i, s, p =>
    if s.ctLenAt b.toNat = 0#8 then .error (.internalConsistency i, s)
    else
      match packBits (s.code b.toNat) s p with
      | .error e => .error e
      | .ok (s', p') => packBytes bs (i + 1) s' p'

/-- The end of R107: the final partial group (R108) and the counts. -/
def packEnd (s : State) (p : Packer) : State :=
  if 0 < p.cnt then (s.setPk p.nbytes p.acc).setCounts p.nbits (p.nbytes + 1)
  else s.setCounts p.nbits p.nbytes

/-- The pseudocode of R107. -/
def bodyPack (s : State) : Body :=
  Body.withEffects .pack <|
    if s.cfg.srcMax < s.srcLen.toNat then .raised (.capacity .srcLen) (s.setCounts 0 0)
    else
      match packBytes s.input 0 (s.setCounts 0 0) Packer.start with
      | .error e => .raised e.1 e.2
      | .ok r => .returned (packEnd r.1 r.2)

/-- R107 with the completion of R141. -/
def execPack (s : State) : Host.Outcome State Fault Refusal := (bodyPack s).complete

end Sys2Proof.Machine
end

