-- ==== Sys2Proof/Machine/Tbuild.lean ====
section
/-!
DEFINITION. TBUILD, the tree builder (42_tbuild.md R79 to R91): the priority queue and the merge.
-/

namespace Sys2Proof.Machine

/-- An entry `(w, h)` of the queue (R80). -/
structure Entry where
  weight : Weight
  handle : Handle
  deriving DecidableEq, Repr

/-- The order of keys (R80): by weight, and among equal weights by handle. -/
def Entry.before (a b : Entry) : Bool :=
  decide (a.weight < b.weight) || (decide (a.weight = b.weight) && decide (a.handle < b.handle))

/-- `PQ` of R80, a finite set of entries held by ascending key, an organisation R91 allows (assumption log 11). -/
abbrev Queue := List Entry

/-- `pq_insert` of R81. -/
def Queue.insert : Queue → Entry → Queue
  | [], e => [e]
  | x :: q, e => if e.before x then e :: x :: q else x :: Queue.insert q e

/-- `pq_extract_min` of R82: the entry of least key, and the queue without it. -/
def Queue.extractMin : Queue → Option (Entry × Queue)
  | [] => none
  | e :: q => some (e, q)

/-- `Leaf(kind = 0, sym, weight, left = 0, right = 0)` (R83). -/
def leafNode (sym : Nat) (f : Word) : Node := ⟨.leaf, BitVec.ofNat 8 sym, f.setWidth 40, 0#9, 0#9⟩

/-- `Internal(kind = 1, sym = 0, weight = wa + wb, left = a, right = b)` (R83, R85: the entry removed first is the left child). -/
def mergedNode (a b : Entry) : Node := ⟨.internal, 0#8, a.weight + b.weight, a.handle, b.handle⟩

/-- The seeding loop of R83 over the symbols of non-zero frequency, which come in ascending order (R86). -/
def seedLeaves : List Nat → Nat → State → Queue → State × Queue
  | [], _, s, q => (s, q)
  | sym :: rest, h, s, q =>
    seedLeaves rest (h + 1) (s.setNode h (leafNode sym (s.freqAt sym)))
      (Queue.insert q ⟨(s.freqAt sym).setWidth 40, BitVec.ofNat 9 h⟩)

/-- The loop `while |PQ| > 1` of R83, at most `fuel` merges; R84(a): it makes one merge fewer than there are leaves. -/
def mergeAll : Nat → Nat → State → Queue → State × Nat × Queue
  | 0, h, s, q => (s, h, q)
  | fuel + 1, h, s, q =>
    match Queue.extractMin q with
    | none => (s, h, q)
    | some (a, q1) =>
      match Queue.extractMin q1 with
      | none => (s, h, q)
      | some (b, q2) =>
        mergeAll fuel (h + 1) (s.setNode h (mergedNode a b))
          (Queue.insert q2 ⟨a.weight + b.weight, BitVec.ofNat 9 h⟩)

/-- The last two lines of R83: the single remaining entry is the root. The queue is not empty there (R82). -/
def takeRoot (s : State) (h : Nat) (q : Queue) : State :=
  match Queue.extractMin q with
  | none => s
  | some (e, _) => s.setTree e.handle h

/-- R83 from the seeding on, for at least two symbols of non-zero frequency. -/
def buildTree (s : State) : State :=
  let seeded := seedLeaves s.present 0 s []
  let merged := mergeAll s.present.length s.present.length seeded.1 seeded.2
  takeRoot merged.1 merged.2.1 merged.2.2

/-- The pseudocode of R83, with the failure of R90. -/
def bodyTbuild (s : State) : Body :=
  Body.withEffects .tbuild <|
    if s.present.length < 2 then .raised (.insufficientAlphabet s.present.length) s
    else .returned (buildTree s)

/-- R83 with the completion of R141. -/
def execTbuild (s : State) : Host.Outcome State Fault Refusal := (bodyTbuild s).complete

end Sys2Proof.Machine
end

