-- ==== Sys2Proof/Machine/System.lean ====
section
/-!
DEFINITION. NOP, CLEAR and ENCODE (46_encode_system.md R130 to R135), and the completion of a word that is no command (R150).
-/

namespace Sys2Proof.Machine

/-- R131: "Pseudocode: `return`." -/
def bodyNop (s : State) : Body := .returned s

/-- R131 with the completion of R141. -/
def execNop (s : State) : Host.Outcome State Fault Refusal := (bodyNop s).complete

/-- The pseudocode of R132. -/
def bodyClear (s : State) : Body :=
  .returned { ((s.dropTree.setCounts 0 0).setOutLen 0).zeroFreq.zeroCodes.zeroNodes with srcLen := 0#32 }

/-- R132 with the completion of R141. -/
def execClear (s : State) : Host.Outcome State Fault Refusal := (bodyClear s).complete

/-- The pseudocode of R130: earlier results are invalidated, then the four stages run until one raises. -/
def bodyEncode (s : State) : Body :=
  Body.withEffects .encode <|
    (((bodyFcount (s.dropTree.setCounts 0 0)).andThen bodyTbuild).andThen bodyCgen).andThen bodyPack

/-- R130 with the completion of R141. -/
def execEncode (s : State) : Host.Outcome State Fault Refusal := (bodyEncode s).complete

/-- R150: completion of a word that is not one of the eight. -/
def completeIllegal (s : State) : Host.Outcome State Fault Refusal :=
  (Body.raised (.illegalCmd s.cur) s).complete

end Sys2Proof.Machine
end

