-- ==== Sys2Proof/Machine/Unpack.lean ====
section
/-!
DEFINITION. UNPACK, the bit unpacker and decoder (45_unpack.md R115 to R125).
-/

namespace Sys2Proof.Machine

/-- The unpacker's working state (R119): `cand`, `start`, `nout`. -/
structure Unpacker where
  cand : BitString
  start : Nat
  nout : Nat
  deriving DecidableEq, Repr

/-- The loop of R119 over the rest of the stream, whose first bit has index `j`, and the leftover check after it (R120(b)). An
error keeps the state it was raised in. -/
def unpackBits (lmax : Nat) : BitString → Nat → State → Unpacker → Except (CmdError × State) (State × Nat)
  | [], _, s, u => if u.cand ≠ [] then .error (.malformedStream u.start, s) else .ok (s, u.nout)
  | b :: bs, j, s, u =>
    match s.matchCode (u.cand ++ [b]) with
    | some m =>
      if u.nout = s.cfg.srcMax then .error (.capacity .outFull, s)
      else unpackBits lmax bs (j + 1) (s.setOut u.nout (BitVec.ofNat 8 m)) ⟨[], j + 1, u.nout + 1⟩
    | none =>
      if lmax ≤ (u.cand ++ [b]).length then .error (.malformedStream u.start, s)
      else unpackBits lmax bs (j + 1) s ⟨u.cand ++ [b], u.start, u.nout⟩

/-- The pseudocode of R119, with the header checks of R116. -/
def bodyUnpack (s : State) : Body :=
  Body.withEffects .unpack <|
    if s.cfg.pkMax < s.byteCount.toNat then .raised (.capacity .byteCount) (s.setOutLen 0)
    else if s.byteCount.toNat ≠ ceil8 s.bitCount.toNat then .raised .malformedCounts (s.setOutLen 0)
    else
      match unpackBits s.lmax s.stream 0 (s.setOutLen 0) ⟨[], 0, 0⟩ with
      | .error e => .raised e.1 e.2
      | .ok r => .returned (r.1.setOutLen r.2)

/-- R119 with the completion of R141. -/
def execUnpack (s : State) : Host.Outcome State Fault Refusal := (bodyUnpack s).complete

end Sys2Proof.Machine
end

