-- ==== Sys2Proof/Machine/Port.lean ====
section
/-!
DEFINITION. The host port (20_memory.md R40 to R47): the address map, `HostRead` and `HostWrite`.
-/

namespace Sys2Proof.Machine

/-- The cell an address selects (the table of R43): "every other address" is unmapped. -/
def cellOf (c : Config) (a : CellAddr) : Cell :=
  let n := a.toNat
  if n < 0x10 then .reg (Reg.all.getD n .id)
  else if 0x100 ≤ n ∧ n < 0x200 then .freq (n - 0x100)
  else if 0x200 ≤ n ∧ n < 0x300 then .ctLen (n - 0x200)
  else if 0x400 ≤ n ∧ n < 0x600 then .nodeInfo (n - 0x400)
  else if 0x600 ≤ n ∧ n < 0x800 then .nodeWlo (n - 0x600)
  else if 0x800 ≤ n ∧ n < 0xA00 then .nodeWhi (n - 0x800)
  else if 0x2000 ≤ n ∧ n < 0x4000 then .ctBits (n - 0x2000)
  else if 0x1000000 ≤ n ∧ n < 0x1000000 + c.srcMax ∧ n < 0x2000000 then .src (n - 0x1000000)
  else if 0x2000000 ≤ n ∧ n < 0x2000000 + c.pkMax ∧ n < 0x3000000 then .pk (n - 0x2000000)
  else if 0x3000000 ≤ n ∧ n < 0x3000000 + c.srcMax then .out (n - 0x3000000)
  else .unmapped

/-- The number of a register (R11). -/
def regNumber (r : Reg) : Nat := Reg.all.idxOf r

/-- The address of a cell (R43). `unmapped` has no address of its own; the map gives it one of those no space holds. -/
def addrOf : Cell → CellAddr
  | .reg r => BitVec.ofNat 26 (regNumber r)
  | .freq s => BitVec.ofNat 26 (0x100 + s)
  | .ctLen s => BitVec.ofNat 26 (0x200 + s)
  | .nodeInfo h => BitVec.ofNat 26 (0x400 + h)
  | .nodeWlo h => BitVec.ofNat 26 (0x600 + h)
  | .nodeWhi h => BitVec.ofNat 26 (0x800 + h)
  | .ctBits k => BitVec.ofNat 26 (0x2000 + k)
  | .src i => BitVec.ofNat 26 (0x1000000 + i)
  | .pk i => BitVec.ofNat 26 (0x2000000 + i)
  | .out i => BitVec.ofNat 26 (0x3000000 + i)
  | .unmapped => 0x300#26

/-- A register as the host reads it while idle (R13 to R21, R31, R32, R41). -/
def State.readReg (s : State) : Reg → Word
  | .id => Config.idValue
  | .cmd => 0#32
  | .status => s.status
  | .errInfo => s.errInfo
  | .srcLen => s.srcLen
  | .byteCount => s.byteCount
  | .bitCount => s.bitCount
  | .outLen => s.outLen
  | .root => s.root.setWidth 32
  | .nodeCount => s.nodeCount.setWidth 32
  | .capSrc => BitVec.ofNat 32 s.cfg.srcMax
  | .capPk => BitVec.ofNat 32 s.cfg.pkMax
  | .reserved12 => 0#32
  | .reserved13 => 0#32
  | .reserved14 => 0#32
  | .reserved15 => 0#32

/-- R25: `kind`, 1 bit. -/
def NodeKind.bit : NodeKind → BitVec 1
  | .leaf => 0#1
  | .internal => 1#1

/-- R26: `NODE_INFO[h] = kind << 31 | right << 17 | left << 8 | sym`, bits 30:26 zero. -/
def Node.infoWord (n : Node) : Word := n.kind.bit ++ 0#5 ++ n.right ++ n.left ++ n.sym

/-- R26: the slot that a view shows; cell 511 of each view reads 0. -/
def State.viewedNode (s : State) (h : Nat) : Node := if h < Config.nNode then s.nodeAt h else Node.zero

/-- The content of a cell zero-extended to 32 bits, as `HostRead` gives it while idle (R41). -/
def State.content (s : State) : Cell → Word
  | .reg r => s.readReg r
  | .freq i => s.freqAt i
  | .ctLen i => (s.ctLenAt i).setWidth 32
  | .ctBits k => (s.ctBitsAt k).setWidth 32
  | .nodeInfo h => (s.viewedNode h).infoWord
  | .nodeWlo h => (s.viewedNode h).weight.setWidth 32
  | .nodeWhi h => ((s.viewedNode h).weight.extractLsb' 32 8).setWidth 32
  | .src i => (s.srcAt i).setWidth 32
  | .pk i => (s.pkAt i).setWidth 32
  | .out i => (s.outAt i).setWidth 32
  | .unmapped => 0#32

/-- The four registers that are readable while BUSY (R41, R173). -/
def readableWhileBusy : Cell → Bool
  | .reg .id => true
  | .reg .status => true
  | .reg .capSrc => true
  | .reg .capPk => true
  | _ => false

/-- R41: the value `HostRead` returns. -/
def hostReadValue (s : State) (a : CellAddr) : Word :=
  if s.busy = true ∧ readableWhileBusy (cellOf s.cfg a) = false then Config.busyRead s.host.freeReads
  else s.content (cellOf s.cfg a)

/-- R41: `HostRead`. Only the host's record changes, and the count of unspecified values when one was returned. -/
def hostRead (s : State) (a : CellAddr) : State :=
  { s with
    host := { s.host with
      reads := (a, hostReadValue s a) :: s.host.reads
      freeReads :=
        if s.busy = true ∧ readableWhileBusy (cellOf s.cfg a) = false then s.host.freeReads + 1
        else s.host.freeReads } }

/-- R42: the effect of a host write to a register while idle; only `SRC_LEN`, `BYTE_COUNT`, `BIT_COUNT` are writable, and a
write to `CMD` accepts a command (R15). -/
def State.writeReg (s : State) (v : Word) : Reg → State
  | .cmd => s.accept v
  | .srcLen => { s with srcLen := v }
  | .byteCount => { s with byteCount := v }
  | .bitCount => { s with bitCount := v }
  | .id => s
  | .status => s
  | .errInfo => s
  | .outLen => s
  | .root => s
  | .nodeCount => s
  | .capSrc => s
  | .capPk => s
  | .reserved12 => s
  | .reserved13 => s
  | .reserved14 => s
  | .reserved15 => s

/-- R42: the effect of a host write to a cell while idle; an 8-bit cell takes `v[7:0]` (00_scope.md R9). -/
def State.writeCell (s : State) (v : Word) : Cell → State
  | .reg r => s.writeReg v r
  | .freq i => s.setFreq i v
  | .ctLen i => s.setCtLen i (v.setWidth 8)
  | .ctBits k => s.setCtBits k (v.setWidth 8)
  | .src i => s.setSrc i (v.setWidth 8)
  | .pk i => s.setPk i (v.setWidth 8)
  | .nodeInfo _ => s
  | .nodeWlo _ => s
  | .nodeWhi _ => s
  | .out _ => s
  | .unmapped => s

/-- R42: `HostWrite`. While BUSY it is ignored, whatever the cell. -/
def hostWrite (s : State) (a : CellAddr) (v : Word) : State :=
  if s.busy then s else s.writeCell v (cellOf s.cfg a)

/-- One read of the poll `WAIT` (R65): the operation stays at the head of the script until the value read has `BUSY = 0`. -/
def hostPoll (s : State) : State :=
  let t := hostRead s (addrOf (.reg .status))
  if (hostReadValue s (addrOf (.reg .status))).getLsbD 0 then t
  else { t with host := { t.host with script := t.host.script.tail } }

/-- The host issues the operation at the head of its script (R50). With an empty script the host does nothing, and an idle engine
keeps all its state (R159, assumption log 12). -/
def hostStep (s : State) : Host.Outcome State Fault Refusal :=
  match s.host.script with
  | [] => .next s
  | .read a :: rest => .next (hostRead { s with host := { s.host with script := rest } } a)
  | .write a v :: rest => .next (hostWrite { s with host := { s.host with script := rest } } a v)
  | .wait :: _ => .next (hostPoll s)
  | .reset :: rest => .next ({ s with host := { s.host with script := rest } } : State).powerOn
  | .partialAccess _ :: _ => .refused .notWholeCell

end Sys2Proof.Machine
end

