-- ==== Sys2Proof/Machine/Step.lean ====
section
/-!
DEFINITION. The step: which agent moves next and what it does (60_exceptions.md R141, 70_reset_and_hazards.md R172).
-/

namespace Sys2Proof.Machine

/-- The engine owes a completion and its turn has come: the host operations that come first are used up, or the host has none to
issue (assumption log 4). -/
abbrev State.engineTurn (s : State) : Prop := s.busy = true ∧ (s.host.delay = 0 ∨ s.host.script = [])

/-- The completion step of R141: the command `CUR` names, or the illegal word of R150. -/
def completion (s : State) : Host.Outcome State Fault Refusal :=
  match decode s.cur with
  | .ok i => exec i s
  | .error _ => completeIllegal s

/-- One host operation while a completion is owed uses up one of those that come before it. -/
def State.tick (s : State) : State := { s with host := { s.host with delay := s.host.delay - 1 } }

/-- One step of the machine: the completion when it is the engine's turn, else the host's next operation. -/
def step (s : State) : Host.Outcome State Fault Refusal :=
  if s.engineTurn then completion s
  else if s.busy then hostStep s.tick
  else hostStep s

/-- The state in which the very next step completes the command word that is given: the word stands in `CUR` as its acceptance
leaves it (R15), and it is the engine's turn (assumption log 14). -/
def State.withFetchWord (s : State) (nbits w : Nat) : State :=
  { s with
    cur := BitVec.ofNat 32 (w % 2 ^ nbits), busy := true, done := false, err := .none,
    host := { s.host with delay := 0 } }

end Sys2Proof.Machine
end

