-- ==== Sys2Proof/Machine/Script.lean ====
section
/-!
DEFINITION. The host script notation and its pseudo-operations (30_encoding.md R65, R66), as lists of host operations.
-/

namespace Sys2Proof.Machine.Script

/-- `WR <cell>, <value>`. -/
def wr (c : Cell) (v : Word) : List HostOp := [.write (addrOf c) v]

/-- `RD <cell>`. -/
def rd (c : Cell) : List HostOp := [.read (addrOf c)]

/-- `CMD <mnemonic>`: a write of the command's word to `CMD`. -/
def cmd (i : Instr) : List HostOp := wr (.reg .cmd) (encode i)

/-- `WAIT`. -/
def wait : List HostOp := [.wait]

/-- `RUN <mnemonic>`: `CMD` then `WAIT`. -/
def run (i : Instr) : List HostOp := cmd i ++ wait

/-- Writes of consecutive cells from index `i` on. -/
def wrFrom (mk : Nat → Cell) : Nat → List Byte → List HostOp
  | _, [] => []
  | i, b :: bs => wr (mk i) (b.setWidth 32) ++ wrFrom mk (i + 1) bs

/-- `LOAD SRC, b0 ... b(k-1)`: the bytes, then `SRC_LEN`. -/
def loadSrc (bytes : List Byte) : List HostOp :=
  wrFrom .src 0 bytes ++ wr (.reg .srcLen) (BitVec.ofNat 32 bytes.length)

/-- `LOAD PK, b0 ... b(k-1)`: the bytes only. -/
def loadPk (bytes : List Byte) : List HostOp := wrFrom .pk 0 bytes

/-- The byte made of the bits `8j .. 8j+7` of a bit-string, left-aligned and zero-filled (R66, 10_state.md R23). -/
def codeByte (bs : BitString) (j : Nat) : Byte :=
  (List.range 8).foldl (fun acc k => (acc <<< 1) ||| (BitVec.ofBool (bs.getD (8 * j + k) false)).setWidth 8) 0#8

/-- `SETCODE s, <bit-string>`: the 32 bytes of the slot, then `CT_LEN[s]`. -/
def setCode (sym : Nat) (bs : BitString) : List HostOp :=
  wrFrom (fun j => .ctBits (32 * sym + j)) 0 ((List.range 32).map (codeByte bs)) ++
    wr (.ctLen sym) (BitVec.ofNat 32 bs.length)

/-- `encode(bytes)`: load the input and run ENCODE. -/
def encodeOp (bytes : List Byte) : List HostOp := loadSrc bytes ++ run .encode

/-- The table part of `decode(container)`: `SETCODE` for a present entry, `WR CT_LEN[s], 0` for an absent one. -/
def loadCodes (codes : List (Nat × BitString)) : List HostOp :=
  symbols.flatMap (fun sym =>
    match codes.find? (fun e => e.1 == sym) with
    | some e => setCode sym e.2
    | none => wr (.ctLen sym) 0#32)

/-- `decode(container)`: load the table, the bytes and the counts, and run UNPACK. -/
def decodeOp (k : Container) : List HostOp :=
  loadCodes k.codes ++ loadPk k.payload ++ wr (.reg .byteCount) k.byteCount ++ wr (.reg .bitCount) k.bitCount ++ run .unpack

end Sys2Proof.Machine.Script
end

