-- ==== Sys2Proof/WellFormed.lean ====
section
/-!
DEFINITION. Which terms of the syntax are well-formed: the ranges that the spec gives the parameters (00_scope.md R5), the cells
(10_state.md R10, 20_memory.md R43) and a code (10_state.md R22). A command has no field (30_encoding.md R62), so every command
is well-formed.
-/

namespace Sys2Proof

/-- R5: "1 <= `SRC_MAX` <= 2^24" and "1 <= `PK_MAX` <= 2^24". -/
abbrev Config.wf (c : Config) : Prop :=
  1 ≤ c.srcMax ∧ c.srcMax ≤ 2 ^ 24 ∧ 1 ≤ c.pkMax ∧ c.pkMax ≤ 2 ^ 24

/-- R62: "No command carries an operand in its word", so there is nothing to check. -/
def Instr.wf : Instr → Bool
  | .nop => true
  | .clear => true
  | .fcount => true
  | .tbuild => true
  | .cgen => true
  | .pack => true
  | .unpack => true
  | .encode => true

/-- The index is one the space has (the table under R10, R26, R43). `unmapped` names no cell. -/
def Cell.wf (c : Config) : Cell → Bool
  | .reg _ => true
  | .freq s => decide (s < Config.nSym)
  | .ctLen s => decide (s < Config.nSym)
  | .ctBits k => decide (k < 32 * Config.nSym)
  | .nodeInfo h => decide (h < 512)
  | .nodeWlo h => decide (h < 512)
  | .nodeWhi h => decide (h < 512)
  | .src i => decide (i < c.srcMax)
  | .pk i => decide (i < c.pkMax)
  | .out i => decide (i < c.srcMax)
  | .unmapped => false

/-- A code that a code table can hold (R22): 1 to 255 bits. -/
def BitString.wf (bs : BitString) : Bool :=
  decide (1 ≤ bs.length) && decide (bs.length ≤ Config.lCode)

/-- A container whose cells exist on an engine of configuration `c` (R66 `decode`). -/
def Container.wf (c : Config) (k : Container) : Bool :=
  k.codes.all (fun e => decide (e.1 < Config.nSym) && BitString.wf e.2) && decide (k.payload.length ≤ c.pkMax)

/-- The host issues whole-cell accesses only (R46: "A platform bridge ... must present each cell access as one transaction"). -/
def HostOp.wf : HostOp → Bool
  | .read _ => true
  | .write _ _ => true
  | .wait => true
  | .reset => true
  | .partialAccess _ => false

end Sys2Proof
end

