-- ==== Sys2Proof/Safety.lean ====
section
/-!
DEFINITION. What a good state of the engine is (the tree invariant 10_state.md R33 and the invariant of every run), and the words
that claims about the commands are stated in.
-/

namespace Sys2Proof.Machine

/-! ## The tree invariant and the invariant of every run -/

/-- `n = (N + 1) div 2` of R33: how many leaves a tree of `NODE_COUNT` slots has. -/
def State.leafCount (s : State) : Nat := (s.nodeCount.toNat + 1) / 2

/-- The slot `h` has `p` for a parent (R33(d)). -/
def State.childOf (s : State) (h p : Nat) : Prop :=
  s.leafCount ≤ p ∧ p < s.nodeCount.toNat ∧ ((s.nodeAt p).left.toNat = h ∨ (s.nodeAt p).right.toNat = h)

/-- R33, the tree invariant: "Whenever `STATUS.TV = 1`, with `N = NODE_COUNT` and `n = (N + 1) div 2`: ...". The weights are added
as natural numbers, so that the sum does not wrap (00_scope.md R8). -/
structure State.TreeInv (s : State) : Prop where
  /-- (a) -/
  size : 3 ≤ s.nodeCount.toNat ∧ s.nodeCount.toNat ≤ 511 ∧ s.nodeCount.toNat % 2 = 1
  /-- (d): `ROOT = N-1`. -/
  rootLast : s.root.toNat = s.nodeCount.toNat - 1
  /-- (b) -/
  leaves : ∀ h, h < s.leafCount → (s.nodeAt h).kind = .leaf ∧ (s.nodeAt h).weight ≠ 0#40
  /-- (b) -/
  ascending : ∀ h k, h < k → k < s.leafCount → (s.nodeAt h).sym < (s.nodeAt k).sym
  /-- (c) -/
  merged : ∀ h, s.leafCount ≤ h → h < s.nodeCount.toNat →
    (s.nodeAt h).kind = .internal ∧ (s.nodeAt h).left.toNat < h ∧ (s.nodeAt h).right.toNat < h ∧
      (s.nodeAt h).left ≠ (s.nodeAt h).right ∧
      (s.nodeAt h).weight.toNat =
        (s.nodeAt (s.nodeAt h).left.toNat).weight.toNat + (s.nodeAt (s.nodeAt h).right.toNat).weight.toNat
  /-- (d) -/
  oneParent : ∀ h, h < s.nodeCount.toNat - 1 → ∃ p, s.childOf h p ∧ ∀ q, s.childOf h q → q = p

/-- The invariant that every step keeps, from every state that meets it. -/
structure State.Inv (s : State) : Prop where
  /-- R5. -/
  cfg : s.cfg.wf
  /-- The tables and memories keep their canonical form, and list only cells the space has (R10). -/
  freq : Table.wf (some 0#32) s.freq ∧ Table.below 256 s.freq
  ctLen : Memory.wf Memory.zero s.ctLen ∧ Table.below 256 s.ctLen
  ctBits : Memory.wf Memory.zero s.ctBits ∧ Table.below 8192 s.ctBits
  node : Table.wf (some Node.zero) s.node ∧ Table.below 511 s.node
  src : Memory.wf Memory.unwritten s.src ∧ Table.below s.cfg.srcMax s.src
  pk : Memory.wf Memory.unwritten s.pk ∧ Table.below s.cfg.pkMax s.pk
  out : Memory.wf Memory.unwritten s.out ∧ Table.below s.cfg.srcMax s.out
  /-- R13: "`BUSY` and `DONE` are never both 1." -/
  notBoth : ¬ (s.busy = true ∧ s.done = true)
  /-- R13: `ERR` is 0 from acceptance or reset until the next completion. -/
  noReport : s.done = false → s.err = .none
  /-- R16: `ERR_INFO` is 0 after a success. -/
  successInfo : s.done = true → s.err = .none → s.errInfo = 0#32
  /-- R33. -/
  tree : s.tv = true → s.TreeInv
  /-- R21: a failed TBUILD, the start of ENCODE, CLEAR and reset write 0 to both. -/
  noTree : s.tv = false → s.root = 0#9 ∧ s.nodeCount = 0#10
  /-- R25: `sym` is 0 in an Internal node, `left` and `right` are 0 in a Leaf. -/
  slots : ∀ h, ((s.nodeAt h).kind = .leaf → (s.nodeAt h).left = 0#9 ∧ (s.nodeAt h).right = 0#9) ∧
    ((s.nodeAt h).kind = .internal → (s.nodeAt h).sym = 0#8)
  /-- R20: `OUT` holds `OUT_LEN` bytes. -/
  outLen : s.outLen.toNat ≤ s.cfg.srcMax

/-! ## The words of the claims -/

/-- `s` with the report of a completed command (R141): its code and its information, `BUSY = 0`, `DONE = 1`. -/
def State.reported (s : State) (e : ErrCode) (info : Word) : State :=
  { s with err := e, errInfo := info, busy := false, done := true }

/-- The engine's own state, the host agent left out. -/
def State.arch (s : State) : State := { s with host := HostSide.idle }

/-- The state in which an operation of the host is carried out: `rest` is what the host has still to issue, and while a completion is
owed one of the operations that come before it is used up (assumption log 4). -/
def State.issued (s : State) (rest : List HostOp) : State :=
  { s with host := { s.host with script := rest, delay := if s.busy then s.host.delay - 1 else s.host.delay } }

/-- The entry of a symbol is present (R22). -/
def State.hasCode (s : State) (sym : Nat) : Prop := s.ctLenAt sym ≠ 0#8

/-- R99(c), (e): no present code is a prefix of another symbol's. -/
def State.prefixFree (s : State) : Prop :=
  ∀ a b, a < 256 → b < 256 → a ≠ b → s.hasCode a → s.hasCode b → ¬ s.code a <+: s.code b

/-- `code(m0) ++ code(m1) ++ ...` (R106). -/
def State.codesOf (s : State) (msg : List Byte) : BitString := msg.flatMap (fun b => s.code b.toNat)

/-- The encoded bitstream `E` of R106. -/
def State.encodedStream (s : State) : BitString := s.codesOf s.input

/-- The `q`-th group of a bit-string (R106). -/
def group (bs : BitString) (q : Nat) : BitString := (bs.drop (8 * q)).take 8

/-- `g0*2^(r-1) + ... + g(r-1)*1` of R106, for a group of any length. -/
def groupValue (g : BitString) : Nat := g.foldl (fun v b => 2 * v + b.toNat) 0

/-- The slot reached from `h` along a path of branch bits, left = 0 and right = 1, through Internal slots only (R96). -/
def State.descend (s : State) : Nat → BitString → Option Nat
  | h, [] => some h
  | h, b :: bs =>
    match (s.nodeAt h).kind with
    | .leaf => none
    | .internal => State.descend s (if b then (s.nodeAt h).right.toNat else (s.nodeAt h).left.toNat) bs

/-- The order of the keys `(weight, handle)` of R80, between two slots of the arena. -/
def State.keyBefore (s : State) (a b : Nat) : Prop :=
  (s.nodeAt a).weight.toNat < (s.nodeAt b).weight.toNat ∨ ((s.nodeAt a).weight = (s.nodeAt b).weight ∧ a < b)

/-- The slot `k` waits to be merged when slot `h` is made: it lies below `h`, and no Internal slot below `h` has it for a child
(what R83 holds in `PQ` then). -/
def State.waiting (s : State) (h k : Nat) : Prop :=
  k < h ∧ ∀ p, s.leafCount ≤ p → p < h → (s.nodeAt p).left.toNat ≠ k ∧ (s.nodeAt p).right.toNat ≠ k

/-- R79, R82, R83, R85: every Internal slot has for its left and right child, in this order, the two slots of least key among those
that waited when it was made. -/
def State.MergesTheTwoLeast (s : State) : Prop :=
  ∀ h, s.leafCount ≤ h → h < s.nodeCount.toNat →
    s.waiting h (s.nodeAt h).left.toNat ∧ s.waiting h (s.nodeAt h).right.toNat ∧
    s.keyBefore (s.nodeAt h).left.toNat (s.nodeAt h).right.toNat ∧
    ∀ k, s.waiting h k → k ≠ (s.nodeAt h).left.toNat → k ≠ (s.nodeAt h).right.toNat → s.keyBefore (s.nodeAt h).right.toNat k

/-- R118, R119(h): `m` is the match of the first candidate that has one, as the scan of `bs` grows it bit by bit. -/
def State.firstMatch (s : State) (bs : BitString) (m : Nat) : Prop :=
  ∃ len, 0 < len ∧ len ≤ bs.length ∧ s.matchCode (bs.take len) = some m ∧
    ∀ j, 0 < j → j < len → s.matchCode (bs.take j) = none

/-- R119, R121: the greedy scan of `bs` emits `msg` first, whatever the table: each symbol is the first match of what the codes
emitted before it leave. -/
def State.emits (s : State) : BitString → List Byte → Prop
  | _, [] => True
  | bs, b :: msg => s.firstMatch bs b.toNat ∧ State.emits s (bs.drop (s.code b.toNat).length) msg

/-- The errors a command can report (the column "raised by" of R143); ENCODE's are those of R130. -/
def canReport : Instr → List ErrCode
  | .nop => [.none]
  | .clear => [.none]
  | .fcount => [.none, .emptyInput, .capacity]
  | .tbuild => [.none, .insufficientAlphabet]
  | .cgen => [.none, .sequence]
  | .pack => [.none, .internalConsistency, .capacity]
  | .unpack => [.none, .malformedContainer, .capacity]
  | .encode => [.none, .emptyInput, .insufficientAlphabet, .capacity]

end Sys2Proof.Machine
end

