-- ==== Sys2Proof/Certificates/Slice0/Obligations.lean ====
section
/-!
DEFINITION. The statements for the provers. Each docstring names the rule of spec/ it formalises; a command's frame is said by an
equation `t = { s with ... }` that lists every field the command may change.
-/

open Sys2Proof Sys2Proof.Machine

/-! ## The command word and the step -/

/-- R61: the eight command words, "selected by the whole 32-bit word". -/
def Obligations.CommandWordsDecode : Prop :=
  decode 0x00000000#32 = .ok .nop ∧ decode 0x00000001#32 = .ok .clear ∧ decode 0x00000002#32 = .ok .fcount ∧
    decode 0x00000003#32 = .ok .tbuild ∧ decode 0x00000004#32 = .ok .cgen ∧ decode 0x00000005#32 = .ok .pack ∧
    decode 0x00000006#32 = .ok .unpack ∧ decode 0x00000007#32 = .ok .encode

/-- R60, R61: decoding an encoded command gives it back, and the encoding has no other bit set than the operation code's. -/
def Obligations.EncodedCommandDecodesToItself : Prop :=
  ∀ i : Instr, decode (encode i) = .ok i ∧ encode i = (i.opc).setWidth 32 ∧ decodeTableWord 32 (encode i).toNat = some i

/-- R61, R63: over all 2^32 words a word decodes to a command exactly when it is that command's word; a word with a reserved bit
set, and any other word whose operation code is 8 or more, is refused by its own name. -/
def Obligations.OnlyTheEightWordsDecode : Prop :=
  ∀ w : Word,
    (∀ i, decode w = .ok i ↔ w = encode i) ∧
    (decode w = .error (.reservedBits (rsvField w)) ↔ 2 ^ 8 ≤ w.toNat) ∧
    (decode w = .error (.illegalOpcode (opcField w)) ↔ 8 ≤ w.toNat ∧ w.toNat < 2 ^ 8)

/-- R141 (which step the engine has), R172 and assumption log 4 (whose turn it is): when it is the engine's turn the step is `exec` of
the command that `CUR` names, else it is the host's next operation; and the word that `withFetchWord` places is the next to run. -/
def Obligations.StepCompletesTheDecodedCommand : Prop :=
  (∀ s i, s.engineTurn → decode s.cur = .ok i → step s = exec i s) ∧
  (∀ s, ¬ s.engineTurn → s.busy = true → step s = hostStep s.tick) ∧
  (∀ s, s.busy = false → step s = hostStep s) ∧
  (∀ (s : State) i, step (s.withFetchWord 32 (encode i).toNat) = exec i (s.withFetchWord 32 (encode i).toNat))

/-- R150: a word that is none of the eight completes with `ILLEGAL_CMD` and the word, and no other cell changes. -/
def Obligations.IllegalWordCompletes : Prop :=
  ∀ s : State, s.engineTurn → (∀ i, s.cur ≠ encode i) → step s = .next (s.reported .illegalCmd s.cur)

/-- R143, R144: the number of every code, the code and the information word of every error, and those of a success. (Which command can
report which code is `CommandsReportOnlyTheirErrors`.) -/
def Obligations.ErrorCodesAndInformation : Prop :=
  [ErrCode.none, .emptyInput, .insufficientAlphabet, .internalConsistency, .malformedContainer, .capacity, .illegalCmd,
      .sequence].map ErrCode.num = [0#4, 1#4, 2#4, 3#4, 4#4, 5#4, 6#4, 7#4] ∧
  [Limit.packedFull, .outFull, .srcLen, .byteCount].map (fun l => (CmdError.capacity l).info) = [1#32, 2#32, 3#32, 4#32] ∧
  CmdError.emptyInput.info = 0#32 ∧ CmdError.sequence.info = 0#32 ∧ CmdError.malformedCounts.info = 0xFFFFFFFF#32 ∧
  (∀ w, (CmdError.illegalCmd w).info = w) ∧
  (∀ n, (CmdError.insufficientAlphabet n).info = BitVec.ofNat 32 n) ∧
  (∀ n, (CmdError.internalConsistency n).info = BitVec.ofNat 32 n) ∧
  (∀ n, (CmdError.malformedStream n).info = BitVec.ofNat 32 n) ∧
  CmdError.emptyInput.code = .emptyInput ∧ CmdError.sequence.code = .sequence ∧
  CmdError.malformedCounts.code = .malformedContainer ∧
  (∀ w, (CmdError.illegalCmd w).code = .illegalCmd) ∧
  (∀ n, (CmdError.insufficientAlphabet n).code = .insufficientAlphabet) ∧
  (∀ n, (CmdError.internalConsistency n).code = .internalConsistency) ∧
  (∀ n, (CmdError.malformedStream n).code = .malformedContainer) ∧
  (∀ l, (CmdError.capacity l).code = .capacity) ∧
  (∀ s : State, s.finish none = s.reported .none 0#32) ∧
  (∀ (s : State) (e : CmdError), s.finish (some e) = s.reported e.code e.info)

/-- R143 (column "raised by"), R130 ("`INTERNAL_CONSISTENCY` cannot arise ... `SEQUENCE` cannot arise"): which codes each command can
report. For ENCODE this says that the table its CGEN stage makes covers its input. -/
def Obligations.CommandsReportOnlyTheirErrors : Prop :=
  ∀ (i : Instr) (s t : State), s.cfg.wf → exec i s = .next t → t.err ∈ canReport i

/-! ## Reset -/

/-- R34: the value of every piece of state after reset, for every choice of the parameters; `CUR` is left out, as the rule gives it
no value. A buffer cell reads as its free value (assumption log 3). -/
def Obligations.ResetValues : Prop :=
  State.reset = State.resetOf ⟨65536, 65536⟩ 0 HostSide.idle ∧
  ∀ (c : Config) (p : Nat) (h : HostSide),
    let r := State.resetOf c p h
    r.busy = false ∧ r.done = false ∧ r.tv = false ∧ r.err = .none ∧
    [Reg.id, .cmd, .status, .errInfo, .srcLen, .byteCount, .bitCount, .outLen, .root, .nodeCount, .reserved12, .reserved13,
      .reserved14, .reserved15].map r.readReg =
        [0x48554631#32, 0#32, 0#32, 0#32, 0#32, 0#32, 0#32, 0#32, 0#32, 0#32, 0#32, 0#32, 0#32, 0#32] ∧
    r.readReg .capSrc = BitVec.ofNat 32 c.srcMax ∧ r.readReg .capPk = BitVec.ofNat 32 c.pkMax ∧
    (∀ i, r.freqAt i = 0#32 ∧ r.ctLenAt i = 0#8 ∧ r.ctBitsAt i = 0#8 ∧ r.nodeAt i = ⟨.leaf, 0#8, 0#40, 0#9, 0#9⟩) ∧
    (∀ i, r.srcAt i = Config.powerOnByte p .src i ∧ r.pkAt i = Config.powerOnByte p .pk i ∧
      r.outAt i = Config.powerOnByte p .out i)

/-- The reset state meets the invariant, whatever the parameters within their range (R5, R34). -/
def Obligations.ResetMeetsTheInvariant : Prop :=
  State.reset.Inv ∧ ∀ (c : Config) (p : Nat) (h : HostSide), c.wf → (State.resetOf c p h).Inv

/-- R165, R166: a reset the platform asserts gives the reset state, whether the engine is idle or owes a completion; the abandoned
command never completes, and the parameters stay. Which agent moves is assumption log 4. -/
def Obligations.ResetAbandonsTheCommand : Prop :=
  ∀ (s : State) (rest : List HostOp), s.host.script = .reset :: rest → ¬ s.engineTurn →
    step s = .next (State.resetOf s.cfg (s.powerOns + 1) { s.host with script := rest, delay := 0 })

/-! ## The invariant of every run -/

/-- R10, R13, R16, R20, R21, R25, R33: every step keeps the invariant of Safety.lean, from every state that meets it: canonical memory
within the spaces, `BUSY` and `DONE` never both 1, and the tree invariant whenever `TV = 1`. -/
def Obligations.StepKeepsTheInvariant : Prop :=
  ∀ s t : State, s.Inv → step s = .next t → t.Inv

/-- R141, R158: every command completes: from every state that meets the invariant `exec` answers a next state that is idle and done;
so CGEN's walk always ends (R98) and no command hangs. -/
def Obligations.EveryCommandCompletes : Prop :=
  ∀ (i : Instr) (s : State), s.Inv → ∃ t, exec i s = .next t ∧ t.busy = false ∧ t.done = true

/-- R158: no step of a state that meets the invariant faults, and it is refused only when the host makes a bus access that is not one
whole cell (R46, assumption log 8). -/
def Obligations.NothingStopsTheMachine : Prop :=
  ∀ s : State, s.Inv → (∀ a rest, s.host.script ≠ .partialAccess a :: rest) → ∃ t, step s = .next t

/-- R172, R63: liveness. Whatever word was accepted, one of the eight or an illegal one, it completes after at most `host.delay` further
host operations (assumption log 4), and, as R51 says, with the effect it has on the state at acceptance, whatever the host does in
between short of a reset. -/
def Obligations.AcceptedCommandCompletes : Prop :=
  ∀ s : State, s.Inv → s.busy = true →
    (∀ op ∈ s.host.script.take s.host.delay, op ≠ .reset ∧ op.wf = true) →
    ∃ k t u, k ≤ s.host.delay ∧ Host.Core.run core (k + 1) s = .next t ∧ t.arch = u.arch ∧ completion s = .next u ∧
      (∀ i, decode s.cur = .ok i → exec i s = .next u) ∧
      ((∀ i, s.cur ≠ encode i) → u = s.reported .illegalCmd s.cur)

/-! ## Registers and the host port -/

/-- R40, R41, R42, R50: the host's transactions take effect one at a time, in the order of its script, each in one step: unless it is
the engine's turn, the operation at the head of the script is carried out (while a completion is owed too, where it is then one of
those that come before it, assumption log 4) and the script goes on. R46: an access that is not one whole cell is refused. With
nothing to issue an idle machine keeps its state (assumption log 12). `WAIT` is `WaitPollsStatus`, a reset `ResetAbandonsTheCommand`. -/
def Obligations.HostTransactionIsOneStep : Prop :=
  ∀ s : State, ¬ s.engineTurn →
    (∀ a rest, s.host.script = .read a :: rest →
      step s = .next (hostRead (s.issued rest) a) ∧ hostReadValue (s.issued rest) a = hostReadValue s a) ∧
    (∀ a v rest, s.host.script = .write a v :: rest →
      step s = .next (hostWrite (s.issued rest) a v) ∧
      (s.busy = true → step s = .next (s.issued rest))) ∧
    (∀ a rest, s.host.script = .partialAccess a :: rest → step s = .refused .notWholeCell) ∧
    (s.host.script = [] → step s = .next s)

/-- R13: the fields of `STATUS` as the host reads it, and "every other bit reads 0". -/
def Obligations.StatusFields : Prop :=
  ∀ s : State,
    s.status.getLsbD 0 = s.busy ∧ s.status.getLsbD 1 = s.done ∧ s.status.getLsbD 2 = s.tv ∧ s.status.getLsbD 3 = false ∧
    s.status.extractLsb' 4 4 = s.err.num ∧ s.status.extractLsb' 8 24 = 0#24 ∧ s.readReg .status = s.status

/-- R13, D27: what sets and what clears `TV`. It rises only when TBUILD or ENCODE completes, and falls only when TBUILD (failing
with `INSUFFICIENT_ALPHABET`), ENCODE (reporting an error) or CLEAR completes, or at a reset. -/
def Obligations.TreeValidChangesOnlyByItsCommands : Prop :=
  ∀ s t : State, step s = .next t →
    (s.tv = false → t.tv = true → s.engineTurn ∧ (s.cur = encode .tbuild ∨ s.cur = encode .encode)) ∧
    (s.tv = true → t.tv = false →
      (s.engineTurn ∧ (s.cur = encode .clear ∨ (s.cur = encode .tbuild ∧ t.err = .insufficientAlphabet) ∨
        (s.cur = encode .encode ∧ t.err ≠ .none))) ∨
      (¬ s.engineTurn ∧ s.host.script.head? = some .reset))

/-- R15: `CMD` reads 0; a write of `w` while idle accepts a command, changing `CUR`, `BUSY`, `DONE` and `ERR` and, of the engine,
nothing else; a write while BUSY is dropped. -/
def Obligations.CommandAcceptance : Prop :=
  ∀ (s : State) (w : Word),
    s.readReg .cmd = 0#32 ∧
    (s.busy = false →
      (hostWrite s 0x0000001#26 w).arch = { s.arch with cur := w, busy := true, done := false, err := .none }) ∧
    (s.busy = true → hostWrite s 0x0000001#26 w = s)

/-- R41: `HostRead` changes no state of the engine and returns, while idle, the cell's content (0 for `CMD`, reserved and unmapped
cells); while BUSY the content of the four registers that stay readable, and of any other cell the next unspecified value (a free
value, assumption log 6). R14, R31: in every state, BUSY or not, `ID` reads `0x48554631`, `CAP_SRC` reads `SRC_MAX` and `CAP_PK`
reads `PK_MAX`. R13 to R21, R41: the content of every other register and of every cell of the tables and buffers, zero-extended (the
views of `NODE` are `NodeViews`). -/
def Obligations.HostReadReturnsTheContent : Prop :=
  ∀ (s : State) (a : CellAddr),
    (hostRead s a).arch = s.arch ∧
    (hostRead s a).host.reads = (a, hostReadValue s a) :: s.host.reads ∧
    (s.busy = false → hostReadValue s a = s.content (cellOf s.cfg a)) ∧
    (s.busy = true →
      (cellOf s.cfg a ∈ [Cell.reg .id, .reg .status, .reg .capSrc, .reg .capPk] →
        hostReadValue s a = s.content (cellOf s.cfg a)) ∧
      (cellOf s.cfg a ∉ [Cell.reg .id, .reg .status, .reg .capSrc, .reg .capPk] →
        hostReadValue s a = Config.busyRead s.host.freeReads ∧
        (hostRead s a).host.freeReads = s.host.freeReads + 1)) ∧
    (∀ c ∈ [Cell.reg .cmd, .reg .reserved12, .reg .reserved13, .reg .reserved14, .reg .reserved15, .unmapped],
      s.content c = 0#32) ∧
    s.content (.reg .id) = 0x48554631#32 ∧ hostReadValue s 0x0000000#26 = 0x48554631#32 ∧
    s.content (.reg .capSrc) = BitVec.ofNat 32 s.cfg.srcMax ∧ hostReadValue s 0x000000A#26 = BitVec.ofNat 32 s.cfg.srcMax ∧
    s.content (.reg .capPk) = BitVec.ofNat 32 s.cfg.pkMax ∧ hostReadValue s 0x000000B#26 = BitVec.ofNat 32 s.cfg.pkMax ∧
    s.content (.reg .status) = s.status ∧ s.content (.reg .errInfo) = s.errInfo ∧ s.content (.reg .srcLen) = s.srcLen ∧
    s.content (.reg .byteCount) = s.byteCount ∧ s.content (.reg .bitCount) = s.bitCount ∧ s.content (.reg .outLen) = s.outLen ∧
    (s.content (.reg .root)).toNat = s.root.toNat ∧ (s.content (.reg .nodeCount)).toNat = s.nodeCount.toNat ∧
    ∀ i, s.content (.freq i) = s.freqAt i ∧ (s.content (.ctLen i)).toNat = (s.ctLenAt i).toNat ∧
      (s.content (.ctBits i)).toNat = (s.ctBitsAt i).toNat ∧ (s.content (.src i)).toNat = (s.srcAt i).toNat ∧
      (s.content (.pk i)).toNat = (s.pkAt i).toNat ∧ (s.content (.out i)).toNat = (s.outAt i).toNat

/-- R42, R9: `HostWrite`. While BUSY it is ignored, whatever the cell. While idle a writable cell takes the low bits that fit it and
nothing else changes, a write to `CMD` accepts a command, and a write to any other cell is ignored. -/
def Obligations.HostWriteStoresTheLowBits : Prop :=
  ∀ (s : State) (a : CellAddr) (v : Word),
    (s.busy = true → hostWrite s a v = s) ∧
    (s.busy = false →
      let t := hostWrite s a v
      match cellOf s.cfg a with
      | .reg .cmd => t = s.accept v
      | .reg .srcLen => t = { s with srcLen := v }
      | .reg .byteCount => t = { s with byteCount := v }
      | .reg .bitCount => t = { s with bitCount := v }
      | .freq i => t = { s with freq := t.freq } ∧ t.freqAt i = v ∧ ∀ j, j ≠ i → t.freqAt j = s.freqAt j
      | .ctLen i => t = { s with ctLen := t.ctLen } ∧ t.ctLenAt i = v.setWidth 8 ∧ ∀ j, j ≠ i → t.ctLenAt j = s.ctLenAt j
      | .ctBits i =>
        t = { s with ctBits := t.ctBits } ∧ t.ctBitsAt i = v.setWidth 8 ∧ ∀ j, j ≠ i → t.ctBitsAt j = s.ctBitsAt j
      | .src i => t = { s with src := t.src } ∧ t.srcAt i = v.setWidth 8 ∧ ∀ j, j ≠ i → t.srcAt j = s.srcAt j
      | .pk i => t = { s with pk := t.pk } ∧ t.pkAt i = v.setWidth 8 ∧ ∀ j, j ≠ i → t.pkAt j = s.pkAt j
      | _ => t = s)

/-- R43: the address map: every row of its table, the registers by the numbers of R11, and every other address unmapped. -/
def Obligations.AddressMap : Prop :=
  ∀ c : Config, c.wf →
    (List.range 16).map (fun r => cellOf c (BitVec.ofNat 26 r)) =
      [.reg .id, .reg .cmd, .reg .status, .reg .errInfo, .reg .srcLen, .reg .byteCount, .reg .bitCount, .reg .outLen, .reg .root,
        .reg .nodeCount, .reg .capSrc, .reg .capPk, .reg .reserved12, .reg .reserved13, .reg .reserved14, .reg .reserved15] ∧
    (∀ s, s < 256 → cellOf c (BitVec.ofNat 26 (0x0000100 + s)) = .freq s) ∧
    (∀ s, s < 256 → cellOf c (BitVec.ofNat 26 (0x0000200 + s)) = .ctLen s) ∧
    (∀ h, h < 512 → cellOf c (BitVec.ofNat 26 (0x0000400 + h)) = .nodeInfo h) ∧
    (∀ h, h < 512 → cellOf c (BitVec.ofNat 26 (0x0000600 + h)) = .nodeWlo h) ∧
    (∀ h, h < 512 → cellOf c (BitVec.ofNat 26 (0x0000800 + h)) = .nodeWhi h) ∧
    (∀ s j, s < 256 → j < 32 → cellOf c (BitVec.ofNat 26 (0x0002000 + 32 * s + j)) = .ctBits (32 * s + j)) ∧
    (∀ i, i < c.srcMax → cellOf c (BitVec.ofNat 26 (0x1000000 + i)) = .src i) ∧
    (∀ i, i < c.pkMax → cellOf c (BitVec.ofNat 26 (0x2000000 + i)) = .pk i) ∧
    (∀ i, i < c.srcMax → cellOf c (BitVec.ofNat 26 (0x3000000 + i)) = .out i) ∧
    (∀ a : CellAddr, cellOf c a ≠ .unmapped → Cell.wf c (cellOf c a) = true ∧ addrOf (cellOf c a) = a) ∧
    (∀ x : Cell, Cell.wf c x = true → cellOf c (addrOf x) = x) ∧
    (∀ (s : State) v, s.content .unmapped = 0#32 ∧ s.writeCell v .unmapped = s)

/-- R35, R50: a host write changes no cell but the one it names, the write to `CMD` apart, and a read of a writable cell gives the low
bits of what was written last. -/
def Obligations.WritesDoNotAlias : Prop :=
  ∀ (s : State) (x y : Cell) (v : Word), s.cfg.wf → s.busy = false → Cell.wf s.cfg x = true → x ≠ .reg .cmd →
    (y ≠ x → (hostWrite s (addrOf x) v).content y = s.content y) ∧
    ((∃ i, x = .freq i) ∨ x = .reg .srcLen ∨ x = .reg .byteCount ∨ x = .reg .bitCount →
      (hostWrite s (addrOf x) v).content x = v) ∧
    ((∃ i, x = .ctLen i) ∨ (∃ i, x = .ctBits i) ∨ (∃ i, x = .src i) ∨ (∃ i, x = .pk i) →
      (hostWrite s (addrOf x) v).content x = (v.setWidth 8).setWidth 32)

/-- R51, R42: what the host does while a completion is owed changes nothing of the engine, short of a reset. -/
def Obligations.HostCannotDisturbABusyEngine : Prop :=
  ∀ s t : State, s.busy = true → hostStep s = .next t → s.host.script.head? ≠ some .reset → t.arch = s.arch

/-- R25, R177: the host cannot change the tree, `OUT`, `OUT_LEN`, `ERR_INFO`, the parameters or the identity, short of a reset: "The
tree is immutable once built". -/
def Obligations.HostCannotWriteTheTree : Prop :=
  ∀ s t : State, hostStep s = .next t → s.host.script.head? ≠ some .reset →
    t.node = s.node ∧ t.root = s.root ∧ t.nodeCount = s.nodeCount ∧ t.tv = s.tv ∧ t.out = s.out ∧ t.outLen = s.outLen ∧
    t.errInfo = s.errInfo ∧ t.cfg = s.cfg ∧ t.powerOns = s.powerOns

/-- R26: the three views of a node slot, field by field; cell 511 of each reads 0 and a write to any cell is ignored. -/
def Obligations.NodeViews : Prop :=
  ∀ (s : State) (h : Nat),
    (h < 511 →
      (s.content (.nodeInfo h)).toNat =
        (s.nodeAt h).kind.bit.toNat * 2 ^ 31 + (s.nodeAt h).right.toNat * 2 ^ 17 + (s.nodeAt h).left.toNat * 2 ^ 8 +
          (s.nodeAt h).sym.toNat ∧
      (s.content (.nodeWlo h)).toNat = (s.nodeAt h).weight.toNat % 2 ^ 32 ∧
      (s.content (.nodeWhi h)).toNat = (s.nodeAt h).weight.toNat / 2 ^ 32) ∧
    (s.content (.nodeInfo 511) = 0#32 ∧ s.content (.nodeWlo 511) = 0#32 ∧ s.content (.nodeWhi 511) = 0#32) ∧
    (∀ v, s.writeCell v (.nodeInfo h) = s ∧ s.writeCell v (.nodeWlo h) = s ∧ s.writeCell v (.nodeWhi h) = s)

/-- R52, R65: the poll `WAIT`. While idle its one read returns `STATUS` with `BUSY = 0` and the host goes on; while a completion is owed
it returns `STATUS` with `BUSY = 1` and the poll stays. -/
def Obligations.WaitPollsStatus : Prop :=
  ∀ (s : State) (rest : List HostOp), s.host.script = .wait :: rest →
    (s.busy = false → ∃ t, step s = .next t ∧ t.host.script = rest ∧ t.arch = s.arch ∧
      t.host.reads = (0x0000002#26, s.status) :: s.host.reads ∧ s.status.getLsbD 0 = false) ∧
    (s.busy = true → ¬ s.engineTurn → ∃ t, step s = .next t ∧ t.host.script = .wait :: rest ∧ t.arch = s.arch ∧
      t.host.reads = (0x0000002#26, s.status) :: s.host.reads ∧ s.status.getLsbD 0 = true ∧
      t.host.delay + 1 = s.host.delay)

/-- R66: `SETCODE s, <bit-string>` issued by an idle machine's host leaves exactly that code for `s`, and every other symbol's code
alone. -/
def Obligations.SetCodeLoadsTheCode : Prop :=
  ∀ (s : State) (sym : Nat) (bs : BitString) (rest : List HostOp), s.cfg.wf → s.busy = false → sym < 256 → BitString.wf bs = true →
    s.host.script = Script.setCode sym bs ++ rest →
    ∃ t, Host.Core.run core 33 s = .next t ∧ t.host.script = rest ∧ t.code sym = bs ∧
      (∀ k, bs.length ≤ k → k < 256 → msbFirst (t.ctBitsAt (32 * sym + k / 8)) k = false) ∧
      (∀ o, o < 256 → o ≠ sym → t.code o = s.code o) ∧
      t.arch = { s.arch with ctLen := t.ctLen, ctBits := t.ctBits }

/-- R23, R27, R44, R117: how bits and bytes lie. Bit `k` of a code is bit `7 - (k mod 8)` of byte `k div 8` of its slot; the input is
`SRC[0 .. SRC_LEN-1]`; bit `j` of the stream in `PK` is bit `7 - (j mod 8)` of its byte in a full group, and bit `r - 1 - (j mod 8)` in
a final group of `r` bits. -/
def Obligations.BitAndByteOrder : Prop :=
  ∀ s : State,
    (∀ sym, (s.code sym).length = (s.ctLenAt sym).toNat ∧
      ∀ k, k < (s.ctLenAt sym).toNat →
        (s.code sym)[k]? = some ((s.ctBitsAt (32 * sym + k / 8)).getLsbD (7 - k % 8))) ∧
    (s.input.length = s.srcLen.toNat ∧ ∀ i, i < s.srcLen.toNat → s.input[i]? = some (s.srcAt i)) ∧
    (s.stream.length = s.bitCount.toNat ∧
      ∀ j, j < s.bitCount.toNat →
        (j / 8 < s.bitCount.toNat / 8 → s.stream[j]? = some ((s.pkAt (j / 8)).getLsbD (7 - j % 8))) ∧
        (j / 8 = s.bitCount.toNat / 8 →
          s.stream[j]? = some ((s.pkAt (s.bitCount.toNat / 8)).getLsbD (s.bitCount.toNat % 8 - 1 - j % 8))))

/-! ## NOP and CLEAR -/

/-- R131: NOP does nothing but report success. -/
def Obligations.NopResult : Prop :=
  encode .nop = 0x00000000#32 ∧ ∀ s : State, exec .nop s = .next (s.reported .none 0#32)

/-- R132: "After CLEAR completes the state equals the reset state ... except that `STATUS.DONE = 1` and the three byte buffers hold what
they held"; `CUR` has no meaning then (R12). -/
def Obligations.ClearResult : Prop :=
  encode .clear = 0x00000001#32 ∧ ∀ s : State, exec .clear s = .next
    { State.resetOf s.cfg s.powerOns s.host with done := true, cur := s.cur, src := s.src, pk := s.pk, out := s.out }

/-! ## FCOUNT -/

/-- R76: FCOUNT. A length over `SRC_MAX` is `CAPACITY(3)` with `FREQ` unchanged; an empty input is `EMPTY_INPUT` with `FREQ` all zero;
otherwise `FREQ[b]` is the number of occurrences of `b` in the input. Nothing else changes. -/
def Obligations.FcountCountsTheInput : Prop :=
  encode .fcount = 0x00000002#32 ∧ ∀ s : State,
    (s.cfg.srcMax < s.srcLen.toNat → exec .fcount s = .next (s.reported .capacity 3#32)) ∧
    (s.srcLen = 0#32 → exec .fcount s = .next ({ s with freq := [] }.reported .emptyInput 0#32)) ∧
    (s.cfg.wf → 0 < s.srcLen.toNat → s.srcLen.toNat ≤ s.cfg.srcMax →
      ∃ t, exec .fcount s = .next t ∧ t = { s with freq := t.freq }.reported .none 0#32 ∧
        ∀ b : Byte, (t.freqAt b.toNat).toNat = s.input.count b)

/-- R77: after a successful FCOUNT the table sums to `SRC_LEN`, and is 0 exactly at the byte values that do not occur. -/
def Obligations.FcountSumsToTheLength : Prop :=
  ∀ s t : State, s.cfg.wf → exec .fcount s = .next t → t.err = .none →
    ((List.range 256).map (fun i => (t.freqAt i).toNat)).sum = s.srcLen.toNat ∧
    ∀ b : Byte, t.freqAt b.toNat = 0#32 ↔ ∀ k, k < s.srcLen.toNat → s.srcAt k ≠ b

/-! ## TBUILD -/

/-- R80 to R82: inserting an entry that is not in the queue adds exactly that entry, and what is extracted is the entry of least key. -/
def Obligations.QueueGivesTheLeastKey : Prop :=
  ∀ (q : Queue) (e : Entry), q.Pairwise (fun a b => a.before b = true) → e ∉ q →
    (Queue.insert q e).Pairwise (fun a b => a.before b = true) ∧ (Queue.insert q e).Perm (e :: q) ∧
    ∃ m r, Queue.extractMin (Queue.insert q e) = some (m, r) ∧ (m :: r).Perm (e :: q) ∧
      ∀ x ∈ r, m.weight.toNat < x.weight.toNat ∨ (m.weight = x.weight ∧ m.handle.toNat < x.handle.toNat)

/-- R90, R147: with fewer than two non-zero frequencies TBUILD reports `INSUFFICIENT_ALPHABET` with their number, the tree is dropped,
and neither the arena nor anything else changes. -/
def Obligations.TbuildRejectsSmallAlphabets : Prop :=
  ∀ s : State, s.present.length < 2 →
    exec .tbuild s = .next ({ s with tv := false, root := 0#9, nodeCount := 0#10 }.reported .insufficientAlphabet
      (BitVec.ofNat 32 s.present.length))

/-- R83, R84, R86, R33: with `n >= 2` non-zero frequencies TBUILD completes with a tree of `2n - 1` slots whose root is the last; the leaf
of the k-th smallest symbol has handle `k` and its frequency for weight; the arena meets the tree invariant; the root's weight is the
sum of the frequencies; later slots and everything else are left alone. -/
def Obligations.TbuildBuildsTheTree : Prop :=
  ∀ s : State, 2 ≤ s.present.length →
    ∃ t, exec .tbuild s = .next t ∧
      t = { s with node := t.node, tv := true, root := t.root, nodeCount := t.nodeCount }.reported .none 0#32 ∧
      t.root.toNat = 2 * s.present.length - 2 ∧ t.nodeCount.toNat = 2 * s.present.length - 1 ∧ t.TreeInv ∧
      (∀ k (hk : k < s.present.length),
        t.nodeAt k = ⟨.leaf, BitVec.ofNat 8 s.present[k], (s.freqAt s.present[k]).setWidth 40, 0#9, 0#9⟩) ∧
      (t.nodeAt t.root.toNat).weight.toNat = ((List.range 256).map (fun i => (s.freqAt i).toNat)).sum ∧
      (∀ h, t.nodeCount.toNat ≤ h → t.nodeAt h = s.nodeAt h)

/-- R79, R82, R83, R85: every merge takes the two least keys `(weight, handle)` among the slots made before it that have no parent yet,
the least for its left child and the next for its right; so the left child weighs no more than the right, and of equal weights the
left has the lower handle. -/
def Obligations.TbuildMergesTheTwoLeastKeys : Prop :=
  ∀ s t : State, exec .tbuild s = .next t → t.tv = true →
    t.MergesTheTwoLeast ∧
    ∀ h, t.leafCount ≤ h → h < t.nodeCount.toNat →
      (t.nodeAt (t.nodeAt h).left.toNat).weight.toNat ≤ (t.nodeAt (t.nodeAt h).right.toNat).weight.toNat ∧
      ((t.nodeAt (t.nodeAt h).left.toNat).weight = (t.nodeAt (t.nodeAt h).right.toNat).weight →
        (t.nodeAt h).left.toNat < (t.nodeAt h).right.toNat)

/-- R87: the weights of the merged slots are non-decreasing in handle order. -/
def Obligations.TbuildMergeWeightsRise : Prop :=
  ∀ s t : State, exec .tbuild s = .next t → t.tv = true →
    ∀ h1 h2, t.leafCount ≤ h1 → h1 < h2 → h2 < t.nodeCount.toNat →
      (t.nodeAt h1).weight.toNat ≤ (t.nodeAt h2).weight.toNat

/-- R89: two symbols give a tree of three slots, the lighter (of equal ones the lower symbol) on the left, and CGEN then gives each a
1-bit code. -/
def Obligations.TwoSymbolsGetOneBitEach : Prop :=
  ∀ (s : State) (s1 s2 : Nat), s.present = [s1, s2] →
    ∃ t u, exec .tbuild s = .next t ∧ exec .cgen t = .next u ∧
      t.root = 2#9 ∧ t.nodeCount = 3#10 ∧
      ((t.nodeAt 0).kind = .leaf ∧ (t.nodeAt 0).sym.toNat = s1) ∧ ((t.nodeAt 1).kind = .leaf ∧ (t.nodeAt 1).sym.toNat = s2) ∧
      (t.nodeAt 2).kind = .internal ∧
      ((s.freqAt s1).toNat ≤ (s.freqAt s2).toNat →
        (t.nodeAt 2).left = 0#9 ∧ (t.nodeAt 2).right = 1#9 ∧ u.code s1 = [false] ∧ u.code s2 = [true]) ∧
      ((s.freqAt s2).toNat < (s.freqAt s1).toNat →
        (t.nodeAt 2).left = 1#9 ∧ (t.nodeAt 2).right = 0#9 ∧ u.code s1 = [true] ∧ u.code s2 = [false])

/-- R84(f), R82: the tree is a function of `FREQ` alone. -/
def Obligations.TreeIsAFunctionOfFreq : Prop :=
  ∀ s s' t t' : State, (∀ i, i < 256 → s.freqAt i = s'.freqAt i) → exec .tbuild s = .next t → exec .tbuild s' = .next t' →
    t.err = t'.err ∧ t.errInfo = t'.errInfo ∧ t.tv = t'.tv ∧ t.root = t'.root ∧ t.nodeCount = t'.nodeCount ∧
    (∀ h, h < t.nodeCount.toNat → t.nodeAt h = t'.nodeAt h)

/-! ## CGEN -/

/-- R155, R97: without a valid tree CGEN reports `SEQUENCE` and changes nothing. -/
def Obligations.CgenNeedsATree : Prop :=
  ∀ s : State, s.tv = false → exec .cgen s = .next (s.reported .sequence 0#32)

/-- R96, R97, R98, R99(a), (b): with a valid tree CGEN completes; the code of a leaf is its path from the root, left 0 and right 1, of
length 1 to 255; exactly the symbols of leaves are present; slot bits beyond a code's length are 0; only the code table changes. -/
def Obligations.CgenRecordsThePaths : Prop :=
  ∀ s : State, s.tv = true → s.TreeInv →
    ∃ t, exec .cgen s = .next t ∧ t = { s with ctLen := t.ctLen, ctBits := t.ctBits }.reported .none 0#32 ∧
      (∀ p h, s.descend s.root.toNat p = some h → (s.nodeAt h).kind = .leaf →
        t.code (s.nodeAt h).sym.toNat = p ∧ (t.ctLenAt (s.nodeAt h).sym.toNat).toNat = p.length ∧
          1 ≤ p.length ∧ p.length ≤ 255) ∧
      (∀ sym, sym < 256 → (t.hasCode sym ↔ ∃ h, h < s.leafCount ∧ (s.nodeAt h).sym.toNat = sym)) ∧
      (∀ sym k, sym < 256 → (t.ctLenAt sym).toNat ≤ k → k < 256 → msbFirst (t.ctBitsAt (32 * sym + k / 8)) k = false)

/-- R99(c), (e): the table CGEN leaves is prefix-free, and no two symbols have the same code. -/
def Obligations.CgenTableIsPrefixFree : Prop :=
  ∀ s t : State, s.tv = true → s.TreeInv → exec .cgen s = .next t → t.prefixFree

/-- R99(d): the table CGEN leaves is complete: every bit-string of the greatest present length has exactly one present code as a
prefix. -/
def Obligations.CgenTableIsComplete : Prop :=
  ∀ s t : State, s.tv = true → s.TreeInv → exec .cgen s = .next t →
    ∀ bs : BitString, bs.length = t.lmax →
      ∃ sym, (sym < 256 ∧ t.hasCode sym ∧ t.code sym <+: bs) ∧
        ∀ o, o < 256 ∧ t.hasCode o ∧ t.code o <+: bs → o = sym

/-! ## PACK -/

/-- R106, R108, R109, R44: with a code for every input byte and room for the stream, PACK completes: `BIT_COUNT` is the sum of the code
lengths, `BYTE_COUNT` its number of groups, each byte of `PK` is the value of its group (the last right-aligned under zero bits), and
the stream that `streambit` reads back is the encoded bitstream; later bytes of `PK` and everything else are left alone. -/
def Obligations.PackWritesTheEncodedStream : Prop :=
  ∀ s : State, s.cfg.wf → s.srcLen.toNat ≤ s.cfg.srcMax → (∀ b ∈ s.input, s.hasCode b.toNat) →
    s.encodedStream.length ≤ 8 * s.cfg.pkMax →
    ∃ t, exec .pack s = .next t ∧
      t = { s with pk := t.pk, bitCount := t.bitCount, byteCount := t.byteCount }.reported .none 0#32 ∧
      t.bitCount.toNat = s.encodedStream.length ∧ t.bitCount.toNat = (s.input.map (fun b => (s.ctLenAt b.toNat).toNat)).sum ∧
      t.byteCount.toNat = (t.bitCount.toNat + 7) / 8 ∧
      (∀ q, q < t.byteCount.toNat → (t.pkAt q).toNat = groupValue (group s.encodedStream q)) ∧
      t.stream = s.encodedStream ∧
      (∀ q, t.byteCount.toNat ≤ q → t.pkAt q = s.pkAt q)

/-- R107, R148, R149, R152, R145: PACK's errors in their order. A length over `SRC_MAX` is `CAPACITY(3)`. Otherwise let `i` be the first
input index at which PACK cannot go on: an absent entry there is `INTERNAL_CONSISTENCY(i)`, a code that no longer fits is
`CAPACITY(1)`. The counts are 0, the groups completed before stay written, and nothing else changes. -/
def Obligations.PackErrors : Prop :=
  ∀ s : State, s.cfg.wf →
    (s.cfg.srcMax < s.srcLen.toNat →
      exec .pack s = .next ({ s with bitCount := 0#32, byteCount := 0#32 }.reported .capacity 3#32)) ∧
    (s.srcLen.toNat ≤ s.cfg.srcMax → ∀ i, i < s.srcLen.toNat →
      (∀ b ∈ s.input.take i, s.hasCode b.toNat) → (s.codesOf (s.input.take i)).length ≤ 8 * s.cfg.pkMax →
      (¬ s.hasCode (s.srcAt i).toNat →
        ∃ t, exec .pack s = .next t ∧
          t = { s with pk := t.pk, bitCount := 0#32, byteCount := 0#32 }.reported .internalConsistency (BitVec.ofNat 32 i) ∧
          (∀ q, q < (s.codesOf (s.input.take i)).length / 8 →
            (t.pkAt q).toNat = groupValue (group (s.codesOf (s.input.take i)) q)) ∧
          (∀ q, (s.codesOf (s.input.take i)).length / 8 ≤ q → t.pkAt q = s.pkAt q)) ∧
      (s.hasCode (s.srcAt i).toNat → 8 * s.cfg.pkMax < (s.codesOf (s.input.take (i + 1))).length →
        ∃ t, exec .pack s = .next t ∧
          t = { s with pk := t.pk, bitCount := 0#32, byteCount := 0#32 }.reported .capacity 1#32 ∧
          (∀ q, q < s.cfg.pkMax → (t.pkAt q).toNat = groupValue (group (s.codesOf (s.input.take (i + 1))) q)) ∧
          (∀ q, s.cfg.pkMax ≤ q → t.pkAt q = s.pkAt q)))

/-! ## UNPACK -/

/-- R116: the header checks, in their order, made before any bit is read; `OUT` is not written. -/
def Obligations.UnpackHeaderChecks : Prop :=
  ∀ s : State,
    (s.cfg.pkMax < s.byteCount.toNat → exec .unpack s = .next ({ s with outLen := 0#32 }.reported .capacity 4#32)) ∧
    (s.byteCount.toNat ≤ s.cfg.pkMax → s.byteCount.toNat ≠ (s.bitCount.toNat + 7) / 8 →
      exec .unpack s = .next ({ s with outLen := 0#32 }.reported .malformedContainer 0xFFFFFFFF#32))

/-- R118: the match of a candidate is the least symbol whose length and code equal it, and none when there is none. -/
def Obligations.MatchIsTheLeastSymbol : Prop :=
  ∀ (s : State) (cand : BitString), cand ≠ [] →
    (∀ m, s.matchCode cand = some m ↔
      (m < 256 ∧ (s.ctLenAt m).toNat = cand.length ∧ s.code m = cand) ∧
        ∀ o, o < m → ¬ ((s.ctLenAt o).toNat = cand.length ∧ s.code o = cand)) ∧
    (s.matchCode cand = none ↔ ∀ o, o < 256 → ¬ ((s.ctLenAt o).toNat = cand.length ∧ s.code o = cand)) ∧
    (∀ m, s.matchCode cand = some m → s.hasCode m)

/-- R119, R122, R123: with a prefix-free table, UNPACK completes on any stream that is a concatenation of present codes with room for the
symbols, the empty one included, and gives the symbols back; with any other table (R121) it does so where the symbols are those of
the greedy scan. Later cells of `OUT` and everything else are left alone. -/
def Obligations.UnpackDecodesConcatenatedCodes : Prop :=
  ∀ (s : State) (msg : List Byte), s.cfg.wf → s.byteCount.toNat ≤ s.cfg.pkMax →
    s.byteCount.toNat = (s.bitCount.toNat + 7) / 8 → s.stream = s.codesOf msg →
    (s.prefixFree ∧ ∀ b ∈ msg, s.hasCode b.toNat) ∨ s.emits s.stream msg → msg.length ≤ s.cfg.srcMax →
    ∃ t, exec .unpack s = .next t ∧ t = { s with out := t.out, outLen := t.outLen }.reported .none 0#32 ∧
      t.outLen.toNat = msg.length ∧ (∀ i (hi : i < msg.length), t.outAt i = msg[i]) ∧
      (∀ i, msg.length ≤ i → t.outAt i = s.outAt i)

/-- R118, R119(h), R121, R158: whatever the table, a success of UNPACK is the greedy decoding: each symbol written to `OUT` is the match
(the least symbol) of the first candidate that has one (the shorter code), and their codes, concatenated, are the stream; no bit is
dropped. -/
def Obligations.UnpackSuccessIsADecoding : Prop :=
  ∀ s t : State, s.cfg.wf → exec .unpack s = .next t → t.err = .none →
    t = { s with out := t.out, outLen := t.outLen }.reported .none 0#32 ∧
    s.emits s.stream ((List.range t.outLen.toNat).map t.outAt) ∧
    s.codesOf ((List.range t.outLen.toNat).map t.outAt) = s.stream ∧
    (∀ i, i < t.outLen.toNat → s.hasCode (t.outAt i).toNat) ∧
    (∀ i, t.outLen.toNat ≤ i → t.outAt i = s.outAt i)

/-- R120, R144, R154: when UNPACK reports `MALFORMED_CONTAINER` on agreeing counts, `ERR_INFO` is the index `start` at which decoding
could not go on: the stream before it is the codes of the symbols emitted, and no present code is a prefix of the rest, which is not
empty. R119(f), R142: those symbols stay written in `OUT`, and its later cells are left alone. -/
def Obligations.UnpackMalformedStart : Prop :=
  ∀ s t : State, exec .unpack s = .next t → s.byteCount.toNat = (s.bitCount.toNat + 7) / 8 → t.err = .malformedContainer →
    t = { s with out := t.out, outLen := 0#32 }.reported .malformedContainer t.errInfo ∧
    t.errInfo.toNat < s.bitCount.toNat ∧
    (∃ msg : List Byte, s.codesOf msg = s.stream.take t.errInfo.toNat ∧ s.emits s.stream msg ∧ msg.length ≤ s.cfg.srcMax ∧
      (∀ b ∈ msg, s.hasCode b.toNat) ∧ (∀ k (hk : k < msg.length), t.outAt k = msg[k]) ∧
      (∀ k, msg.length ≤ k → t.outAt k = s.outAt k)) ∧
    (∀ sym, sym < 256 → s.hasCode sym → ¬ s.code sym <+: s.stream.drop t.errInfo.toNat)

/-- R119, R149, R145: UNPACK's `CAPACITY(2)`: with a prefix-free table, a stream that begins with the codes of more than `SRC_MAX` symbols
fills `OUT` and is refused, with `OUT_LEN = 0`; with any table (R121), a stream of which the greedy scan emits more than `SRC_MAX`
symbols. -/
def Obligations.UnpackOutputFull : Prop :=
  ∀ (s : State) (msg : List Byte), s.cfg.wf → s.byteCount.toNat ≤ s.cfg.pkMax →
    s.byteCount.toNat = (s.bitCount.toNat + 7) / 8 →
    (s.prefixFree ∧ (∀ b ∈ msg, s.hasCode b.toNat) ∧ s.codesOf msg <+: s.stream) ∨ s.emits s.stream msg →
    msg.length = s.cfg.srcMax + 1 →
    ∃ t, exec .unpack s = .next t ∧ t = { s with out := t.out, outLen := 0#32 }.reported .capacity 2#32 ∧
      (∀ i (hi : i < msg.length), i < s.cfg.srcMax → t.outAt i = msg[i]) ∧
      (∀ i, s.cfg.srcMax ≤ i → t.outAt i = s.outAt i)

/-- R124: padding invariance: the result of UNPACK does not depend on the padding bits of the last byte, nor on the cells of `PK` beyond
`BYTE_COUNT`. -/
def Obligations.UnpackIgnoresPadding : Prop :=
  ∀ (s t : State) (m : Memory),
    (∀ i, i < s.bitCount.toNat / 8 → State.pkAt { s with pk := m } i = s.pkAt i) →
    (∀ k, k < s.bitCount.toNat % 8 →
      (State.pkAt { s with pk := m } (s.bitCount.toNat / 8)).getLsbD k = (s.pkAt (s.bitCount.toNat / 8)).getLsbD k) →
    exec .unpack s = .next t → exec .unpack { s with pk := m } = .next { t with pk := m }

/-- R23: the bits of a `CT_BITS` slot at or beyond the code's length are don't care: PACK and UNPACK never read them. -/
def Obligations.DontCareBitsAreNotRead : Prop :=
  ∀ (i : Instr) (s t : State) (m : Memory), i = .pack ∨ i = .unpack →
    (∀ sym, sym < 256 → State.code { s with ctBits := m } sym = s.code sym) →
    exec i s = .next t → exec i { s with ctBits := m } = .next { t with ctBits := m }

/-- R107, R115, R175: PACK and UNPACK read neither the tree nor `FREQ` nor `STATUS.TV`, and UNPACK does not read `SRC` or `SRC_LEN`. -/
def Obligations.PackAndUnpackDoNotReadTheTree : Prop :=
  (∀ (s t : State) (n : Table Node) (f : Table Word) (v : Bool) (r : Handle) (c : BitVec 10), exec .pack s = .next t →
    exec .pack { s with node := n, freq := f, tv := v, root := r, nodeCount := c } =
      .next { t with node := n, freq := f, tv := v, root := r, nodeCount := c }) ∧
  (∀ (s t : State) (n : Table Node) (f : Table Word) (v : Bool) (r : Handle) (c : BitVec 10) (m : Memory) (l : Word),
    exec .unpack s = .next t →
    exec .unpack { s with node := n, freq := f, tv := v, root := r, nodeCount := c, src := m, srcLen := l } =
      .next { t with node := n, freq := f, tv := v, root := r, nodeCount := c, src := m, srcLen := l })

/-! ## ENCODE -/

/-- R130, R145, R152: ENCODE's failures before the tree: `CAPACITY(3)` with `FREQ` unchanged, `EMPTY_INPUT` with `FREQ` zero, and
`INSUFFICIENT_ALPHABET(1)` with the one count in `FREQ`; the tree and the counts are dropped, the code table and `PK` are left alone. -/
def Obligations.EncodeEarlyFailures : Prop :=
  ∀ s : State,
    (s.cfg.srcMax < s.srcLen.toNat →
      exec .encode s = .next ((s.dropTree.setCounts 0 0).reported .capacity 3#32)) ∧
    (s.srcLen = 0#32 → exec .encode s = .next ({ s.dropTree.setCounts 0 0 with freq := [] }.reported .emptyInput 0#32)) ∧
    (∀ b : Byte, s.cfg.wf → 0 < s.srcLen.toNat → s.srcLen.toNat ≤ s.cfg.srcMax → (∀ x ∈ s.input, x = b) →
      ∃ t, exec .encode s = .next t ∧
        t = { s.dropTree.setCounts 0 0 with freq := t.freq }.reported .insufficientAlphabet 1#32 ∧
        t.freqAt b.toNat = s.srcLen ∧ ∀ i, i ≠ b.toNat → t.freqAt i = 0#32)

/-- R130, R134: with at least two distinct byte values ENCODE completes: `FREQ`, a valid tree (whose merges are those of R83) and its
code table are the input's. If the stream fits `PK` it succeeds with the packed stream; if not it reports `CAPACITY(1)` with the counts
0, and the bytes packed before that stay written (R107, R142). -/
def Obligations.EncodeCompletes : Prop :=
  ∀ s : State, s.cfg.wf → s.srcLen.toNat ≤ s.cfg.srcMax → (∃ x ∈ s.input, ∃ y ∈ s.input, x ≠ y) →
    ∃ t, exec .encode s = .next t ∧ t.TreeInv ∧ t.MergesTheTwoLeast ∧ t.tv = true ∧ t.prefixFree ∧
      t = { s with
        freq := t.freq, node := t.node, root := t.root, nodeCount := t.nodeCount, tv := true, ctLen := t.ctLen,
        ctBits := t.ctBits, pk := t.pk, bitCount := t.bitCount, byteCount := t.byteCount }.reported t.err t.errInfo ∧
      (∀ b : Byte, (t.freqAt b.toNat).toNat = s.input.count b ∧ (t.hasCode b.toNat ↔ b ∈ s.input)) ∧
      (∀ h, t.nodeCount.toNat ≤ h → t.nodeAt h = s.nodeAt h) ∧
      (t.encodedStream.length ≤ 8 * s.cfg.pkMax →
        t.err = .none ∧ t.errInfo = 0#32 ∧ t.bitCount.toNat = t.encodedStream.length ∧
        t.byteCount.toNat = (t.bitCount.toNat + 7) / 8 ∧ t.stream = t.encodedStream ∧
        (∀ q, q < t.byteCount.toNat → (t.pkAt q).toNat = groupValue (group t.encodedStream q)) ∧
        ∀ q, t.byteCount.toNat ≤ q → t.pkAt q = s.pkAt q) ∧
      (8 * s.cfg.pkMax < t.encodedStream.length →
        t.err = .capacity ∧ t.errInfo = 1#32 ∧ t.bitCount = 0#32 ∧ t.byteCount = 0#32 ∧
        (∀ q, q < s.cfg.pkMax → (t.pkAt q).toNat = groupValue (group t.encodedStream q)) ∧
        ∀ q, s.cfg.pkMax ≤ q → t.pkAt q = s.pkAt q)

/-- R134, R130: a successful ENCODE leaves the state that the four commands FCOUNT, TBUILD, CGEN, PACK run one after the other leave, and
so does one that fails in its PACK stage (the failure that leaves `TV = 1`). -/
def Obligations.EncodeIsItsFourStages : Prop :=
  ∀ s t : State, exec .encode s = .next t → t.err = .none ∨ t.tv = true →
    ∃ a b c, exec .fcount s = .next a ∧ exec .tbuild a = .next b ∧ exec .cgen b = .next c ∧ exec .pack c = .next t

/-- R123: the round trip. After a successful ENCODE, UNPACK, accepted with nothing touched in between, succeeds and gives the input
back. -/
def Obligations.RoundTrip : Prop :=
  ∀ s t : State, s.cfg.wf → exec .encode s = .next t → t.err = .none →
    ∃ u, exec .unpack (t.accept (encode .unpack)) = .next u ∧ u.err = .none ∧ u.outLen = s.srcLen ∧
      ∀ i, i < s.srcLen.toNat → u.outAt i = s.srcAt i

/-! ## All commands -/

/-- R62, R48: what no command but those of its column "writes" changes, from every state. -/
def Obligations.CommandsWriteOnlyTheirResults : Prop :=
  ∀ (i : Instr) (s t : State), exec i s = .next t →
    t.cfg = s.cfg ∧ t.cur = s.cur ∧ t.src = s.src ∧ t.powerOns = s.powerOns ∧ t.host = s.host ∧
    (i ≠ .clear → t.srcLen = s.srcLen) ∧
    (i ∉ [Instr.fcount, .encode, .clear] → t.freq = s.freq) ∧
    (i ∉ [Instr.tbuild, .encode, .clear] →
      t.node = s.node ∧ t.root = s.root ∧ t.nodeCount = s.nodeCount ∧ t.tv = s.tv) ∧
    (i ∉ [Instr.cgen, .encode, .clear] → t.ctLen = s.ctLen ∧ t.ctBits = s.ctBits) ∧
    (i ∉ [Instr.pack, .encode, .clear] → t.bitCount = s.bitCount ∧ t.byteCount = s.byteCount) ∧
    (i ∉ [Instr.pack, .encode] → t.pk = s.pk) ∧
    (i ≠ .unpack → t.out = s.out) ∧
    (i ∉ [Instr.unpack, .clear] → t.outLen = s.outLen)

/-- R145: what a failed command leaves in its result cells. -/
def Obligations.FailuresZeroTheResults : Prop :=
  ∀ (i : Instr) (s t : State), exec i s = .next t → t.err ≠ .none →
    (i = .fcount → (t.err = .capacity ∧ t.freq = s.freq) ∨ (t.err = .emptyInput ∧ ∀ k, t.freqAt k = 0#32)) ∧
    (i = .tbuild → t.tv = false ∧ t.root = 0#9 ∧ t.nodeCount = 0#10 ∧ t.node = s.node) ∧
    (i = .cgen → t.ctLen = s.ctLen ∧ t.ctBits = s.ctBits) ∧
    (i = .pack ∨ i = .encode → t.bitCount = 0#32 ∧ t.byteCount = 0#32) ∧
    (i = .unpack → t.outLen = 0#32) ∧
    (i = .encode → t.tv = false → t.root = 0#9 ∧ t.nodeCount = 0#10 ∧ t.ctLen = s.ctLen ∧ t.ctBits = s.ctBits ∧ t.pk = s.pk)
end

