-- ==== Sys2Proof/Laws/Tables.lean ====
section
/-!
SUPPORT. What the operations on tables and memories do: a read after a write, a write leaves every other cell alone, every write
keeps the canonical form, and equal reads of canonical tables are equal data.
-/

namespace Sys2Proof.Machine

variable {α : Type}

@[simp] theorem Table.find_nil (a : Nat) : Table.find ([] : Table α) a = none := rfl

theorem Table.find_insert_self (t : Table α) (a : Nat) (v : α) : Table.find (Table.insert t a v) a = some v := by
  induction t with
  | nil => simp [Table.insert, Table.find]
  | cons c t ih =>
    obtain ⟨b, w⟩ := c
    simp only [Table.insert]
    split
    · simp [Table.find]
    · split
      · simp [Table.find]
      · rename_i h; simp [Table.find, h, ih]

theorem Table.find_insert_ne (t : Table α) {a b : Nat} (v : α) (h : b ≠ a) :
    Table.find (Table.insert t a v) b = Table.find t b := by
  induction t with
  | nil => simp [Table.insert, Table.find, h]
  | cons c t ih =>
    obtain ⟨k, w⟩ := c
    simp only [Table.insert]
    split
    · simp [Table.find, h]
    · split
      · rename_i hk; subst hk; simp [Table.find, h]
      · simp [Table.find, ih]

theorem Table.find_erase_self (t : Table α) (a : Nat) : Table.find (Table.erase t a) a = none := by
  induction t with
  | nil => rfl
  | cons c t ih =>
    obtain ⟨b, w⟩ := c
    by_cases h : b = a
    · simpa [Table.erase, h] using ih
    · simpa [Table.erase, h, Table.find, Ne.symm h] using ih

theorem Table.find_erase_ne (t : Table α) {a b : Nat} (h : b ≠ a) :
    Table.find (Table.erase t a) b = Table.find t b := by
  induction t with
  | nil => rfl
  | cons c t ih =>
    obtain ⟨k, w⟩ := c
    by_cases hk : k = a
    · subst hk; simpa [Table.erase, Table.find, h] using ih
    · by_cases hb : b = k
      · simp [Table.erase, hk, Table.find, hb]
      · simpa [Table.erase, hk, Table.find, hb] using ih

theorem Table.find_write_ne [DecidableEq α] (d : Option α) (t : Table α) {a b : Nat} (v : α) (h : b ≠ a) :
    Table.find (Table.write d t a v) b = Table.find t b := by
  unfold Table.write
  split
  · exact Table.find_erase_ne t h
  · exact Table.find_insert_ne t v h

/-- A read after a write to the same cell, where an unlisted cell reads as `x`. -/
theorem Table.getD_write_self [DecidableEq α] (x : α) (t : Table α) (a : Nat) (v : α) :
    (Table.find (Table.write (some x) t a v) a).getD x = v := by
  unfold Table.write
  split
  · rename_i h; simp [Table.find_erase_self, Option.some.inj h]
  · simp [Table.find_insert_self]

/-- A read after a write to the same cell of a buffer, where an unlisted cell holds no stored value. -/
theorem Table.find_write_unwritten [DecidableEq α] (t : Table α) (a : Nat) (v : α) :
    Table.find (Table.write none t a v) a = some v := by
  simp [Table.write, Table.find_insert_self]

theorem Table.mem_insert {t : Table α} {a : Nat} {v : α} {c : Nat × α} (h : c ∈ Table.insert t a v) :
    c = (a, v) ∨ c ∈ t := by
  induction t with
  | nil => simpa [Table.insert] using h
  | cons x t ih =>
    obtain ⟨b, w⟩ := x
    simp only [Table.insert] at h
    split at h
    · simpa using h
    · split at h
      · rcases List.mem_cons.1 h with h | h
        · exact .inl h
        · exact .inr (List.mem_cons_of_mem _ h)
      · rcases List.mem_cons.1 h with h | h
        · exact .inr (h ▸ List.mem_cons_self)
        · exact (ih h).imp_right (List.mem_cons_of_mem _)

theorem Table.mem_write [DecidableEq α] {d : Option α} {t : Table α} {a : Nat} {v : α} {c : Nat × α}
    (h : c ∈ Table.write d t a v) : c = (a, v) ∨ c ∈ t := by
  unfold Table.write at h
  split at h
  · exact .inr (List.mem_of_mem_filter h)
  · exact Table.mem_insert h

theorem Table.insert_rising {t : Table α} (ht : t.Pairwise (fun x y => x.1 < y.1)) (a : Nat) (v : α) :
    (Table.insert t a v).Pairwise (fun x y => x.1 < y.1) := by
  induction t with
  | nil => simp [Table.insert]
  | cons x t ih =>
    obtain ⟨b, w⟩ := x
    have hx := List.pairwise_cons.1 ht
    simp only [Table.insert]
    split
    · rename_i hab
      refine List.pairwise_cons.2 ⟨fun c hc => ?_, ht⟩
      rcases List.mem_cons.1 hc with hc | hc
      · exact hc ▸ hab
      · exact Nat.lt_trans hab (hx.1 c hc)
    · split
      · rename_i hab
        exact List.pairwise_cons.2 ⟨fun c hc => hab ▸ hx.1 c hc, hx.2⟩
      · rename_i h1 h2
        refine List.pairwise_cons.2 ⟨fun c hc => ?_, ih hx.2⟩
        rcases Table.mem_insert hc with hc | hc
        · subst hc; show b < a; omega
        · exact hx.1 c hc

/-- Every write keeps the canonical form. -/
theorem Table.write_wf [DecidableEq α] {d : Option α} {t : Table α} (ht : Table.wf d t) (a : Nat) (v : α) :
    Table.wf d (Table.write d t a v) := by
  unfold Table.write
  split
  · exact ⟨ht.1.filter _, fun c hc => ht.2 c (List.mem_of_mem_filter hc)⟩
  · rename_i hv
    refine ⟨Table.insert_rising ht.1 a v, fun c hc => ?_⟩
    rcases Table.mem_insert hc with hc | hc
    · exact hc ▸ hv
    · exact ht.2 c hc

/-- Every write to a cell the space has keeps the listed cells within the space. -/
theorem Table.write_below [DecidableEq α] {d : Option α} {n : Nat} {t : Table α} (ht : Table.below n t) {a : Nat} (ha : a < n)
    (v : α) : Table.below n (Table.write d t a v) := fun c hc =>
  (Table.mem_write hc).elim (fun h => h ▸ ha) (ht c)

theorem Table.find_of_below {n : Nat} {t : Table α} (ht : Table.below n t) {a : Nat} (ha : n ≤ a) : Table.find t a = none := by
  induction t with
  | nil => rfl
  | cons x t ih =>
    obtain ⟨b, w⟩ := x
    have hb : b < n := ht (b, w) List.mem_cons_self
    have : a ≠ b := by omega
    simp only [Table.find, this, if_false]
    exact ih fun c hc => ht c (List.mem_cons_of_mem _ hc)

theorem Table.find_of_rising {t : Table α} {a : Nat} (h : ∀ c ∈ t, a < c.1) : Table.find t a = none := by
  induction t with
  | nil => rfl
  | cons x t ih =>
    obtain ⟨b, w⟩ := x
    have hb : a < b := h (b, w) List.mem_cons_self
    have : a ≠ b := by omega
    simp only [Table.find, this, if_false]
    exact ih fun c hc => h c (List.mem_cons_of_mem _ hc)

/-- Canonical tables that read alike are equal: equal memories are equal data. -/
theorem Table.ext_of_rising {t u : Table α} (ht : t.Pairwise (fun x y => x.1 < y.1)) (hu : u.Pairwise (fun x y => x.1 < y.1))
    (h : ∀ a, Table.find t a = Table.find u a) : t = u := by
  induction t generalizing u with
  | nil =>
    cases u with
    | nil => rfl
    | cons x u => have := h x.1; simp [Table.find] at this
  | cons x t ih =>
    cases u with
    | nil => have := h x.1; simp [Table.find] at this
    | cons y u =>
      obtain ⟨a, v⟩ := x
      obtain ⟨b, w⟩ := y
      have hx := List.pairwise_cons.1 ht
      have hy := List.pairwise_cons.1 hu
      have key : a = b := by
        rcases Nat.lt_trichotomy a b with hab | hab | hab
        · have := h a
          rw [Table.find_of_rising (t := (b, w) :: u)] at this
          · simp [Table.find] at this
          · intro c hc
            rcases List.mem_cons.1 hc with hc | hc
            · exact hc ▸ hab
            · exact Nat.lt_trans hab (hy.1 c hc)
        · exact hab
        · have := h b
          rw [Table.find_of_rising (t := (a, v) :: t)] at this
          · simp [Table.find] at this
          · intro c hc
            rcases List.mem_cons.1 hc with hc | hc
            · exact hc ▸ hab
            · exact Nat.lt_trans hab (hx.1 c hc)
      subst key
      have hv : v = w := by simpa [Table.find] using h a
      subst hv
      congr 1
      refine ih hx.2 hy.2 fun k => ?_
      by_cases hk : k = a
      · subst hk
        rw [Table.find_of_rising hx.1, Table.find_of_rising hy.1]
      · simpa [Table.find, hk] using h k

end Sys2Proof.Machine
end

