-- ==== Sys2Proof/Laws/State.lean ====
section
/-!
SUPPORT. What each update of State leaves in each field, and what each reader of State makes of it; true by unfolding.
-/

namespace Sys2Proof.Machine

variable (s : State)

@[simp] theorem State.finish_cfg (e : Option CmdError) : (s.finish e).cfg = s.cfg := rfl
@[simp] theorem State.finish_busy (e : Option CmdError) : (s.finish e).busy = false := rfl
@[simp] theorem State.finish_done (e : Option CmdError) : (s.finish e).done = true := rfl
@[simp] theorem State.finish_tv (e : Option CmdError) : (s.finish e).tv = s.tv := rfl
@[simp] theorem State.finish_err (e : Option CmdError) : (s.finish e).err = resultCode e := rfl
@[simp] theorem State.finish_cur (e : Option CmdError) : (s.finish e).cur = s.cur := rfl
@[simp] theorem State.finish_errInfo (e : Option CmdError) : (s.finish e).errInfo = resultInfo e := rfl
@[simp] theorem State.finish_srcLen (e : Option CmdError) : (s.finish e).srcLen = s.srcLen := rfl
@[simp] theorem State.finish_byteCount (e : Option CmdError) : (s.finish e).byteCount = s.byteCount := rfl
@[simp] theorem State.finish_bitCount (e : Option CmdError) : (s.finish e).bitCount = s.bitCount := rfl
@[simp] theorem State.finish_outLen (e : Option CmdError) : (s.finish e).outLen = s.outLen := rfl
@[simp] theorem State.finish_root (e : Option CmdError) : (s.finish e).root = s.root := rfl
@[simp] theorem State.finish_nodeCount (e : Option CmdError) : (s.finish e).nodeCount = s.nodeCount := rfl
@[simp] theorem State.finish_freq (e : Option CmdError) : (s.finish e).freq = s.freq := rfl
@[simp] theorem State.finish_ctLen (e : Option CmdError) : (s.finish e).ctLen = s.ctLen := rfl
@[simp] theorem State.finish_ctBits (e : Option CmdError) : (s.finish e).ctBits = s.ctBits := rfl
@[simp] theorem State.finish_node (e : Option CmdError) : (s.finish e).node = s.node := rfl
@[simp] theorem State.finish_src (e : Option CmdError) : (s.finish e).src = s.src := rfl
@[simp] theorem State.finish_pk (e : Option CmdError) : (s.finish e).pk = s.pk := rfl
@[simp] theorem State.finish_out (e : Option CmdError) : (s.finish e).out = s.out := rfl
@[simp] theorem State.finish_powerOns (e : Option CmdError) : (s.finish e).powerOns = s.powerOns := rfl
@[simp] theorem State.finish_host (e : Option CmdError) : (s.finish e).host = s.host := rfl
@[simp] theorem State.finish_freqAt (e : Option CmdError) (j : Nat) : (s.finish e).freqAt j = s.freqAt j := rfl
@[simp] theorem State.finish_ctLenAt (e : Option CmdError) (j : Nat) : (s.finish e).ctLenAt j = s.ctLenAt j := rfl
@[simp] theorem State.finish_ctBitsAt (e : Option CmdError) (j : Nat) : (s.finish e).ctBitsAt j = s.ctBitsAt j := rfl
@[simp] theorem State.finish_nodeAt (e : Option CmdError) (j : Nat) : (s.finish e).nodeAt j = s.nodeAt j := rfl
@[simp] theorem State.finish_srcAt (e : Option CmdError) (j : Nat) : (s.finish e).srcAt j = s.srcAt j := rfl
@[simp] theorem State.finish_pkAt (e : Option CmdError) (j : Nat) : (s.finish e).pkAt j = s.pkAt j := rfl
@[simp] theorem State.finish_outAt (e : Option CmdError) (j : Nat) : (s.finish e).outAt j = s.outAt j := rfl
@[simp] theorem State.finish_input (e : Option CmdError) : (s.finish e).input = s.input := rfl
@[simp] theorem State.finish_code (e : Option CmdError) (j : Nat) : (s.finish e).code j = s.code j := rfl
@[simp] theorem State.finish_stream (e : Option CmdError) : (s.finish e).stream = s.stream := rfl
@[simp] theorem State.finish_lmax (e : Option CmdError) : (s.finish e).lmax = s.lmax := rfl
@[simp] theorem State.finish_matchCode (e : Option CmdError) (c : BitString) : (s.finish e).matchCode c = s.matchCode c := rfl
@[simp] theorem State.finish_present (e : Option CmdError) : (s.finish e).present = s.present := rfl

@[simp] theorem State.reported_cfg (e : ErrCode) (i : Word) : (s.reported e i).cfg = s.cfg := rfl
@[simp] theorem State.reported_busy (e : ErrCode) (i : Word) : (s.reported e i).busy = false := rfl
@[simp] theorem State.reported_done (e : ErrCode) (i : Word) : (s.reported e i).done = true := rfl
@[simp] theorem State.reported_tv (e : ErrCode) (i : Word) : (s.reported e i).tv = s.tv := rfl
@[simp] theorem State.reported_err (e : ErrCode) (i : Word) : (s.reported e i).err = e := rfl
@[simp] theorem State.reported_cur (e : ErrCode) (i : Word) : (s.reported e i).cur = s.cur := rfl
@[simp] theorem State.reported_errInfo (e : ErrCode) (i : Word) : (s.reported e i).errInfo = i := rfl
@[simp] theorem State.reported_srcLen (e : ErrCode) (i : Word) : (s.reported e i).srcLen = s.srcLen := rfl
@[simp] theorem State.reported_byteCount (e : ErrCode) (i : Word) : (s.reported e i).byteCount = s.byteCount := rfl
@[simp] theorem State.reported_bitCount (e : ErrCode) (i : Word) : (s.reported e i).bitCount = s.bitCount := rfl
@[simp] theorem State.reported_outLen (e : ErrCode) (i : Word) : (s.reported e i).outLen = s.outLen := rfl
@[simp] theorem State.reported_root (e : ErrCode) (i : Word) : (s.reported e i).root = s.root := rfl
@[simp] theorem State.reported_nodeCount (e : ErrCode) (i : Word) : (s.reported e i).nodeCount = s.nodeCount := rfl
@[simp] theorem State.reported_freq (e : ErrCode) (i : Word) : (s.reported e i).freq = s.freq := rfl
@[simp] theorem State.reported_ctLen (e : ErrCode) (i : Word) : (s.reported e i).ctLen = s.ctLen := rfl
@[simp] theorem State.reported_ctBits (e : ErrCode) (i : Word) : (s.reported e i).ctBits = s.ctBits := rfl
@[simp] theorem State.reported_node (e : ErrCode) (i : Word) : (s.reported e i).node = s.node := rfl
@[simp] theorem State.reported_src (e : ErrCode) (i : Word) : (s.reported e i).src = s.src := rfl
@[simp] theorem State.reported_pk (e : ErrCode) (i : Word) : (s.reported e i).pk = s.pk := rfl
@[simp] theorem State.reported_out (e : ErrCode) (i : Word) : (s.reported e i).out = s.out := rfl
@[simp] theorem State.reported_powerOns (e : ErrCode) (i : Word) : (s.reported e i).powerOns = s.powerOns := rfl
@[simp] theorem State.reported_host (e : ErrCode) (i : Word) : (s.reported e i).host = s.host := rfl
@[simp] theorem State.reported_freqAt (e : ErrCode) (i : Word) (j : Nat) : (s.reported e i).freqAt j = s.freqAt j := rfl
@[simp] theorem State.reported_ctLenAt (e : ErrCode) (i : Word) (j : Nat) : (s.reported e i).ctLenAt j = s.ctLenAt j := rfl
@[simp] theorem State.reported_ctBitsAt (e : ErrCode) (i : Word) (j : Nat) : (s.reported e i).ctBitsAt j = s.ctBitsAt j := rfl
@[simp] theorem State.reported_nodeAt (e : ErrCode) (i : Word) (j : Nat) : (s.reported e i).nodeAt j = s.nodeAt j := rfl
@[simp] theorem State.reported_srcAt (e : ErrCode) (i : Word) (j : Nat) : (s.reported e i).srcAt j = s.srcAt j := rfl
@[simp] theorem State.reported_pkAt (e : ErrCode) (i : Word) (j : Nat) : (s.reported e i).pkAt j = s.pkAt j := rfl
@[simp] theorem State.reported_outAt (e : ErrCode) (i : Word) (j : Nat) : (s.reported e i).outAt j = s.outAt j := rfl
@[simp] theorem State.reported_input (e : ErrCode) (i : Word) : (s.reported e i).input = s.input := rfl
@[simp] theorem State.reported_code (e : ErrCode) (i : Word) (j : Nat) : (s.reported e i).code j = s.code j := rfl
@[simp] theorem State.reported_stream (e : ErrCode) (i : Word) : (s.reported e i).stream = s.stream := rfl
@[simp] theorem State.reported_lmax (e : ErrCode) (i : Word) : (s.reported e i).lmax = s.lmax := rfl
@[simp] theorem State.reported_matchCode (e : ErrCode) (i : Word) (c : BitString) : (s.reported e i).matchCode c = s.matchCode c := rfl
@[simp] theorem State.reported_present (e : ErrCode) (i : Word) : (s.reported e i).present = s.present := rfl

@[simp] theorem State.accept_cfg (w : Word) : (s.accept w).cfg = s.cfg := rfl
@[simp] theorem State.accept_busy (w : Word) : (s.accept w).busy = true := rfl
@[simp] theorem State.accept_done (w : Word) : (s.accept w).done = false := rfl
@[simp] theorem State.accept_tv (w : Word) : (s.accept w).tv = s.tv := rfl
@[simp] theorem State.accept_err (w : Word) : (s.accept w).err = ErrCode.none := rfl
@[simp] theorem State.accept_cur (w : Word) : (s.accept w).cur = w := rfl
@[simp] theorem State.accept_errInfo (w : Word) : (s.accept w).errInfo = s.errInfo := rfl
@[simp] theorem State.accept_srcLen (w : Word) : (s.accept w).srcLen = s.srcLen := rfl
@[simp] theorem State.accept_byteCount (w : Word) : (s.accept w).byteCount = s.byteCount := rfl
@[simp] theorem State.accept_bitCount (w : Word) : (s.accept w).bitCount = s.bitCount := rfl
@[simp] theorem State.accept_outLen (w : Word) : (s.accept w).outLen = s.outLen := rfl
@[simp] theorem State.accept_root (w : Word) : (s.accept w).root = s.root := rfl
@[simp] theorem State.accept_nodeCount (w : Word) : (s.accept w).nodeCount = s.nodeCount := rfl
@[simp] theorem State.accept_freq (w : Word) : (s.accept w).freq = s.freq := rfl
@[simp] theorem State.accept_ctLen (w : Word) : (s.accept w).ctLen = s.ctLen := rfl
@[simp] theorem State.accept_ctBits (w : Word) : (s.accept w).ctBits = s.ctBits := rfl
@[simp] theorem State.accept_node (w : Word) : (s.accept w).node = s.node := rfl
@[simp] theorem State.accept_src (w : Word) : (s.accept w).src = s.src := rfl
@[simp] theorem State.accept_pk (w : Word) : (s.accept w).pk = s.pk := rfl
@[simp] theorem State.accept_out (w : Word) : (s.accept w).out = s.out := rfl
@[simp] theorem State.accept_powerOns (w : Word) : (s.accept w).powerOns = s.powerOns := rfl
@[simp] theorem State.accept_host (w : Word) : (s.accept w).host = { s.host with delay := s.host.delays.headD 0, delays := s.host.delays.tail } := rfl
@[simp] theorem State.accept_freqAt (w : Word) (j : Nat) : (s.accept w).freqAt j = s.freqAt j := rfl
@[simp] theorem State.accept_ctLenAt (w : Word) (j : Nat) : (s.accept w).ctLenAt j = s.ctLenAt j := rfl
@[simp] theorem State.accept_ctBitsAt (w : Word) (j : Nat) : (s.accept w).ctBitsAt j = s.ctBitsAt j := rfl
@[simp] theorem State.accept_nodeAt (w : Word) (j : Nat) : (s.accept w).nodeAt j = s.nodeAt j := rfl
@[simp] theorem State.accept_srcAt (w : Word) (j : Nat) : (s.accept w).srcAt j = s.srcAt j := rfl
@[simp] theorem State.accept_pkAt (w : Word) (j : Nat) : (s.accept w).pkAt j = s.pkAt j := rfl
@[simp] theorem State.accept_outAt (w : Word) (j : Nat) : (s.accept w).outAt j = s.outAt j := rfl
@[simp] theorem State.accept_input (w : Word) : (s.accept w).input = s.input := rfl
@[simp] theorem State.accept_code (w : Word) (j : Nat) : (s.accept w).code j = s.code j := rfl
@[simp] theorem State.accept_stream (w : Word) : (s.accept w).stream = s.stream := rfl
@[simp] theorem State.accept_lmax (w : Word) : (s.accept w).lmax = s.lmax := rfl
@[simp] theorem State.accept_matchCode (w : Word) (c : BitString) : (s.accept w).matchCode c = s.matchCode c := rfl
@[simp] theorem State.accept_present (w : Word) : (s.accept w).present = s.present := rfl

@[simp] theorem State.dropTree_cfg : s.dropTree.cfg = s.cfg := rfl
@[simp] theorem State.dropTree_busy : s.dropTree.busy = s.busy := rfl
@[simp] theorem State.dropTree_done : s.dropTree.done = s.done := rfl
@[simp] theorem State.dropTree_tv : s.dropTree.tv = false := rfl
@[simp] theorem State.dropTree_err : s.dropTree.err = s.err := rfl
@[simp] theorem State.dropTree_cur : s.dropTree.cur = s.cur := rfl
@[simp] theorem State.dropTree_errInfo : s.dropTree.errInfo = s.errInfo := rfl
@[simp] theorem State.dropTree_srcLen : s.dropTree.srcLen = s.srcLen := rfl
@[simp] theorem State.dropTree_byteCount : s.dropTree.byteCount = s.byteCount := rfl
@[simp] theorem State.dropTree_bitCount : s.dropTree.bitCount = s.bitCount := rfl
@[simp] theorem State.dropTree_outLen : s.dropTree.outLen = s.outLen := rfl
@[simp] theorem State.dropTree_root : s.dropTree.root = 0#9 := rfl
@[simp] theorem State.dropTree_nodeCount : s.dropTree.nodeCount = 0#10 := rfl
@[simp] theorem State.dropTree_freq : s.dropTree.freq = s.freq := rfl
@[simp] theorem State.dropTree_ctLen : s.dropTree.ctLen = s.ctLen := rfl
@[simp] theorem State.dropTree_ctBits : s.dropTree.ctBits = s.ctBits := rfl
@[simp] theorem State.dropTree_node : s.dropTree.node = s.node := rfl
@[simp] theorem State.dropTree_src : s.dropTree.src = s.src := rfl
@[simp] theorem State.dropTree_pk : s.dropTree.pk = s.pk := rfl
@[simp] theorem State.dropTree_out : s.dropTree.out = s.out := rfl
@[simp] theorem State.dropTree_powerOns : s.dropTree.powerOns = s.powerOns := rfl
@[simp] theorem State.dropTree_host : s.dropTree.host = s.host := rfl
@[simp] theorem State.dropTree_freqAt (j : Nat) : s.dropTree.freqAt j = s.freqAt j := rfl
@[simp] theorem State.dropTree_ctLenAt (j : Nat) : s.dropTree.ctLenAt j = s.ctLenAt j := rfl
@[simp] theorem State.dropTree_ctBitsAt (j : Nat) : s.dropTree.ctBitsAt j = s.ctBitsAt j := rfl
@[simp] theorem State.dropTree_nodeAt (j : Nat) : s.dropTree.nodeAt j = s.nodeAt j := rfl
@[simp] theorem State.dropTree_srcAt (j : Nat) : s.dropTree.srcAt j = s.srcAt j := rfl
@[simp] theorem State.dropTree_pkAt (j : Nat) : s.dropTree.pkAt j = s.pkAt j := rfl
@[simp] theorem State.dropTree_outAt (j : Nat) : s.dropTree.outAt j = s.outAt j := rfl
@[simp] theorem State.dropTree_input : s.dropTree.input = s.input := rfl
@[simp] theorem State.dropTree_code (j : Nat) : s.dropTree.code j = s.code j := rfl
@[simp] theorem State.dropTree_stream : s.dropTree.stream = s.stream := rfl
@[simp] theorem State.dropTree_lmax : s.dropTree.lmax = s.lmax := rfl
@[simp] theorem State.dropTree_matchCode (c : BitString) : s.dropTree.matchCode c = s.matchCode c := rfl
@[simp] theorem State.dropTree_present : s.dropTree.present = s.present := rfl

@[simp] theorem State.setTree_cfg (r : Handle) (n : Nat) : (s.setTree r n).cfg = s.cfg := rfl
@[simp] theorem State.setTree_busy (r : Handle) (n : Nat) : (s.setTree r n).busy = s.busy := rfl
@[simp] theorem State.setTree_done (r : Handle) (n : Nat) : (s.setTree r n).done = s.done := rfl
@[simp] theorem State.setTree_tv (r : Handle) (n : Nat) : (s.setTree r n).tv = true := rfl
@[simp] theorem State.setTree_err (r : Handle) (n : Nat) : (s.setTree r n).err = s.err := rfl
@[simp] theorem State.setTree_cur (r : Handle) (n : Nat) : (s.setTree r n).cur = s.cur := rfl
@[simp] theorem State.setTree_errInfo (r : Handle) (n : Nat) : (s.setTree r n).errInfo = s.errInfo := rfl
@[simp] theorem State.setTree_srcLen (r : Handle) (n : Nat) : (s.setTree r n).srcLen = s.srcLen := rfl
@[simp] theorem State.setTree_byteCount (r : Handle) (n : Nat) : (s.setTree r n).byteCount = s.byteCount := rfl
@[simp] theorem State.setTree_bitCount (r : Handle) (n : Nat) : (s.setTree r n).bitCount = s.bitCount := rfl
@[simp] theorem State.setTree_outLen (r : Handle) (n : Nat) : (s.setTree r n).outLen = s.outLen := rfl
@[simp] theorem State.setTree_root (r : Handle) (n : Nat) : (s.setTree r n).root = r := rfl
@[simp] theorem State.setTree_nodeCount (r : Handle) (n : Nat) : (s.setTree r n).nodeCount = BitVec.ofNat 10 n := rfl
@[simp] theorem State.setTree_freq (r : Handle) (n : Nat) : (s.setTree r n).freq = s.freq := rfl
@[simp] theorem State.setTree_ctLen (r : Handle) (n : Nat) : (s.setTree r n).ctLen = s.ctLen := rfl
@[simp] theorem State.setTree_ctBits (r : Handle) (n : Nat) : (s.setTree r n).ctBits = s.ctBits := rfl
@[simp] theorem State.setTree_node (r : Handle) (n : Nat) : (s.setTree r n).node = s.node := rfl
@[simp] theorem State.setTree_src (r : Handle) (n : Nat) : (s.setTree r n).src = s.src := rfl
@[simp] theorem State.setTree_pk (r : Handle) (n : Nat) : (s.setTree r n).pk = s.pk := rfl
@[simp] theorem State.setTree_out (r : Handle) (n : Nat) : (s.setTree r n).out = s.out := rfl
@[simp] theorem State.setTree_powerOns (r : Handle) (n : Nat) : (s.setTree r n).powerOns = s.powerOns := rfl
@[simp] theorem State.setTree_host (r : Handle) (n : Nat) : (s.setTree r n).host = s.host := rfl
@[simp] theorem State.setTree_freqAt (r : Handle) (n : Nat) (j : Nat) : (s.setTree r n).freqAt j = s.freqAt j := rfl
@[simp] theorem State.setTree_ctLenAt (r : Handle) (n : Nat) (j : Nat) : (s.setTree r n).ctLenAt j = s.ctLenAt j := rfl
@[simp] theorem State.setTree_ctBitsAt (r : Handle) (n : Nat) (j : Nat) : (s.setTree r n).ctBitsAt j = s.ctBitsAt j := rfl
@[simp] theorem State.setTree_nodeAt (r : Handle) (n : Nat) (j : Nat) : (s.setTree r n).nodeAt j = s.nodeAt j := rfl
@[simp] theorem State.setTree_srcAt (r : Handle) (n : Nat) (j : Nat) : (s.setTree r n).srcAt j = s.srcAt j := rfl
@[simp] theorem State.setTree_pkAt (r : Handle) (n : Nat) (j : Nat) : (s.setTree r n).pkAt j = s.pkAt j := rfl
@[simp] theorem State.setTree_outAt (r : Handle) (n : Nat) (j : Nat) : (s.setTree r n).outAt j = s.outAt j := rfl
@[simp] theorem State.setTree_input (r : Handle) (n : Nat) : (s.setTree r n).input = s.input := rfl
@[simp] theorem State.setTree_code (r : Handle) (n : Nat) (j : Nat) : (s.setTree r n).code j = s.code j := rfl
@[simp] theorem State.setTree_stream (r : Handle) (n : Nat) : (s.setTree r n).stream = s.stream := rfl
@[simp] theorem State.setTree_lmax (r : Handle) (n : Nat) : (s.setTree r n).lmax = s.lmax := rfl
@[simp] theorem State.setTree_matchCode (r : Handle) (n : Nat) (c : BitString) : (s.setTree r n).matchCode c = s.matchCode c := rfl
@[simp] theorem State.setTree_present (r : Handle) (n : Nat) : (s.setTree r n).present = s.present := rfl

@[simp] theorem State.setCounts_cfg (a b : Nat) : (s.setCounts a b).cfg = s.cfg := rfl
@[simp] theorem State.setCounts_busy (a b : Nat) : (s.setCounts a b).busy = s.busy := rfl
@[simp] theorem State.setCounts_done (a b : Nat) : (s.setCounts a b).done = s.done := rfl
@[simp] theorem State.setCounts_tv (a b : Nat) : (s.setCounts a b).tv = s.tv := rfl
@[simp] theorem State.setCounts_err (a b : Nat) : (s.setCounts a b).err = s.err := rfl
@[simp] theorem State.setCounts_cur (a b : Nat) : (s.setCounts a b).cur = s.cur := rfl
@[simp] theorem State.setCounts_errInfo (a b : Nat) : (s.setCounts a b).errInfo = s.errInfo := rfl
@[simp] theorem State.setCounts_srcLen (a b : Nat) : (s.setCounts a b).srcLen = s.srcLen := rfl
@[simp] theorem State.setCounts_byteCount (a b : Nat) : (s.setCounts a b).byteCount = BitVec.ofNat 32 b := rfl
@[simp] theorem State.setCounts_bitCount (a b : Nat) : (s.setCounts a b).bitCount = BitVec.ofNat 32 a := rfl
@[simp] theorem State.setCounts_outLen (a b : Nat) : (s.setCounts a b).outLen = s.outLen := rfl
@[simp] theorem State.setCounts_root (a b : Nat) : (s.setCounts a b).root = s.root := rfl
@[simp] theorem State.setCounts_nodeCount (a b : Nat) : (s.setCounts a b).nodeCount = s.nodeCount := rfl
@[simp] theorem State.setCounts_freq (a b : Nat) : (s.setCounts a b).freq = s.freq := rfl
@[simp] theorem State.setCounts_ctLen (a b : Nat) : (s.setCounts a b).ctLen = s.ctLen := rfl
@[simp] theorem State.setCounts_ctBits (a b : Nat) : (s.setCounts a b).ctBits = s.ctBits := rfl
@[simp] theorem State.setCounts_node (a b : Nat) : (s.setCounts a b).node = s.node := rfl
@[simp] theorem State.setCounts_src (a b : Nat) : (s.setCounts a b).src = s.src := rfl
@[simp] theorem State.setCounts_pk (a b : Nat) : (s.setCounts a b).pk = s.pk := rfl
@[simp] theorem State.setCounts_out (a b : Nat) : (s.setCounts a b).out = s.out := rfl
@[simp] theorem State.setCounts_powerOns (a b : Nat) : (s.setCounts a b).powerOns = s.powerOns := rfl
@[simp] theorem State.setCounts_host (a b : Nat) : (s.setCounts a b).host = s.host := rfl
@[simp] theorem State.setCounts_freqAt (a b : Nat) (j : Nat) : (s.setCounts a b).freqAt j = s.freqAt j := rfl
@[simp] theorem State.setCounts_ctLenAt (a b : Nat) (j : Nat) : (s.setCounts a b).ctLenAt j = s.ctLenAt j := rfl
@[simp] theorem State.setCounts_ctBitsAt (a b : Nat) (j : Nat) : (s.setCounts a b).ctBitsAt j = s.ctBitsAt j := rfl
@[simp] theorem State.setCounts_nodeAt (a b : Nat) (j : Nat) : (s.setCounts a b).nodeAt j = s.nodeAt j := rfl
@[simp] theorem State.setCounts_srcAt (a b : Nat) (j : Nat) : (s.setCounts a b).srcAt j = s.srcAt j := rfl
@[simp] theorem State.setCounts_pkAt (a b : Nat) (j : Nat) : (s.setCounts a b).pkAt j = s.pkAt j := rfl
@[simp] theorem State.setCounts_outAt (a b : Nat) (j : Nat) : (s.setCounts a b).outAt j = s.outAt j := rfl
@[simp] theorem State.setCounts_input (a b : Nat) : (s.setCounts a b).input = s.input := rfl
@[simp] theorem State.setCounts_code (a b : Nat) (j : Nat) : (s.setCounts a b).code j = s.code j := rfl
@[simp] theorem State.setCounts_lmax (a b : Nat) : (s.setCounts a b).lmax = s.lmax := rfl
@[simp] theorem State.setCounts_matchCode (a b : Nat) (c : BitString) : (s.setCounts a b).matchCode c = s.matchCode c := rfl
@[simp] theorem State.setCounts_present (a b : Nat) : (s.setCounts a b).present = s.present := rfl

@[simp] theorem State.setOutLen_cfg (n : Nat) : (s.setOutLen n).cfg = s.cfg := rfl
@[simp] theorem State.setOutLen_busy (n : Nat) : (s.setOutLen n).busy = s.busy := rfl
@[simp] theorem State.setOutLen_done (n : Nat) : (s.setOutLen n).done = s.done := rfl
@[simp] theorem State.setOutLen_tv (n : Nat) : (s.setOutLen n).tv = s.tv := rfl
@[simp] theorem State.setOutLen_err (n : Nat) : (s.setOutLen n).err = s.err := rfl
@[simp] theorem State.setOutLen_cur (n : Nat) : (s.setOutLen n).cur = s.cur := rfl
@[simp] theorem State.setOutLen_errInfo (n : Nat) : (s.setOutLen n).errInfo = s.errInfo := rfl
@[simp] theorem State.setOutLen_srcLen (n : Nat) : (s.setOutLen n).srcLen = s.srcLen := rfl
@[simp] theorem State.setOutLen_byteCount (n : Nat) : (s.setOutLen n).byteCount = s.byteCount := rfl
@[simp] theorem State.setOutLen_bitCount (n : Nat) : (s.setOutLen n).bitCount = s.bitCount := rfl
@[simp] theorem State.setOutLen_outLen (n : Nat) : (s.setOutLen n).outLen = BitVec.ofNat 32 n := rfl
@[simp] theorem State.setOutLen_root (n : Nat) : (s.setOutLen n).root = s.root := rfl
@[simp] theorem State.setOutLen_nodeCount (n : Nat) : (s.setOutLen n).nodeCount = s.nodeCount := rfl
@[simp] theorem State.setOutLen_freq (n : Nat) : (s.setOutLen n).freq = s.freq := rfl
@[simp] theorem State.setOutLen_ctLen (n : Nat) : (s.setOutLen n).ctLen = s.ctLen := rfl
@[simp] theorem State.setOutLen_ctBits (n : Nat) : (s.setOutLen n).ctBits = s.ctBits := rfl
@[simp] theorem State.setOutLen_node (n : Nat) : (s.setOutLen n).node = s.node := rfl
@[simp] theorem State.setOutLen_src (n : Nat) : (s.setOutLen n).src = s.src := rfl
@[simp] theorem State.setOutLen_pk (n : Nat) : (s.setOutLen n).pk = s.pk := rfl
@[simp] theorem State.setOutLen_out (n : Nat) : (s.setOutLen n).out = s.out := rfl
@[simp] theorem State.setOutLen_powerOns (n : Nat) : (s.setOutLen n).powerOns = s.powerOns := rfl
@[simp] theorem State.setOutLen_host (n : Nat) : (s.setOutLen n).host = s.host := rfl
@[simp] theorem State.setOutLen_freqAt (n : Nat) (j : Nat) : (s.setOutLen n).freqAt j = s.freqAt j := rfl
@[simp] theorem State.setOutLen_ctLenAt (n : Nat) (j : Nat) : (s.setOutLen n).ctLenAt j = s.ctLenAt j := rfl
@[simp] theorem State.setOutLen_ctBitsAt (n : Nat) (j : Nat) : (s.setOutLen n).ctBitsAt j = s.ctBitsAt j := rfl
@[simp] theorem State.setOutLen_nodeAt (n : Nat) (j : Nat) : (s.setOutLen n).nodeAt j = s.nodeAt j := rfl
@[simp] theorem State.setOutLen_srcAt (n : Nat) (j : Nat) : (s.setOutLen n).srcAt j = s.srcAt j := rfl
@[simp] theorem State.setOutLen_pkAt (n : Nat) (j : Nat) : (s.setOutLen n).pkAt j = s.pkAt j := rfl
@[simp] theorem State.setOutLen_outAt (n : Nat) (j : Nat) : (s.setOutLen n).outAt j = s.outAt j := rfl
@[simp] theorem State.setOutLen_input (n : Nat) : (s.setOutLen n).input = s.input := rfl
@[simp] theorem State.setOutLen_code (n : Nat) (j : Nat) : (s.setOutLen n).code j = s.code j := rfl
@[simp] theorem State.setOutLen_stream (n : Nat) : (s.setOutLen n).stream = s.stream := rfl
@[simp] theorem State.setOutLen_lmax (n : Nat) : (s.setOutLen n).lmax = s.lmax := rfl
@[simp] theorem State.setOutLen_matchCode (n : Nat) (c : BitString) : (s.setOutLen n).matchCode c = s.matchCode c := rfl
@[simp] theorem State.setOutLen_present (n : Nat) : (s.setOutLen n).present = s.present := rfl

@[simp] theorem State.zeroFreq_cfg : s.zeroFreq.cfg = s.cfg := rfl
@[simp] theorem State.zeroFreq_busy : s.zeroFreq.busy = s.busy := rfl
@[simp] theorem State.zeroFreq_done : s.zeroFreq.done = s.done := rfl
@[simp] theorem State.zeroFreq_tv : s.zeroFreq.tv = s.tv := rfl
@[simp] theorem State.zeroFreq_err : s.zeroFreq.err = s.err := rfl
@[simp] theorem State.zeroFreq_cur : s.zeroFreq.cur = s.cur := rfl
@[simp] theorem State.zeroFreq_errInfo : s.zeroFreq.errInfo = s.errInfo := rfl
@[simp] theorem State.zeroFreq_srcLen : s.zeroFreq.srcLen = s.srcLen := rfl
@[simp] theorem State.zeroFreq_byteCount : s.zeroFreq.byteCount = s.byteCount := rfl
@[simp] theorem State.zeroFreq_bitCount : s.zeroFreq.bitCount = s.bitCount := rfl
@[simp] theorem State.zeroFreq_outLen : s.zeroFreq.outLen = s.outLen := rfl
@[simp] theorem State.zeroFreq_root : s.zeroFreq.root = s.root := rfl
@[simp] theorem State.zeroFreq_nodeCount : s.zeroFreq.nodeCount = s.nodeCount := rfl
@[simp] theorem State.zeroFreq_freq : s.zeroFreq.freq = [] := rfl
@[simp] theorem State.zeroFreq_ctLen : s.zeroFreq.ctLen = s.ctLen := rfl
@[simp] theorem State.zeroFreq_ctBits : s.zeroFreq.ctBits = s.ctBits := rfl
@[simp] theorem State.zeroFreq_node : s.zeroFreq.node = s.node := rfl
@[simp] theorem State.zeroFreq_src : s.zeroFreq.src = s.src := rfl
@[simp] theorem State.zeroFreq_pk : s.zeroFreq.pk = s.pk := rfl
@[simp] theorem State.zeroFreq_out : s.zeroFreq.out = s.out := rfl
@[simp] theorem State.zeroFreq_powerOns : s.zeroFreq.powerOns = s.powerOns := rfl
@[simp] theorem State.zeroFreq_host : s.zeroFreq.host = s.host := rfl
@[simp] theorem State.zeroFreq_ctLenAt (j : Nat) : s.zeroFreq.ctLenAt j = s.ctLenAt j := rfl
@[simp] theorem State.zeroFreq_ctBitsAt (j : Nat) : s.zeroFreq.ctBitsAt j = s.ctBitsAt j := rfl
@[simp] theorem State.zeroFreq_nodeAt (j : Nat) : s.zeroFreq.nodeAt j = s.nodeAt j := rfl
@[simp] theorem State.zeroFreq_srcAt (j : Nat) : s.zeroFreq.srcAt j = s.srcAt j := rfl
@[simp] theorem State.zeroFreq_pkAt (j : Nat) : s.zeroFreq.pkAt j = s.pkAt j := rfl
@[simp] theorem State.zeroFreq_outAt (j : Nat) : s.zeroFreq.outAt j = s.outAt j := rfl
@[simp] theorem State.zeroFreq_input : s.zeroFreq.input = s.input := rfl
@[simp] theorem State.zeroFreq_code (j : Nat) : s.zeroFreq.code j = s.code j := rfl
@[simp] theorem State.zeroFreq_stream : s.zeroFreq.stream = s.stream := rfl
@[simp] theorem State.zeroFreq_lmax : s.zeroFreq.lmax = s.lmax := rfl
@[simp] theorem State.zeroFreq_matchCode (c : BitString) : s.zeroFreq.matchCode c = s.matchCode c := rfl

@[simp] theorem State.zeroCodes_cfg : s.zeroCodes.cfg = s.cfg := rfl
@[simp] theorem State.zeroCodes_busy : s.zeroCodes.busy = s.busy := rfl
@[simp] theorem State.zeroCodes_done : s.zeroCodes.done = s.done := rfl
@[simp] theorem State.zeroCodes_tv : s.zeroCodes.tv = s.tv := rfl
@[simp] theorem State.zeroCodes_err : s.zeroCodes.err = s.err := rfl
@[simp] theorem State.zeroCodes_cur : s.zeroCodes.cur = s.cur := rfl
@[simp] theorem State.zeroCodes_errInfo : s.zeroCodes.errInfo = s.errInfo := rfl
@[simp] theorem State.zeroCodes_srcLen : s.zeroCodes.srcLen = s.srcLen := rfl
@[simp] theorem State.zeroCodes_byteCount : s.zeroCodes.byteCount = s.byteCount := rfl
@[simp] theorem State.zeroCodes_bitCount : s.zeroCodes.bitCount = s.bitCount := rfl
@[simp] theorem State.zeroCodes_outLen : s.zeroCodes.outLen = s.outLen := rfl
@[simp] theorem State.zeroCodes_root : s.zeroCodes.root = s.root := rfl
@[simp] theorem State.zeroCodes_nodeCount : s.zeroCodes.nodeCount = s.nodeCount := rfl
@[simp] theorem State.zeroCodes_freq : s.zeroCodes.freq = s.freq := rfl
@[simp] theorem State.zeroCodes_ctLen : s.zeroCodes.ctLen = [] := rfl
@[simp] theorem State.zeroCodes_ctBits : s.zeroCodes.ctBits = [] := rfl
@[simp] theorem State.zeroCodes_node : s.zeroCodes.node = s.node := rfl
@[simp] theorem State.zeroCodes_src : s.zeroCodes.src = s.src := rfl
@[simp] theorem State.zeroCodes_pk : s.zeroCodes.pk = s.pk := rfl
@[simp] theorem State.zeroCodes_out : s.zeroCodes.out = s.out := rfl
@[simp] theorem State.zeroCodes_powerOns : s.zeroCodes.powerOns = s.powerOns := rfl
@[simp] theorem State.zeroCodes_host : s.zeroCodes.host = s.host := rfl
@[simp] theorem State.zeroCodes_freqAt (j : Nat) : s.zeroCodes.freqAt j = s.freqAt j := rfl
@[simp] theorem State.zeroCodes_nodeAt (j : Nat) : s.zeroCodes.nodeAt j = s.nodeAt j := rfl
@[simp] theorem State.zeroCodes_srcAt (j : Nat) : s.zeroCodes.srcAt j = s.srcAt j := rfl
@[simp] theorem State.zeroCodes_pkAt (j : Nat) : s.zeroCodes.pkAt j = s.pkAt j := rfl
@[simp] theorem State.zeroCodes_outAt (j : Nat) : s.zeroCodes.outAt j = s.outAt j := rfl
@[simp] theorem State.zeroCodes_input : s.zeroCodes.input = s.input := rfl
@[simp] theorem State.zeroCodes_stream : s.zeroCodes.stream = s.stream := rfl
@[simp] theorem State.zeroCodes_present : s.zeroCodes.present = s.present := rfl

@[simp] theorem State.zeroNodes_cfg : s.zeroNodes.cfg = s.cfg := rfl
@[simp] theorem State.zeroNodes_busy : s.zeroNodes.busy = s.busy := rfl
@[simp] theorem State.zeroNodes_done : s.zeroNodes.done = s.done := rfl
@[simp] theorem State.zeroNodes_tv : s.zeroNodes.tv = s.tv := rfl
@[simp] theorem State.zeroNodes_err : s.zeroNodes.err = s.err := rfl
@[simp] theorem State.zeroNodes_cur : s.zeroNodes.cur = s.cur := rfl
@[simp] theorem State.zeroNodes_errInfo : s.zeroNodes.errInfo = s.errInfo := rfl
@[simp] theorem State.zeroNodes_srcLen : s.zeroNodes.srcLen = s.srcLen := rfl
@[simp] theorem State.zeroNodes_byteCount : s.zeroNodes.byteCount = s.byteCount := rfl
@[simp] theorem State.zeroNodes_bitCount : s.zeroNodes.bitCount = s.bitCount := rfl
@[simp] theorem State.zeroNodes_outLen : s.zeroNodes.outLen = s.outLen := rfl
@[simp] theorem State.zeroNodes_root : s.zeroNodes.root = s.root := rfl
@[simp] theorem State.zeroNodes_nodeCount : s.zeroNodes.nodeCount = s.nodeCount := rfl
@[simp] theorem State.zeroNodes_freq : s.zeroNodes.freq = s.freq := rfl
@[simp] theorem State.zeroNodes_ctLen : s.zeroNodes.ctLen = s.ctLen := rfl
@[simp] theorem State.zeroNodes_ctBits : s.zeroNodes.ctBits = s.ctBits := rfl
@[simp] theorem State.zeroNodes_node : s.zeroNodes.node = [] := rfl
@[simp] theorem State.zeroNodes_src : s.zeroNodes.src = s.src := rfl
@[simp] theorem State.zeroNodes_pk : s.zeroNodes.pk = s.pk := rfl
@[simp] theorem State.zeroNodes_out : s.zeroNodes.out = s.out := rfl
@[simp] theorem State.zeroNodes_powerOns : s.zeroNodes.powerOns = s.powerOns := rfl
@[simp] theorem State.zeroNodes_host : s.zeroNodes.host = s.host := rfl
@[simp] theorem State.zeroNodes_freqAt (j : Nat) : s.zeroNodes.freqAt j = s.freqAt j := rfl
@[simp] theorem State.zeroNodes_ctLenAt (j : Nat) : s.zeroNodes.ctLenAt j = s.ctLenAt j := rfl
@[simp] theorem State.zeroNodes_ctBitsAt (j : Nat) : s.zeroNodes.ctBitsAt j = s.ctBitsAt j := rfl
@[simp] theorem State.zeroNodes_srcAt (j : Nat) : s.zeroNodes.srcAt j = s.srcAt j := rfl
@[simp] theorem State.zeroNodes_pkAt (j : Nat) : s.zeroNodes.pkAt j = s.pkAt j := rfl
@[simp] theorem State.zeroNodes_outAt (j : Nat) : s.zeroNodes.outAt j = s.outAt j := rfl
@[simp] theorem State.zeroNodes_input : s.zeroNodes.input = s.input := rfl
@[simp] theorem State.zeroNodes_code (j : Nat) : s.zeroNodes.code j = s.code j := rfl
@[simp] theorem State.zeroNodes_stream : s.zeroNodes.stream = s.stream := rfl
@[simp] theorem State.zeroNodes_lmax : s.zeroNodes.lmax = s.lmax := rfl
@[simp] theorem State.zeroNodes_matchCode (c : BitString) : s.zeroNodes.matchCode c = s.matchCode c := rfl
@[simp] theorem State.zeroNodes_present : s.zeroNodes.present = s.present := rfl

@[simp] theorem State.setFreq_cfg (i : Nat) (v : Word) : (s.setFreq i v).cfg = s.cfg := rfl
@[simp] theorem State.setFreq_busy (i : Nat) (v : Word) : (s.setFreq i v).busy = s.busy := rfl
@[simp] theorem State.setFreq_done (i : Nat) (v : Word) : (s.setFreq i v).done = s.done := rfl
@[simp] theorem State.setFreq_tv (i : Nat) (v : Word) : (s.setFreq i v).tv = s.tv := rfl
@[simp] theorem State.setFreq_err (i : Nat) (v : Word) : (s.setFreq i v).err = s.err := rfl
@[simp] theorem State.setFreq_cur (i : Nat) (v : Word) : (s.setFreq i v).cur = s.cur := rfl
@[simp] theorem State.setFreq_errInfo (i : Nat) (v : Word) : (s.setFreq i v).errInfo = s.errInfo := rfl
@[simp] theorem State.setFreq_srcLen (i : Nat) (v : Word) : (s.setFreq i v).srcLen = s.srcLen := rfl
@[simp] theorem State.setFreq_byteCount (i : Nat) (v : Word) : (s.setFreq i v).byteCount = s.byteCount := rfl
@[simp] theorem State.setFreq_bitCount (i : Nat) (v : Word) : (s.setFreq i v).bitCount = s.bitCount := rfl
@[simp] theorem State.setFreq_outLen (i : Nat) (v : Word) : (s.setFreq i v).outLen = s.outLen := rfl
@[simp] theorem State.setFreq_root (i : Nat) (v : Word) : (s.setFreq i v).root = s.root := rfl
@[simp] theorem State.setFreq_nodeCount (i : Nat) (v : Word) : (s.setFreq i v).nodeCount = s.nodeCount := rfl
@[simp] theorem State.setFreq_freq (i : Nat) (v : Word) : (s.setFreq i v).freq = Table.write (some 0#32) s.freq i v := rfl
@[simp] theorem State.setFreq_ctLen (i : Nat) (v : Word) : (s.setFreq i v).ctLen = s.ctLen := rfl
@[simp] theorem State.setFreq_ctBits (i : Nat) (v : Word) : (s.setFreq i v).ctBits = s.ctBits := rfl
@[simp] theorem State.setFreq_node (i : Nat) (v : Word) : (s.setFreq i v).node = s.node := rfl
@[simp] theorem State.setFreq_src (i : Nat) (v : Word) : (s.setFreq i v).src = s.src := rfl
@[simp] theorem State.setFreq_pk (i : Nat) (v : Word) : (s.setFreq i v).pk = s.pk := rfl
@[simp] theorem State.setFreq_out (i : Nat) (v : Word) : (s.setFreq i v).out = s.out := rfl
@[simp] theorem State.setFreq_powerOns (i : Nat) (v : Word) : (s.setFreq i v).powerOns = s.powerOns := rfl
@[simp] theorem State.setFreq_host (i : Nat) (v : Word) : (s.setFreq i v).host = s.host := rfl
@[simp] theorem State.setFreq_ctLenAt (i : Nat) (v : Word) (j : Nat) : (s.setFreq i v).ctLenAt j = s.ctLenAt j := rfl
@[simp] theorem State.setFreq_ctBitsAt (i : Nat) (v : Word) (j : Nat) : (s.setFreq i v).ctBitsAt j = s.ctBitsAt j := rfl
@[simp] theorem State.setFreq_nodeAt (i : Nat) (v : Word) (j : Nat) : (s.setFreq i v).nodeAt j = s.nodeAt j := rfl
@[simp] theorem State.setFreq_srcAt (i : Nat) (v : Word) (j : Nat) : (s.setFreq i v).srcAt j = s.srcAt j := rfl
@[simp] theorem State.setFreq_pkAt (i : Nat) (v : Word) (j : Nat) : (s.setFreq i v).pkAt j = s.pkAt j := rfl
@[simp] theorem State.setFreq_outAt (i : Nat) (v : Word) (j : Nat) : (s.setFreq i v).outAt j = s.outAt j := rfl
@[simp] theorem State.setFreq_input (i : Nat) (v : Word) : (s.setFreq i v).input = s.input := rfl
@[simp] theorem State.setFreq_code (i : Nat) (v : Word) (j : Nat) : (s.setFreq i v).code j = s.code j := rfl
@[simp] theorem State.setFreq_stream (i : Nat) (v : Word) : (s.setFreq i v).stream = s.stream := rfl
@[simp] theorem State.setFreq_lmax (i : Nat) (v : Word) : (s.setFreq i v).lmax = s.lmax := rfl
@[simp] theorem State.setFreq_matchCode (i : Nat) (v : Word) (c : BitString) : (s.setFreq i v).matchCode c = s.matchCode c := rfl

@[simp] theorem State.setCtLen_cfg (i : Nat) (v : Byte) : (s.setCtLen i v).cfg = s.cfg := rfl
@[simp] theorem State.setCtLen_busy (i : Nat) (v : Byte) : (s.setCtLen i v).busy = s.busy := rfl
@[simp] theorem State.setCtLen_done (i : Nat) (v : Byte) : (s.setCtLen i v).done = s.done := rfl
@[simp] theorem State.setCtLen_tv (i : Nat) (v : Byte) : (s.setCtLen i v).tv = s.tv := rfl
@[simp] theorem State.setCtLen_err (i : Nat) (v : Byte) : (s.setCtLen i v).err = s.err := rfl
@[simp] theorem State.setCtLen_cur (i : Nat) (v : Byte) : (s.setCtLen i v).cur = s.cur := rfl
@[simp] theorem State.setCtLen_errInfo (i : Nat) (v : Byte) : (s.setCtLen i v).errInfo = s.errInfo := rfl
@[simp] theorem State.setCtLen_srcLen (i : Nat) (v : Byte) : (s.setCtLen i v).srcLen = s.srcLen := rfl
@[simp] theorem State.setCtLen_byteCount (i : Nat) (v : Byte) : (s.setCtLen i v).byteCount = s.byteCount := rfl
@[simp] theorem State.setCtLen_bitCount (i : Nat) (v : Byte) : (s.setCtLen i v).bitCount = s.bitCount := rfl
@[simp] theorem State.setCtLen_outLen (i : Nat) (v : Byte) : (s.setCtLen i v).outLen = s.outLen := rfl
@[simp] theorem State.setCtLen_root (i : Nat) (v : Byte) : (s.setCtLen i v).root = s.root := rfl
@[simp] theorem State.setCtLen_nodeCount (i : Nat) (v : Byte) : (s.setCtLen i v).nodeCount = s.nodeCount := rfl
@[simp] theorem State.setCtLen_freq (i : Nat) (v : Byte) : (s.setCtLen i v).freq = s.freq := rfl
@[simp] theorem State.setCtLen_ctLen (i : Nat) (v : Byte) : (s.setCtLen i v).ctLen = Table.write Memory.zero s.ctLen i v := rfl
@[simp] theorem State.setCtLen_ctBits (i : Nat) (v : Byte) : (s.setCtLen i v).ctBits = s.ctBits := rfl
@[simp] theorem State.setCtLen_node (i : Nat) (v : Byte) : (s.setCtLen i v).node = s.node := rfl
@[simp] theorem State.setCtLen_src (i : Nat) (v : Byte) : (s.setCtLen i v).src = s.src := rfl
@[simp] theorem State.setCtLen_pk (i : Nat) (v : Byte) : (s.setCtLen i v).pk = s.pk := rfl
@[simp] theorem State.setCtLen_out (i : Nat) (v : Byte) : (s.setCtLen i v).out = s.out := rfl
@[simp] theorem State.setCtLen_powerOns (i : Nat) (v : Byte) : (s.setCtLen i v).powerOns = s.powerOns := rfl
@[simp] theorem State.setCtLen_host (i : Nat) (v : Byte) : (s.setCtLen i v).host = s.host := rfl
@[simp] theorem State.setCtLen_freqAt (i : Nat) (v : Byte) (j : Nat) : (s.setCtLen i v).freqAt j = s.freqAt j := rfl
@[simp] theorem State.setCtLen_ctBitsAt (i : Nat) (v : Byte) (j : Nat) : (s.setCtLen i v).ctBitsAt j = s.ctBitsAt j := rfl
@[simp] theorem State.setCtLen_nodeAt (i : Nat) (v : Byte) (j : Nat) : (s.setCtLen i v).nodeAt j = s.nodeAt j := rfl
@[simp] theorem State.setCtLen_srcAt (i : Nat) (v : Byte) (j : Nat) : (s.setCtLen i v).srcAt j = s.srcAt j := rfl
@[simp] theorem State.setCtLen_pkAt (i : Nat) (v : Byte) (j : Nat) : (s.setCtLen i v).pkAt j = s.pkAt j := rfl
@[simp] theorem State.setCtLen_outAt (i : Nat) (v : Byte) (j : Nat) : (s.setCtLen i v).outAt j = s.outAt j := rfl
@[simp] theorem State.setCtLen_input (i : Nat) (v : Byte) : (s.setCtLen i v).input = s.input := rfl
@[simp] theorem State.setCtLen_stream (i : Nat) (v : Byte) : (s.setCtLen i v).stream = s.stream := rfl
@[simp] theorem State.setCtLen_present (i : Nat) (v : Byte) : (s.setCtLen i v).present = s.present := rfl

@[simp] theorem State.setCtBits_cfg (i : Nat) (v : Byte) : (s.setCtBits i v).cfg = s.cfg := rfl
@[simp] theorem State.setCtBits_busy (i : Nat) (v : Byte) : (s.setCtBits i v).busy = s.busy := rfl
@[simp] theorem State.setCtBits_done (i : Nat) (v : Byte) : (s.setCtBits i v).done = s.done := rfl
@[simp] theorem State.setCtBits_tv (i : Nat) (v : Byte) : (s.setCtBits i v).tv = s.tv := rfl
@[simp] theorem State.setCtBits_err (i : Nat) (v : Byte) : (s.setCtBits i v).err = s.err := rfl
@[simp] theorem State.setCtBits_cur (i : Nat) (v : Byte) : (s.setCtBits i v).cur = s.cur := rfl
@[simp] theorem State.setCtBits_errInfo (i : Nat) (v : Byte) : (s.setCtBits i v).errInfo = s.errInfo := rfl
@[simp] theorem State.setCtBits_srcLen (i : Nat) (v : Byte) : (s.setCtBits i v).srcLen = s.srcLen := rfl
@[simp] theorem State.setCtBits_byteCount (i : Nat) (v : Byte) : (s.setCtBits i v).byteCount = s.byteCount := rfl
@[simp] theorem State.setCtBits_bitCount (i : Nat) (v : Byte) : (s.setCtBits i v).bitCount = s.bitCount := rfl
@[simp] theorem State.setCtBits_outLen (i : Nat) (v : Byte) : (s.setCtBits i v).outLen = s.outLen := rfl
@[simp] theorem State.setCtBits_root (i : Nat) (v : Byte) : (s.setCtBits i v).root = s.root := rfl
@[simp] theorem State.setCtBits_nodeCount (i : Nat) (v : Byte) : (s.setCtBits i v).nodeCount = s.nodeCount := rfl
@[simp] theorem State.setCtBits_freq (i : Nat) (v : Byte) : (s.setCtBits i v).freq = s.freq := rfl
@[simp] theorem State.setCtBits_ctLen (i : Nat) (v : Byte) : (s.setCtBits i v).ctLen = s.ctLen := rfl
@[simp] theorem State.setCtBits_ctBits (i : Nat) (v : Byte) : (s.setCtBits i v).ctBits = Table.write Memory.zero s.ctBits i v := rfl
@[simp] theorem State.setCtBits_node (i : Nat) (v : Byte) : (s.setCtBits i v).node = s.node := rfl
@[simp] theorem State.setCtBits_src (i : Nat) (v : Byte) : (s.setCtBits i v).src = s.src := rfl
@[simp] theorem State.setCtBits_pk (i : Nat) (v : Byte) : (s.setCtBits i v).pk = s.pk := rfl
@[simp] theorem State.setCtBits_out (i : Nat) (v : Byte) : (s.setCtBits i v).out = s.out := rfl
@[simp] theorem State.setCtBits_powerOns (i : Nat) (v : Byte) : (s.setCtBits i v).powerOns = s.powerOns := rfl
@[simp] theorem State.setCtBits_host (i : Nat) (v : Byte) : (s.setCtBits i v).host = s.host := rfl
@[simp] theorem State.setCtBits_freqAt (i : Nat) (v : Byte) (j : Nat) : (s.setCtBits i v).freqAt j = s.freqAt j := rfl
@[simp] theorem State.setCtBits_ctLenAt (i : Nat) (v : Byte) (j : Nat) : (s.setCtBits i v).ctLenAt j = s.ctLenAt j := rfl
@[simp] theorem State.setCtBits_nodeAt (i : Nat) (v : Byte) (j : Nat) : (s.setCtBits i v).nodeAt j = s.nodeAt j := rfl
@[simp] theorem State.setCtBits_srcAt (i : Nat) (v : Byte) (j : Nat) : (s.setCtBits i v).srcAt j = s.srcAt j := rfl
@[simp] theorem State.setCtBits_pkAt (i : Nat) (v : Byte) (j : Nat) : (s.setCtBits i v).pkAt j = s.pkAt j := rfl
@[simp] theorem State.setCtBits_outAt (i : Nat) (v : Byte) (j : Nat) : (s.setCtBits i v).outAt j = s.outAt j := rfl
@[simp] theorem State.setCtBits_input (i : Nat) (v : Byte) : (s.setCtBits i v).input = s.input := rfl
@[simp] theorem State.setCtBits_stream (i : Nat) (v : Byte) : (s.setCtBits i v).stream = s.stream := rfl
@[simp] theorem State.setCtBits_lmax (i : Nat) (v : Byte) : (s.setCtBits i v).lmax = s.lmax := rfl
@[simp] theorem State.setCtBits_present (i : Nat) (v : Byte) : (s.setCtBits i v).present = s.present := rfl

@[simp] theorem State.setNode_cfg (i : Nat) (v : Node) : (s.setNode i v).cfg = s.cfg := rfl
@[simp] theorem State.setNode_busy (i : Nat) (v : Node) : (s.setNode i v).busy = s.busy := rfl
@[simp] theorem State.setNode_done (i : Nat) (v : Node) : (s.setNode i v).done = s.done := rfl
@[simp] theorem State.setNode_tv (i : Nat) (v : Node) : (s.setNode i v).tv = s.tv := rfl
@[simp] theorem State.setNode_err (i : Nat) (v : Node) : (s.setNode i v).err = s.err := rfl
@[simp] theorem State.setNode_cur (i : Nat) (v : Node) : (s.setNode i v).cur = s.cur := rfl
@[simp] theorem State.setNode_errInfo (i : Nat) (v : Node) : (s.setNode i v).errInfo = s.errInfo := rfl
@[simp] theorem State.setNode_srcLen (i : Nat) (v : Node) : (s.setNode i v).srcLen = s.srcLen := rfl
@[simp] theorem State.setNode_byteCount (i : Nat) (v : Node) : (s.setNode i v).byteCount = s.byteCount := rfl
@[simp] theorem State.setNode_bitCount (i : Nat) (v : Node) : (s.setNode i v).bitCount = s.bitCount := rfl
@[simp] theorem State.setNode_outLen (i : Nat) (v : Node) : (s.setNode i v).outLen = s.outLen := rfl
@[simp] theorem State.setNode_root (i : Nat) (v : Node) : (s.setNode i v).root = s.root := rfl
@[simp] theorem State.setNode_nodeCount (i : Nat) (v : Node) : (s.setNode i v).nodeCount = s.nodeCount := rfl
@[simp] theorem State.setNode_freq (i : Nat) (v : Node) : (s.setNode i v).freq = s.freq := rfl
@[simp] theorem State.setNode_ctLen (i : Nat) (v : Node) : (s.setNode i v).ctLen = s.ctLen := rfl
@[simp] theorem State.setNode_ctBits (i : Nat) (v : Node) : (s.setNode i v).ctBits = s.ctBits := rfl
@[simp] theorem State.setNode_node (i : Nat) (v : Node) : (s.setNode i v).node = Table.write (some Node.zero) s.node i v := rfl
@[simp] theorem State.setNode_src (i : Nat) (v : Node) : (s.setNode i v).src = s.src := rfl
@[simp] theorem State.setNode_pk (i : Nat) (v : Node) : (s.setNode i v).pk = s.pk := rfl
@[simp] theorem State.setNode_out (i : Nat) (v : Node) : (s.setNode i v).out = s.out := rfl
@[simp] theorem State.setNode_powerOns (i : Nat) (v : Node) : (s.setNode i v).powerOns = s.powerOns := rfl
@[simp] theorem State.setNode_host (i : Nat) (v : Node) : (s.setNode i v).host = s.host := rfl
@[simp] theorem State.setNode_freqAt (i : Nat) (v : Node) (j : Nat) : (s.setNode i v).freqAt j = s.freqAt j := rfl
@[simp] theorem State.setNode_ctLenAt (i : Nat) (v : Node) (j : Nat) : (s.setNode i v).ctLenAt j = s.ctLenAt j := rfl
@[simp] theorem State.setNode_ctBitsAt (i : Nat) (v : Node) (j : Nat) : (s.setNode i v).ctBitsAt j = s.ctBitsAt j := rfl
@[simp] theorem State.setNode_srcAt (i : Nat) (v : Node) (j : Nat) : (s.setNode i v).srcAt j = s.srcAt j := rfl
@[simp] theorem State.setNode_pkAt (i : Nat) (v : Node) (j : Nat) : (s.setNode i v).pkAt j = s.pkAt j := rfl
@[simp] theorem State.setNode_outAt (i : Nat) (v : Node) (j : Nat) : (s.setNode i v).outAt j = s.outAt j := rfl
@[simp] theorem State.setNode_input (i : Nat) (v : Node) : (s.setNode i v).input = s.input := rfl
@[simp] theorem State.setNode_code (i : Nat) (v : Node) (j : Nat) : (s.setNode i v).code j = s.code j := rfl
@[simp] theorem State.setNode_stream (i : Nat) (v : Node) : (s.setNode i v).stream = s.stream := rfl
@[simp] theorem State.setNode_lmax (i : Nat) (v : Node) : (s.setNode i v).lmax = s.lmax := rfl
@[simp] theorem State.setNode_matchCode (i : Nat) (v : Node) (c : BitString) : (s.setNode i v).matchCode c = s.matchCode c := rfl
@[simp] theorem State.setNode_present (i : Nat) (v : Node) : (s.setNode i v).present = s.present := rfl

@[simp] theorem State.setSrc_cfg (i : Nat) (v : Byte) : (s.setSrc i v).cfg = s.cfg := rfl
@[simp] theorem State.setSrc_busy (i : Nat) (v : Byte) : (s.setSrc i v).busy = s.busy := rfl
@[simp] theorem State.setSrc_done (i : Nat) (v : Byte) : (s.setSrc i v).done = s.done := rfl
@[simp] theorem State.setSrc_tv (i : Nat) (v : Byte) : (s.setSrc i v).tv = s.tv := rfl
@[simp] theorem State.setSrc_err (i : Nat) (v : Byte) : (s.setSrc i v).err = s.err := rfl
@[simp] theorem State.setSrc_cur (i : Nat) (v : Byte) : (s.setSrc i v).cur = s.cur := rfl
@[simp] theorem State.setSrc_errInfo (i : Nat) (v : Byte) : (s.setSrc i v).errInfo = s.errInfo := rfl
@[simp] theorem State.setSrc_srcLen (i : Nat) (v : Byte) : (s.setSrc i v).srcLen = s.srcLen := rfl
@[simp] theorem State.setSrc_byteCount (i : Nat) (v : Byte) : (s.setSrc i v).byteCount = s.byteCount := rfl
@[simp] theorem State.setSrc_bitCount (i : Nat) (v : Byte) : (s.setSrc i v).bitCount = s.bitCount := rfl
@[simp] theorem State.setSrc_outLen (i : Nat) (v : Byte) : (s.setSrc i v).outLen = s.outLen := rfl
@[simp] theorem State.setSrc_root (i : Nat) (v : Byte) : (s.setSrc i v).root = s.root := rfl
@[simp] theorem State.setSrc_nodeCount (i : Nat) (v : Byte) : (s.setSrc i v).nodeCount = s.nodeCount := rfl
@[simp] theorem State.setSrc_freq (i : Nat) (v : Byte) : (s.setSrc i v).freq = s.freq := rfl
@[simp] theorem State.setSrc_ctLen (i : Nat) (v : Byte) : (s.setSrc i v).ctLen = s.ctLen := rfl
@[simp] theorem State.setSrc_ctBits (i : Nat) (v : Byte) : (s.setSrc i v).ctBits = s.ctBits := rfl
@[simp] theorem State.setSrc_node (i : Nat) (v : Byte) : (s.setSrc i v).node = s.node := rfl
@[simp] theorem State.setSrc_src (i : Nat) (v : Byte) : (s.setSrc i v).src = Table.write Memory.unwritten s.src i v := rfl
@[simp] theorem State.setSrc_pk (i : Nat) (v : Byte) : (s.setSrc i v).pk = s.pk := rfl
@[simp] theorem State.setSrc_out (i : Nat) (v : Byte) : (s.setSrc i v).out = s.out := rfl
@[simp] theorem State.setSrc_powerOns (i : Nat) (v : Byte) : (s.setSrc i v).powerOns = s.powerOns := rfl
@[simp] theorem State.setSrc_host (i : Nat) (v : Byte) : (s.setSrc i v).host = s.host := rfl
@[simp] theorem State.setSrc_freqAt (i : Nat) (v : Byte) (j : Nat) : (s.setSrc i v).freqAt j = s.freqAt j := rfl
@[simp] theorem State.setSrc_ctLenAt (i : Nat) (v : Byte) (j : Nat) : (s.setSrc i v).ctLenAt j = s.ctLenAt j := rfl
@[simp] theorem State.setSrc_ctBitsAt (i : Nat) (v : Byte) (j : Nat) : (s.setSrc i v).ctBitsAt j = s.ctBitsAt j := rfl
@[simp] theorem State.setSrc_nodeAt (i : Nat) (v : Byte) (j : Nat) : (s.setSrc i v).nodeAt j = s.nodeAt j := rfl
@[simp] theorem State.setSrc_pkAt (i : Nat) (v : Byte) (j : Nat) : (s.setSrc i v).pkAt j = s.pkAt j := rfl
@[simp] theorem State.setSrc_outAt (i : Nat) (v : Byte) (j : Nat) : (s.setSrc i v).outAt j = s.outAt j := rfl
@[simp] theorem State.setSrc_code (i : Nat) (v : Byte) (j : Nat) : (s.setSrc i v).code j = s.code j := rfl
@[simp] theorem State.setSrc_stream (i : Nat) (v : Byte) : (s.setSrc i v).stream = s.stream := rfl
@[simp] theorem State.setSrc_lmax (i : Nat) (v : Byte) : (s.setSrc i v).lmax = s.lmax := rfl
@[simp] theorem State.setSrc_matchCode (i : Nat) (v : Byte) (c : BitString) : (s.setSrc i v).matchCode c = s.matchCode c := rfl
@[simp] theorem State.setSrc_present (i : Nat) (v : Byte) : (s.setSrc i v).present = s.present := rfl

@[simp] theorem State.setPk_cfg (i : Nat) (v : Byte) : (s.setPk i v).cfg = s.cfg := rfl
@[simp] theorem State.setPk_busy (i : Nat) (v : Byte) : (s.setPk i v).busy = s.busy := rfl
@[simp] theorem State.setPk_done (i : Nat) (v : Byte) : (s.setPk i v).done = s.done := rfl
@[simp] theorem State.setPk_tv (i : Nat) (v : Byte) : (s.setPk i v).tv = s.tv := rfl
@[simp] theorem State.setPk_err (i : Nat) (v : Byte) : (s.setPk i v).err = s.err := rfl
@[simp] theorem State.setPk_cur (i : Nat) (v : Byte) : (s.setPk i v).cur = s.cur := rfl
@[simp] theorem State.setPk_errInfo (i : Nat) (v : Byte) : (s.setPk i v).errInfo = s.errInfo := rfl
@[simp] theorem State.setPk_srcLen (i : Nat) (v : Byte) : (s.setPk i v).srcLen = s.srcLen := rfl
@[simp] theorem State.setPk_byteCount (i : Nat) (v : Byte) : (s.setPk i v).byteCount = s.byteCount := rfl
@[simp] theorem State.setPk_bitCount (i : Nat) (v : Byte) : (s.setPk i v).bitCount = s.bitCount := rfl
@[simp] theorem State.setPk_outLen (i : Nat) (v : Byte) : (s.setPk i v).outLen = s.outLen := rfl
@[simp] theorem State.setPk_root (i : Nat) (v : Byte) : (s.setPk i v).root = s.root := rfl
@[simp] theorem State.setPk_nodeCount (i : Nat) (v : Byte) : (s.setPk i v).nodeCount = s.nodeCount := rfl
@[simp] theorem State.setPk_freq (i : Nat) (v : Byte) : (s.setPk i v).freq = s.freq := rfl
@[simp] theorem State.setPk_ctLen (i : Nat) (v : Byte) : (s.setPk i v).ctLen = s.ctLen := rfl
@[simp] theorem State.setPk_ctBits (i : Nat) (v : Byte) : (s.setPk i v).ctBits = s.ctBits := rfl
@[simp] theorem State.setPk_node (i : Nat) (v : Byte) : (s.setPk i v).node = s.node := rfl
@[simp] theorem State.setPk_src (i : Nat) (v : Byte) : (s.setPk i v).src = s.src := rfl
@[simp] theorem State.setPk_pk (i : Nat) (v : Byte) : (s.setPk i v).pk = Table.write Memory.unwritten s.pk i v := rfl
@[simp] theorem State.setPk_out (i : Nat) (v : Byte) : (s.setPk i v).out = s.out := rfl
@[simp] theorem State.setPk_powerOns (i : Nat) (v : Byte) : (s.setPk i v).powerOns = s.powerOns := rfl
@[simp] theorem State.setPk_host (i : Nat) (v : Byte) : (s.setPk i v).host = s.host := rfl
@[simp] theorem State.setPk_freqAt (i : Nat) (v : Byte) (j : Nat) : (s.setPk i v).freqAt j = s.freqAt j := rfl
@[simp] theorem State.setPk_ctLenAt (i : Nat) (v : Byte) (j : Nat) : (s.setPk i v).ctLenAt j = s.ctLenAt j := rfl
@[simp] theorem State.setPk_ctBitsAt (i : Nat) (v : Byte) (j : Nat) : (s.setPk i v).ctBitsAt j = s.ctBitsAt j := rfl
@[simp] theorem State.setPk_nodeAt (i : Nat) (v : Byte) (j : Nat) : (s.setPk i v).nodeAt j = s.nodeAt j := rfl
@[simp] theorem State.setPk_srcAt (i : Nat) (v : Byte) (j : Nat) : (s.setPk i v).srcAt j = s.srcAt j := rfl
@[simp] theorem State.setPk_outAt (i : Nat) (v : Byte) (j : Nat) : (s.setPk i v).outAt j = s.outAt j := rfl
@[simp] theorem State.setPk_input (i : Nat) (v : Byte) : (s.setPk i v).input = s.input := rfl
@[simp] theorem State.setPk_code (i : Nat) (v : Byte) (j : Nat) : (s.setPk i v).code j = s.code j := rfl
@[simp] theorem State.setPk_lmax (i : Nat) (v : Byte) : (s.setPk i v).lmax = s.lmax := rfl
@[simp] theorem State.setPk_matchCode (i : Nat) (v : Byte) (c : BitString) : (s.setPk i v).matchCode c = s.matchCode c := rfl
@[simp] theorem State.setPk_present (i : Nat) (v : Byte) : (s.setPk i v).present = s.present := rfl

@[simp] theorem State.setOut_cfg (i : Nat) (v : Byte) : (s.setOut i v).cfg = s.cfg := rfl
@[simp] theorem State.setOut_busy (i : Nat) (v : Byte) : (s.setOut i v).busy = s.busy := rfl
@[simp] theorem State.setOut_done (i : Nat) (v : Byte) : (s.setOut i v).done = s.done := rfl
@[simp] theorem State.setOut_tv (i : Nat) (v : Byte) : (s.setOut i v).tv = s.tv := rfl
@[simp] theorem State.setOut_err (i : Nat) (v : Byte) : (s.setOut i v).err = s.err := rfl
@[simp] theorem State.setOut_cur (i : Nat) (v : Byte) : (s.setOut i v).cur = s.cur := rfl
@[simp] theorem State.setOut_errInfo (i : Nat) (v : Byte) : (s.setOut i v).errInfo = s.errInfo := rfl
@[simp] theorem State.setOut_srcLen (i : Nat) (v : Byte) : (s.setOut i v).srcLen = s.srcLen := rfl
@[simp] theorem State.setOut_byteCount (i : Nat) (v : Byte) : (s.setOut i v).byteCount = s.byteCount := rfl
@[simp] theorem State.setOut_bitCount (i : Nat) (v : Byte) : (s.setOut i v).bitCount = s.bitCount := rfl
@[simp] theorem State.setOut_outLen (i : Nat) (v : Byte) : (s.setOut i v).outLen = s.outLen := rfl
@[simp] theorem State.setOut_root (i : Nat) (v : Byte) : (s.setOut i v).root = s.root := rfl
@[simp] theorem State.setOut_nodeCount (i : Nat) (v : Byte) : (s.setOut i v).nodeCount = s.nodeCount := rfl
@[simp] theorem State.setOut_freq (i : Nat) (v : Byte) : (s.setOut i v).freq = s.freq := rfl
@[simp] theorem State.setOut_ctLen (i : Nat) (v : Byte) : (s.setOut i v).ctLen = s.ctLen := rfl
@[simp] theorem State.setOut_ctBits (i : Nat) (v : Byte) : (s.setOut i v).ctBits = s.ctBits := rfl
@[simp] theorem State.setOut_node (i : Nat) (v : Byte) : (s.setOut i v).node = s.node := rfl
@[simp] theorem State.setOut_src (i : Nat) (v : Byte) : (s.setOut i v).src = s.src := rfl
@[simp] theorem State.setOut_pk (i : Nat) (v : Byte) : (s.setOut i v).pk = s.pk := rfl
@[simp] theorem State.setOut_out (i : Nat) (v : Byte) : (s.setOut i v).out = Table.write Memory.unwritten s.out i v := rfl
@[simp] theorem State.setOut_powerOns (i : Nat) (v : Byte) : (s.setOut i v).powerOns = s.powerOns := rfl
@[simp] theorem State.setOut_host (i : Nat) (v : Byte) : (s.setOut i v).host = s.host := rfl
@[simp] theorem State.setOut_freqAt (i : Nat) (v : Byte) (j : Nat) : (s.setOut i v).freqAt j = s.freqAt j := rfl
@[simp] theorem State.setOut_ctLenAt (i : Nat) (v : Byte) (j : Nat) : (s.setOut i v).ctLenAt j = s.ctLenAt j := rfl
@[simp] theorem State.setOut_ctBitsAt (i : Nat) (v : Byte) (j : Nat) : (s.setOut i v).ctBitsAt j = s.ctBitsAt j := rfl
@[simp] theorem State.setOut_nodeAt (i : Nat) (v : Byte) (j : Nat) : (s.setOut i v).nodeAt j = s.nodeAt j := rfl
@[simp] theorem State.setOut_srcAt (i : Nat) (v : Byte) (j : Nat) : (s.setOut i v).srcAt j = s.srcAt j := rfl
@[simp] theorem State.setOut_pkAt (i : Nat) (v : Byte) (j : Nat) : (s.setOut i v).pkAt j = s.pkAt j := rfl
@[simp] theorem State.setOut_input (i : Nat) (v : Byte) : (s.setOut i v).input = s.input := rfl
@[simp] theorem State.setOut_code (i : Nat) (v : Byte) (j : Nat) : (s.setOut i v).code j = s.code j := rfl
@[simp] theorem State.setOut_stream (i : Nat) (v : Byte) : (s.setOut i v).stream = s.stream := rfl
@[simp] theorem State.setOut_lmax (i : Nat) (v : Byte) : (s.setOut i v).lmax = s.lmax := rfl
@[simp] theorem State.setOut_matchCode (i : Nat) (v : Byte) (c : BitString) : (s.setOut i v).matchCode c = s.matchCode c := rfl
@[simp] theorem State.setOut_present (i : Nat) (v : Byte) : (s.setOut i v).present = s.present := rfl

@[simp] theorem State.issued_cfg (r : List HostOp) : (s.issued r).cfg = s.cfg := rfl
@[simp] theorem State.issued_busy (r : List HostOp) : (s.issued r).busy = s.busy := rfl
@[simp] theorem State.issued_done (r : List HostOp) : (s.issued r).done = s.done := rfl
@[simp] theorem State.issued_tv (r : List HostOp) : (s.issued r).tv = s.tv := rfl
@[simp] theorem State.issued_err (r : List HostOp) : (s.issued r).err = s.err := rfl
@[simp] theorem State.issued_cur (r : List HostOp) : (s.issued r).cur = s.cur := rfl
@[simp] theorem State.issued_errInfo (r : List HostOp) : (s.issued r).errInfo = s.errInfo := rfl
@[simp] theorem State.issued_srcLen (r : List HostOp) : (s.issued r).srcLen = s.srcLen := rfl
@[simp] theorem State.issued_byteCount (r : List HostOp) : (s.issued r).byteCount = s.byteCount := rfl
@[simp] theorem State.issued_bitCount (r : List HostOp) : (s.issued r).bitCount = s.bitCount := rfl
@[simp] theorem State.issued_outLen (r : List HostOp) : (s.issued r).outLen = s.outLen := rfl
@[simp] theorem State.issued_root (r : List HostOp) : (s.issued r).root = s.root := rfl
@[simp] theorem State.issued_nodeCount (r : List HostOp) : (s.issued r).nodeCount = s.nodeCount := rfl
@[simp] theorem State.issued_freq (r : List HostOp) : (s.issued r).freq = s.freq := rfl
@[simp] theorem State.issued_ctLen (r : List HostOp) : (s.issued r).ctLen = s.ctLen := rfl
@[simp] theorem State.issued_ctBits (r : List HostOp) : (s.issued r).ctBits = s.ctBits := rfl
@[simp] theorem State.issued_node (r : List HostOp) : (s.issued r).node = s.node := rfl
@[simp] theorem State.issued_src (r : List HostOp) : (s.issued r).src = s.src := rfl
@[simp] theorem State.issued_pk (r : List HostOp) : (s.issued r).pk = s.pk := rfl
@[simp] theorem State.issued_out (r : List HostOp) : (s.issued r).out = s.out := rfl
@[simp] theorem State.issued_powerOns (r : List HostOp) : (s.issued r).powerOns = s.powerOns := rfl
@[simp] theorem State.issued_host (r : List HostOp) : (s.issued r).host = { s.host with script := r, delay := if s.busy then s.host.delay - 1 else s.host.delay } := rfl
@[simp] theorem State.issued_freqAt (r : List HostOp) (j : Nat) : (s.issued r).freqAt j = s.freqAt j := rfl
@[simp] theorem State.issued_ctLenAt (r : List HostOp) (j : Nat) : (s.issued r).ctLenAt j = s.ctLenAt j := rfl
@[simp] theorem State.issued_ctBitsAt (r : List HostOp) (j : Nat) : (s.issued r).ctBitsAt j = s.ctBitsAt j := rfl
@[simp] theorem State.issued_nodeAt (r : List HostOp) (j : Nat) : (s.issued r).nodeAt j = s.nodeAt j := rfl
@[simp] theorem State.issued_srcAt (r : List HostOp) (j : Nat) : (s.issued r).srcAt j = s.srcAt j := rfl
@[simp] theorem State.issued_pkAt (r : List HostOp) (j : Nat) : (s.issued r).pkAt j = s.pkAt j := rfl
@[simp] theorem State.issued_outAt (r : List HostOp) (j : Nat) : (s.issued r).outAt j = s.outAt j := rfl
@[simp] theorem State.issued_input (r : List HostOp) : (s.issued r).input = s.input := rfl
@[simp] theorem State.issued_code (r : List HostOp) (j : Nat) : (s.issued r).code j = s.code j := rfl
@[simp] theorem State.issued_stream (r : List HostOp) : (s.issued r).stream = s.stream := rfl
@[simp] theorem State.issued_lmax (r : List HostOp) : (s.issued r).lmax = s.lmax := rfl
@[simp] theorem State.issued_matchCode (r : List HostOp) (c : BitString) : (s.issued r).matchCode c = s.matchCode c := rfl
@[simp] theorem State.issued_present (r : List HostOp) : (s.issued r).present = s.present := rfl

@[simp] theorem State.tick_cfg : s.tick.cfg = s.cfg := rfl
@[simp] theorem State.tick_busy : s.tick.busy = s.busy := rfl
@[simp] theorem State.tick_done : s.tick.done = s.done := rfl
@[simp] theorem State.tick_tv : s.tick.tv = s.tv := rfl
@[simp] theorem State.tick_err : s.tick.err = s.err := rfl
@[simp] theorem State.tick_cur : s.tick.cur = s.cur := rfl
@[simp] theorem State.tick_errInfo : s.tick.errInfo = s.errInfo := rfl
@[simp] theorem State.tick_srcLen : s.tick.srcLen = s.srcLen := rfl
@[simp] theorem State.tick_byteCount : s.tick.byteCount = s.byteCount := rfl
@[simp] theorem State.tick_bitCount : s.tick.bitCount = s.bitCount := rfl
@[simp] theorem State.tick_outLen : s.tick.outLen = s.outLen := rfl
@[simp] theorem State.tick_root : s.tick.root = s.root := rfl
@[simp] theorem State.tick_nodeCount : s.tick.nodeCount = s.nodeCount := rfl
@[simp] theorem State.tick_freq : s.tick.freq = s.freq := rfl
@[simp] theorem State.tick_ctLen : s.tick.ctLen = s.ctLen := rfl
@[simp] theorem State.tick_ctBits : s.tick.ctBits = s.ctBits := rfl
@[simp] theorem State.tick_node : s.tick.node = s.node := rfl
@[simp] theorem State.tick_src : s.tick.src = s.src := rfl
@[simp] theorem State.tick_pk : s.tick.pk = s.pk := rfl
@[simp] theorem State.tick_out : s.tick.out = s.out := rfl
@[simp] theorem State.tick_powerOns : s.tick.powerOns = s.powerOns := rfl
@[simp] theorem State.tick_host : s.tick.host = { s.host with delay := s.host.delay - 1 } := rfl
@[simp] theorem State.tick_freqAt (j : Nat) : s.tick.freqAt j = s.freqAt j := rfl
@[simp] theorem State.tick_ctLenAt (j : Nat) : s.tick.ctLenAt j = s.ctLenAt j := rfl
@[simp] theorem State.tick_ctBitsAt (j : Nat) : s.tick.ctBitsAt j = s.ctBitsAt j := rfl
@[simp] theorem State.tick_nodeAt (j : Nat) : s.tick.nodeAt j = s.nodeAt j := rfl
@[simp] theorem State.tick_srcAt (j : Nat) : s.tick.srcAt j = s.srcAt j := rfl
@[simp] theorem State.tick_pkAt (j : Nat) : s.tick.pkAt j = s.pkAt j := rfl
@[simp] theorem State.tick_outAt (j : Nat) : s.tick.outAt j = s.outAt j := rfl
@[simp] theorem State.tick_input : s.tick.input = s.input := rfl
@[simp] theorem State.tick_code (j : Nat) : s.tick.code j = s.code j := rfl
@[simp] theorem State.tick_stream : s.tick.stream = s.stream := rfl
@[simp] theorem State.tick_lmax : s.tick.lmax = s.lmax := rfl
@[simp] theorem State.tick_matchCode (c : BitString) : s.tick.matchCode c = s.matchCode c := rfl
@[simp] theorem State.tick_present : s.tick.present = s.present := rfl

@[simp] theorem State.setFreq_freqAt_self (i : Nat) (v : Word) : (s.setFreq i v).freqAt i = v :=
  Table.getD_write_self _ s.freq i v
theorem State.setFreq_freqAt_ne {i j : Nat} (v : Word) (h : j ≠ i) : (s.setFreq i v).freqAt j = s.freqAt j :=
  by simp only [State.freqAt, State.setFreq_freq, Table.find_write_ne _ _ _ h]

@[simp] theorem State.setCtLen_ctLenAt_self (i : Nat) (v : Byte) : (s.setCtLen i v).ctLenAt i = v :=
  Table.getD_write_self _ s.ctLen i v
theorem State.setCtLen_ctLenAt_ne {i j : Nat} (v : Byte) (h : j ≠ i) : (s.setCtLen i v).ctLenAt j = s.ctLenAt j :=
  by simp only [State.ctLenAt, State.setCtLen_ctLen, Table.find_write_ne _ _ _ h]

@[simp] theorem State.setCtBits_ctBitsAt_self (i : Nat) (v : Byte) : (s.setCtBits i v).ctBitsAt i = v :=
  Table.getD_write_self _ s.ctBits i v
theorem State.setCtBits_ctBitsAt_ne {i j : Nat} (v : Byte) (h : j ≠ i) : (s.setCtBits i v).ctBitsAt j = s.ctBitsAt j :=
  by simp only [State.ctBitsAt, State.setCtBits_ctBits, Table.find_write_ne _ _ _ h]

@[simp] theorem State.setNode_nodeAt_self (i : Nat) (v : Node) : (s.setNode i v).nodeAt i = v :=
  Table.getD_write_self _ s.node i v
theorem State.setNode_nodeAt_ne {i j : Nat} (v : Node) (h : j ≠ i) : (s.setNode i v).nodeAt j = s.nodeAt j :=
  by simp only [State.nodeAt, State.setNode_node, Table.find_write_ne _ _ _ h]

@[simp] theorem State.setSrc_srcAt_self (i : Nat) (v : Byte) : (s.setSrc i v).srcAt i = v :=
  by simp [State.srcAt, Memory.unwritten, Table.find_write_unwritten]
theorem State.setSrc_srcAt_ne {i j : Nat} (v : Byte) (h : j ≠ i) : (s.setSrc i v).srcAt j = s.srcAt j :=
  by simp only [State.srcAt, State.setSrc_src, State.setSrc_powerOns, Table.find_write_ne _ _ _ h]

@[simp] theorem State.setPk_pkAt_self (i : Nat) (v : Byte) : (s.setPk i v).pkAt i = v :=
  by simp [State.pkAt, Memory.unwritten, Table.find_write_unwritten]
theorem State.setPk_pkAt_ne {i j : Nat} (v : Byte) (h : j ≠ i) : (s.setPk i v).pkAt j = s.pkAt j :=
  by simp only [State.pkAt, State.setPk_pk, State.setPk_powerOns, Table.find_write_ne _ _ _ h]

@[simp] theorem State.setOut_outAt_self (i : Nat) (v : Byte) : (s.setOut i v).outAt i = v :=
  by simp [State.outAt, Memory.unwritten, Table.find_write_unwritten]
theorem State.setOut_outAt_ne {i j : Nat} (v : Byte) (h : j ≠ i) : (s.setOut i v).outAt j = s.outAt j :=
  by simp only [State.outAt, State.setOut_out, State.setOut_powerOns, Table.find_write_ne _ _ _ h]

@[simp] theorem State.zeroFreq_freqAt (j : Nat) : s.zeroFreq.freqAt j = 0#32 := rfl
@[simp] theorem State.zeroCodes_ctLenAt (j : Nat) : s.zeroCodes.ctLenAt j = 0#8 := rfl
@[simp] theorem State.zeroCodes_ctBitsAt (j : Nat) : s.zeroCodes.ctBitsAt j = 0#8 := rfl
@[simp] theorem State.zeroNodes_nodeAt (j : Nat) : s.zeroNodes.nodeAt j = Node.zero := rfl

end Sys2Proof.Machine
end

