-- ==== Sys2Proof/Laws/Bodies.lean ====
section
/-!
SUPPORT. What the shared operations of the commands can do: how a body ends and completes, which fields each loop can change, and
what one step is.
-/

namespace Sys2Proof.Machine

/-! ## Bodies -/

theorem Body.complete_next {b : Body} {t : State} (h : b.complete = .next t) :
    (∃ s, b = .returned s ∧ t = s.finish none) ∨ (∃ e s, b = .raised e s ∧ t = s.finish (some e)) := by
  cases b with
  | returned s => exact .inl ⟨s, rfl, by simpa [Body.complete] using h.symm⟩
  | raised e s => exact .inr ⟨e, s, rfl, by simpa [Body.complete] using h.symm⟩
  | stuck f => simp [Body.complete] at h

theorem Body.complete_not_refused (b : Body) (r : Refusal) : b.complete ≠ .refused r := by
  cases b <;> simp [Body.complete]

theorem Body.complete_fault {b : Body} {f : Fault} (h : b.complete = .fault f) : b = .stuck f := by
  cases b with
  | returned s => simp [Body.complete] at h
  | raised e s => simp [Body.complete] at h
  | stuck g => cases h; rfl

@[simp] theorem Body.withEffects_returned (i : Instr) (s : State) : Body.withEffects i (.returned s) = .returned s := rfl

@[simp] theorem Body.withEffects_raised (i : Instr) (e : CmdError) (s : State) :
    Body.withEffects i (.raised e s) = .raised e (errorEffects i s) := rfl

@[simp] theorem Body.withEffects_stuck (i : Instr) (f : Fault) : Body.withEffects i (.stuck f) = .stuck f := rfl

@[simp] theorem Body.andThen_returned (s : State) (k : State → Body) : (Body.returned s).andThen k = k s := rfl

@[simp] theorem Body.andThen_raised (e : CmdError) (s : State) (k : State → Body) :
    (Body.raised e s).andThen k = .raised e s := rfl

@[simp] theorem Body.andThen_stuck (f : Fault) (k : State → Body) : (Body.stuck f).andThen k = .stuck f := rfl

theorem Body.andThen_eq_returned {b : Body} {k : State → Body} {t : State} (h : b.andThen k = .returned t) :
    ∃ s, b = .returned s ∧ k s = .returned t := by
  cases b with
  | returned s => exact ⟨s, rfl, h⟩
  | raised e s => simp at h
  | stuck f => simp at h

theorem Body.andThen_eq_raised {b : Body} {k : State → Body} {e : CmdError} {t : State} (h : b.andThen k = .raised e t) :
    b = .raised e t ∨ ∃ s, b = .returned s ∧ k s = .raised e t := by
  cases b with
  | returned s => exact .inr ⟨s, rfl, h⟩
  | raised e' s => exact .inl h
  | stuck f => simp at h

theorem State.finish_eq_reported (s : State) (e : Option CmdError) :
    s.finish e = s.reported (resultCode e) (resultInfo e) := rfl

/-! ## The loops change one space each -/

theorem countByte_foldl_frame (bs : List Byte) (s : State) :
    ∃ f, bs.foldl countByte s = { s with freq := f } := by
  induction bs generalizing s with
  | nil => exact ⟨s.freq, rfl⟩
  | cons b bs ih => obtain ⟨f, hf⟩ := ih (countByte s b); exact ⟨f, by rw [List.foldl_cons, hf]; rfl⟩

theorem seedLeaves_frame (l : List Nat) (h : Nat) (s : State) (q : Queue) :
    ∃ n, (seedLeaves l h s q).1 = { s with node := n } := by
  induction l generalizing h s q with
  | nil => exact ⟨s.node, rfl⟩
  | cons x l ih =>
    obtain ⟨n, hn⟩ := ih (h + 1) (s.setNode h (leafNode x (s.freqAt x)))
      (Queue.insert q ⟨(s.freqAt x).setWidth 40, BitVec.ofNat 9 h⟩)
    exact ⟨n, by rw [seedLeaves, hn]; rfl⟩

theorem mergeAll_frame (fuel h : Nat) (s : State) (q : Queue) :
    ∃ n, (mergeAll fuel h s q).1 = { s with node := n } := by
  induction fuel generalizing h s q with
  | zero => exact ⟨s.node, rfl⟩
  | succ fuel ih =>
    match q with
    | [] => exact ⟨s.node, rfl⟩
    | [_] => exact ⟨s.node, rfl⟩
    | a :: b :: q =>
      obtain ⟨n, hn⟩ := ih (h + 1) (s.setNode h (mergedNode a b)) (Queue.insert q ⟨a.weight + b.weight, BitVec.ofNat 9 h⟩)
      exact ⟨n, by simp only [mergeAll, Queue.extractMin]; rw [hn]; rfl⟩

theorem buildTree_frame (s : State) :
    ∃ n v r c, buildTree s = { s with node := n, tv := v, root := r, nodeCount := c } := by
  unfold buildTree takeRoot
  obtain ⟨n, hn⟩ := seedLeaves_frame s.present 0 s []
  obtain ⟨m, hm⟩ := mergeAll_frame s.present.length s.present.length (seedLeaves s.present 0 s []).1
    (seedLeaves s.present 0 s []).2
  simp only
  rw [hm, hn]
  split
  · exact ⟨m, s.tv, s.root, s.nodeCount, rfl⟩
  · exact ⟨m, _, _, _, rfl⟩

theorem writeBits_frame (sym : Nat) (path : BitString) (k : Nat) (s : State) :
    ∃ b, writeBits sym path k s = { s with ctBits := b } := by
  induction path generalizing k s with
  | nil => exact ⟨s.ctBits, rfl⟩
  | cons x path ih =>
    obtain ⟨b, hb⟩ := ih (k + 1) (if x then setCodeBit s sym k else s)
    refine ⟨b, ?_⟩
    rw [writeBits, hb]
    cases x <;> rfl

theorem writeCode_frame (s : State) (sym : Nat) (path : BitString) :
    ∃ l b, writeCode s sym path = { s with ctLen := l, ctBits := b } := by
  obtain ⟨b, hb⟩ := writeBits_frame sym path 0 (s.setCtLen sym (BitVec.ofNat 8 path.length))
  exact ⟨_, b, by rw [writeCode, hb]; rfl⟩

theorem walk_returned_frame (fuel h : Nat) (path : BitString) (s t : State) (hw : walk fuel h path s = .returned t) :
    ∃ l b, t = { s with ctLen := l, ctBits := b } := by
  induction fuel generalizing h path s t with
  | zero => simp [walk] at hw
  | succ fuel ih =>
    simp only [walk] at hw
    split at hw
    · obtain ⟨l, b, hlb⟩ := writeCode_frame s (s.nodeAt h).sym.toNat path
      exact ⟨l, b, by rw [← hlb]; exact (Body.returned.inj hw).symm⟩
    · obtain ⟨u, hu, ht⟩ := Body.andThen_eq_returned hw
      obtain ⟨l, b, rfl⟩ := ih _ _ _ _ hu
      obtain ⟨l', b', rfl⟩ := ih _ _ _ _ ht
      exact ⟨l', b', rfl⟩

theorem walk_not_raised (fuel h : Nat) (path : BitString) (s t : State) (e : CmdError) : walk fuel h path s ≠ .raised e t := by
  induction fuel generalizing h path s t with
  | zero => simp [walk]
  | succ fuel ih =>
    intro hw
    simp only [walk] at hw
    split at hw
    · simp at hw
    · rcases Body.andThen_eq_raised hw with hw | ⟨u, -, hw⟩
      · exact ih _ _ _ _ hw
      · exact ih _ _ _ _ hw

/-- Of the two ends of `packBits` and `packBytes`, the state. -/
def packState : Except (CmdError × State) (State × Packer) → State
  | .error e => e.2
  | .ok r => r.1

theorem packBits_frame (bs : BitString) (s : State) (p : Packer) : ∃ m, packState (packBits bs s p) = { s with pk := m } := by
  induction bs generalizing s p with
  | nil => exact ⟨s.pk, rfl⟩
  | cons b bs ih =>
    simp only [packBits]
    split
    · exact ⟨s.pk, rfl⟩
    · split
      · obtain ⟨m, hm⟩ := ih (s.setPk p.nbytes (shiftIn p.acc b)) ⟨0#8, 0, p.nbytes + 1, p.nbits + 1⟩
        exact ⟨m, hm⟩
      · exact ih _ _

theorem packBytes_frame (bs : List Byte) (i : Nat) (s : State) (p : Packer) :
    ∃ m, packState (packBytes bs i s p) = { s with pk := m } := by
  induction bs generalizing i s p with
  | nil => exact ⟨s.pk, rfl⟩
  | cons b bs ih =>
    simp only [packBytes]
    split
    · exact ⟨s.pk, rfl⟩
    · have hf := packBits_frame (s.code b.toNat) s p
      split
      · rename_i h; rw [h] at hf; exact hf
      · rename_i s' p' h
        rw [h] at hf
        obtain ⟨m, hm⟩ := hf
        change s' = _ at hm
        subst hm
        obtain ⟨m', hm'⟩ := ih (i + 1) { s with pk := m } p'
        exact ⟨m', hm'⟩

theorem packEnd_frame (s : State) (p : Packer) :
    ∃ m a b, packEnd s p = { s with pk := m, bitCount := a, byteCount := b } := by
  unfold packEnd
  split
  · exact ⟨_, _, _, rfl⟩
  · exact ⟨s.pk, _, _, rfl⟩

/-- Of the two ends of `unpackBits`, the state. -/
def unpackState : Except (CmdError × State) (State × Nat) → State
  | .error e => e.2
  | .ok r => r.1

theorem unpackBits_frame (n : Nat) (bs : BitString) (j : Nat) (s : State) (u : Unpacker) :
    ∃ m, unpackState (unpackBits n bs j s u) = { s with out := m } := by
  induction bs generalizing j s u with
  | nil =>
    simp only [unpackBits]
    split <;> exact ⟨s.out, rfl⟩
  | cons b bs ih =>
    simp only [unpackBits]
    split
    · split
      · exact ⟨s.out, rfl⟩
      · rename_i m _ _
        obtain ⟨k, hk⟩ := ih (j + 1) (s.setOut u.nout (BitVec.ofNat 8 m)) ⟨[], j + 1, u.nout + 1⟩
        exact ⟨k, hk⟩
    · split
      · exact ⟨s.out, rfl⟩
      · exact ih _ _ _

/-! ## The step -/

theorem step_of_engineTurn {s : State} (h : s.engineTurn) : step s = completion s := if_pos h

theorem step_of_busy {s : State} (h : ¬ s.engineTurn) (hb : s.busy = true) : step s = hostStep s.tick := by
  simp only [step, if_neg h, if_pos hb]

theorem step_of_idle {s : State} (hb : s.busy = false) : step s = hostStep s := by
  have h : ¬ s.engineTurn := by simp [State.engineTurn, hb]
  simp [step, h, hb]

/-- Everything one step can be. -/
theorem step_cases (s : State) :
    (s.engineTurn ∧ ((∃ i, decode s.cur = .ok i ∧ step s = exec i s) ∨ (∃ e, decode s.cur = .error e ∧ step s = completeIllegal s))) ∨
    (¬ s.engineTurn ∧ s.busy = true ∧ step s = hostStep s.tick) ∨
    (s.busy = false ∧ step s = hostStep s) := by
  by_cases h : s.engineTurn
  · refine .inl ⟨h, ?_⟩
    cases hd : decode s.cur with
    | ok i => exact .inl ⟨i, rfl, by rw [step_of_engineTurn h, completion, hd]⟩
    | error e => exact .inr ⟨e, rfl, by rw [step_of_engineTurn h, completion, hd]⟩
  · cases hb : s.busy with
    | true => exact .inr (.inl ⟨h, rfl, step_of_busy h hb⟩)
    | false => exact .inr (.inr ⟨rfl, step_of_idle hb⟩)

end Sys2Proof.Machine
end

