-- ==== Sys2Proof/Laws/PerInstr.lean ====
section
/-!
SUPPORT. The statements made of every command as syntax, one lemma per command: its word (30_encoding.md R60, R61).
-/

namespace Sys2Proof.Laws.CommandWord

/-- The command is well-formed, its word has the reserved field zero, and the word decodes to the command. -/
def Statement (i : Instr) : Prop :=
  i.wf = true ∧ rsvField (encode i) = 0#24 ∧ opcField (encode i) = i.opc ∧ decode (encode i) = .ok i

theorem nop : Statement .nop := ⟨rfl, rfl, rfl, rfl⟩

theorem clear : Statement .clear := ⟨rfl, rfl, rfl, rfl⟩

theorem fcount : Statement .fcount := ⟨rfl, rfl, rfl, rfl⟩

theorem tbuild : Statement .tbuild := ⟨rfl, rfl, rfl, rfl⟩

theorem cgen : Statement .cgen := ⟨rfl, rfl, rfl, rfl⟩

theorem pack : Statement .pack := ⟨rfl, rfl, rfl, rfl⟩

theorem unpack : Statement .unpack := ⟨rfl, rfl, rfl, rfl⟩

theorem encode : Statement .encode := ⟨rfl, rfl, rfl, rfl⟩

end Sys2Proof.Laws.CommandWord
end

