-- ==== Sys2Proof/Laws/Scan.lean ====
section
/-!
SUPPORT. The words of the claims about the greedy scan (45_unpack.md R119, R121): what it emits is determined by the table and the
stream, so that a statement about what it emits is about one message.
-/

namespace Sys2Proof.Machine

@[simp] theorem State.emits_nil (s : State) (bs : BitString) : s.emits bs [] := trivial

@[simp] theorem State.emits_cons (s : State) (bs : BitString) (b : Byte) (msg : List Byte) :
    s.emits bs (b :: msg) ↔ s.firstMatch bs b.toNat ∧ s.emits (bs.drop (s.code b.toNat).length) msg := Iff.rfl

/-- The candidate of one bit is the shortest there is: its match is the first. -/
theorem State.firstMatch_of_one {s : State} {c : Bool} {bs : BitString} {m : Nat} (h : s.matchCode [c] = some m) :
    s.firstMatch (c :: bs) m :=
  ⟨1, by omega, by simp, by simpa using h, fun j h1 h2 => by omega⟩

theorem State.firstMatch_unique {s : State} {bs : BitString} {m n : Nat} (hm : s.firstMatch bs m) (hn : s.firstMatch bs n) :
    m = n := by
  obtain ⟨l, hl, -, hlm, hlnone⟩ := hm
  obtain ⟨k, hk, -, hkn, hknone⟩ := hn
  rcases Nat.lt_trichotomy l k with h | rfl | h
  · rw [hknone l hl h] at hlm; cases hlm
  · rw [hlm] at hkn; exact Option.some.inj hkn
  · rw [hlnone k hk h] at hkn; cases hkn

/-- Of two messages that the scan emits, one begins with the other. -/
theorem State.emits_prefix {s : State} {bs : BitString} {msg other : List Byte} (h : s.emits bs msg) (ho : s.emits bs other)
    (hl : msg.length ≤ other.length) : msg <+: other := by
  induction msg generalizing bs other with
  | nil => exact List.nil_prefix
  | cons b msg ih =>
    cases other with
    | nil => simp at hl
    | cons c other =>
      obtain rfl : b = c := BitVec.eq_of_toNat_eq (State.firstMatch_unique h.1 ho.1)
      exact List.cons_prefix_cons.2 ⟨rfl, ih h.2 ho.2 (by simpa using hl)⟩

end Sys2Proof.Machine
end

