-- ==== Sys2Proof/Tests/Slice0.lean ====
section
/-!
SUPPORT. The model's own tests: the refusals of WellFormed, command words written out bit by bit, one or two vectors of
95_test_vectors.md for each command, and for every statement with hypotheses a state that meets them.
-/

namespace Sys2Proof.Tests

open Sys2Proof.Machine

/-! ## WellFormed refuses what is ill-formed -/

theorem test_config_srcMax_zero : ¬ Config.wf ⟨0, 1⟩ := by decide

theorem test_config_srcMax_large : ¬ Config.wf ⟨2 ^ 24 + 1, 1⟩ := by decide

theorem test_config_pkMax_zero : ¬ Config.wf ⟨1, 0⟩ := by decide

theorem test_config_pkMax_large : ¬ Config.wf ⟨1, 2 ^ 24 + 1⟩ := by decide

theorem test_config_default_wf : Config.default.wf := by decide

theorem test_cells_out_of_range :
    ([.freq 256, .ctLen 256, .ctBits 8192, .nodeInfo 512, .nodeWlo 512, .nodeWhi 512, .src 16, .pk 1, .out 16, .unmapped] :
      List Cell).all (fun c => !Cell.wf ⟨16, 1⟩ c) = true := by decide

theorem test_cells_in_range :
    ([.reg .id, .freq 255, .ctLen 255, .ctBits 8191, .nodeInfo 511, .nodeWlo 511, .nodeWhi 511, .src 15, .pk 0, .out 15] :
      List Cell).all (fun c => Cell.wf ⟨16, 1⟩ c) = true := by decide

theorem test_code_empty : BitString.wf [] = false := by decide

theorem test_code_too_long : BitString.wf (List.replicate 256 true) = false := by decide +kernel

theorem test_container_symbol : Container.wf ⟨16, 1⟩ ⟨[(256, [true])], [], 0, 0⟩ = false := by decide

theorem test_container_code : Container.wf ⟨16, 1⟩ ⟨[(0, [])], [], 0, 0⟩ = false := by decide

theorem test_container_payload : Container.wf ⟨16, 1⟩ ⟨[], [0, 0], 0, 0⟩ = false := by decide

theorem test_partial_access : HostOp.wf (.partialAccess 0) = false := by decide

theorem test_every_command_wf : Instr.all.all Instr.wf = true := by decide

/-! ## Decoding: the words of 30_encoding.md R61, bit by bit (RSV, then OPC) -/

theorem test_decode_nop : decode 0b000000000000000000000000_00000000#32 = .ok .nop := by decide

theorem test_decode_clear : decode 0b000000000000000000000000_00000001#32 = .ok .clear := by decide

theorem test_decode_fcount : decode 0b000000000000000000000000_00000010#32 = .ok .fcount := by decide

theorem test_decode_tbuild : decode 0b000000000000000000000000_00000011#32 = .ok .tbuild := by decide

theorem test_decode_cgen : decode 0b000000000000000000000000_00000100#32 = .ok .cgen := by decide

theorem test_decode_pack : decode 0b000000000000000000000000_00000101#32 = .ok .pack := by decide

theorem test_decode_unpack : decode 0b000000000000000000000000_00000110#32 = .ok .unpack := by decide

theorem test_decode_encode : decode 0b000000000000000000000000_00000111#32 = .ok .encode := by decide

/-- V-IL1 to V-IL5. -/
theorem test_decode_illegal :
    decode 0x00000008#32 = .error (.illegalOpcode 0x08#8) ∧ decode 0x000000FF#32 = .error (.illegalOpcode 0xFF#8) ∧
    decode 0x00000100#32 = .error (.reservedBits 0x000001#24) ∧ decode 0x80000007#32 = .error (.reservedBits 0x800000#24) ∧
    decode 0xFFFFFFFF#32 = .error (.reservedBits 0xFFFFFF#24) := by decide

/-! ## Small states -/

/-- The state an outcome goes on from. -/
def nextOf : Host.Outcome State Fault Refusal → Option State
  | .next t => some t
  | .fault _ => none
  | .refused _ => none

/-- A reader of the next state of a command. -/
def after {β : Type} (i : Instr) (s : State) (f : State → β) : Option β := (nextOf (exec i s)).map f

/-- Writes consecutive cells of `SRC` from index `k` on. -/
def putSrc : Nat → List Byte → State → State
  | _, [], s => s
  | k, b :: bs, s => putSrc (k + 1) bs (s.setSrc k b)

/-- Writes consecutive cells of `PK` from index `k` on. -/
def putPk : Nat → List Byte → State → State
  | _, [], s => s
  | k, b :: bs, s => putPk (k + 1) bs (s.setPk k b)

/-- `LOAD SRC`. -/
def withSrc (bs : List Byte) (s : State) : State := { putSrc 0 bs s with srcLen := BitVec.ofNat 32 bs.length }

/-- A container's payload and counts. -/
def withPk (bs : List Byte) (bits : Nat) (s : State) : State :=
  { putPk 0 bs s with byteCount := BitVec.ofNat 32 bs.length, bitCount := BitVec.ofNat 32 bits }

/-- `SETCODE` for each entry. -/
def withCodes (l : List (Nat × BitString)) (s : State) : State := l.foldl (fun t e => writeCode t e.1 e.2) s

/-- Non-zero cells of `FREQ`. -/
def withFreq (l : List (Nat × Word)) (s : State) : State := l.foldl (fun t e => t.setFreq e.1 e.2) s

/-- Slots of the arena. -/
def withNodes (l : List (Nat × Node)) (s : State) : State := l.foldl (fun t e => t.setNode e.1 e.2) s

/-- An engine with `SRC_MAX = 16`, `PK_MAX = 1` (program P5), after reset. -/
def small : State := State.resetOf ⟨16, 1⟩ 0 HostSide.idle

/-- Table T1 of 95_test_vectors.md section 2.5: A = `0`, B = `10`, C = `11`. -/
def t1 : List (Nat × BitString) := [(0x41, [false]), (0x42, [true, false]), (0x43, [true, true])]

/-- A leaf and an internal slot as 95_test_vectors.md writes them. -/
def L (sym : Byte) (w : Weight) : Node := ⟨.leaf, sym, w, 0, 0⟩

def I (w : Weight) (l r : Handle) : Node := ⟨.internal, 0, w, l, r⟩

/-- The tree of V-TB2: `L(A,2)`, `L(B,1)`, `I(3, 1, 0)`. -/
def twoLeafTree : State :=
  { withNodes [(0, L 0x41 2), (1, L 0x42 1), (2, I 3 1 0)] State.reset with tv := true, root := 2, nodeCount := 3 }

/-- The tree of V-TB1. -/
def threeLeafTree : State :=
  { withNodes [(0, L 0x41 2), (1, L 0x42 1), (2, L 0x43 1), (3, I 2 1 2), (4, I 4 0 3)] State.reset with
    tv := true, root := 4, nodeCount := 5 }

/-! ## Vectors of 95_test_vectors.md -/

/-- V-SY1. -/
theorem test_nop_clears_the_report :
    after .nop { State.reset with err := .insufficientAlphabet, errInfo := 1 } (fun t => (t.status, t.errInfo)) =
      some (0x02#32, 0#32) := by decide

/-- V-SY3, in part. -/
theorem test_clear_keeps_the_buffers :
    after .clear (withSrc [0x41] { threeLeafTree with outLen := 4 })
      (fun t => (t.status, t.outLen, t.srcLen, (t.nodeAt 4).infoWord, t.srcAt 0)) =
      some (0x02#32, 0#32, 0#32, 0#32, 0x41#8) := by decide

/-- V-FC4. -/
theorem test_fcount_unsigned_index :
    after .fcount (withSrc [0x00, 0xFF, 0xFF, 0x00, 0x80, 0xFF, 0xFF, 0xFF, 0xFF] State.reset)
      (fun t => (t.freqAt 0, t.freqAt 0x80, t.freqAt 0xFF, t.freqAt 0x41, t.status)) =
      some (2#32, 1#32, 6#32, 0#32, 0x02#32) := by decide

/-- V-FC5. -/
theorem test_fcount_capacity :
    after .fcount { withFreq [(0x41, 7)] State.reset with srcLen := 65537 } (fun t => (t.freqAt 0x41, t.status, t.errInfo)) =
      some (7#32, 0x52#32, 3#32) := by decide

/-- V-TB10: a merged node can be the left child. -/
theorem test_tbuild_mississippi :
    after .tbuild (withFreq [(0x49, 4), (0x4D, 1), (0x50, 2), (0x53, 4)] State.reset)
      (fun t => ([0, 1, 2, 3, 4, 5, 6].map t.nodeAt, t.root, t.nodeCount, t.status)) =
      some ([L 0x49 4, L 0x4D 1, L 0x50 2, L 0x53 4, I 3 1 2, I 7 4 0, I 11 3 5], 6#9, 7#10, 0x06#32) := by decide +kernel

/-- V-TB16: weights do not wrap at 32 bits. -/
theorem test_tbuild_weight_is_40_bits :
    after .tbuild (withFreq [(0x41, 1), (0x42, 0xFFFFFFFF)] State.reset)
      (fun t => (t.content (.nodeWlo 2), t.content (.nodeWhi 2), t.content (.nodeInfo 2))) =
      some (0#32, 1#32, 0x80020000#32) := by decide +kernel

/-- V-CG1 on the tree of V-TB1. -/
theorem test_cgen_codes :
    after .cgen threeLeafTree (fun t => (t.code 0x41, t.code 0x42, t.code 0x43, t.ctBitsAt 0x820, t.ctBitsAt 0x840, t.ctBitsAt 0x860)) =
      some ([false], [true, false], [true, true], 0x00#8, 0x80#8, 0xC0#8) := by decide +kernel

/-- V-CG10. -/
theorem test_cgen_without_tree :
    after .cgen (withCodes [(0x5A, [true, false, true])] State.reset) (fun t => (t.status, t.errInfo, t.code 0x5A)) =
      some (0x72#32, 0#32, [true, false, true]) := by decide +kernel

/-- V-PK2: the final group is right-aligned. -/
theorem test_pack_right_aligned :
    after .pack (withSrc [0x41, 0x42, 0x41] (withCodes [(0x42, [false]), (0x41, [true])] State.reset))
      (fun t => (t.bitCount, t.byteCount, t.pkAt 0)) = some (3#32, 1#32, 0x05#8) := by decide +kernel

/-- V-PK11: the completed group stays written after the error. -/
theorem test_pack_missing_code :
    after .pack (withSrc [0x41, 0x41, 0x42, 0x42, 0x42, 0x42, 0x43, 0x41]
      (putPk 0 [0x77, 0x77] (withCodes [(0x41, [false]), (0x42, [true, false])] State.reset)))
      (fun t => (t.status, t.errInfo, t.bitCount, t.byteCount, t.pkAt 0, t.pkAt 1)) =
      some (0x32#32, 6#32, 0#32, 0#32, 0x2A#8, 0x77#8) := by decide +kernel

/-- V-UN2: the padding bits are not read. -/
theorem test_unpack_padding :
    after .unpack (withPk [0xCB] 6 (withCodes t1 State.reset))
      (fun t => (t.outLen, [0, 1, 2, 3].map t.outAt, t.status)) =
      some (4#32, [0x41#8, 0x41#8, 0x42#8, 0x43#8], 0x02#32) := by decide +kernel

/-- V-UN10: a leftover candidate. -/
theorem test_unpack_leftover :
    after .unpack (withPk [0x0B, 0x01] 10 (withCodes t1 State.reset)) (fun t => (t.outLen, t.status, t.errInfo, t.outAt 6)) =
      some (0#32, 0x42#32, 9#32, 0x41#8) := by decide +kernel

/-- V-EN1. -/
theorem test_encode_aabc :
    after .encode (withSrc [0x41, 0x41, 0x42, 0x43] State.reset)
      (fun t => ([t.root.setWidth 32, t.nodeCount.setWidth 32, t.bitCount, t.byteCount, t.status], t.pkAt 0, t.code 0x43)) =
      some ([4#32, 5#32, 6#32, 1#32, 0x06#32], 0x0B#8, [true, true]) := by decide +kernel

/-- V-EN6: the stream does not fit one byte of `PK`. -/
theorem test_encode_capacity :
    after .encode (withSrc [0x41, 0x42, 0x41, 0x42, 0x41, 0x42, 0x41, 0x42, 0x41] small)
      (fun t => ([t.status, t.errInfo, t.bitCount, t.byteCount], t.pkAt 0, t.code 0x41)) =
      some ([0x56#32, 1#32, 0#32, 0#32], 0xAA#8, [true]) := by decide +kernel

/-- V-IL4 from reset: an illegal word completes. -/
theorem test_illegal_word :
    (nextOf (step { State.reset with busy := true, cur := 0x80000007#32 })).map (fun t => (t.status, t.errInfo)) =
      some (0x62#32, 0x80000007#32) := by decide

/-- V-HP5, its first read and its ignored write: an accepted ENCODE with one host operation before its completion. -/
theorem test_busy_protocol :
    (nextOf (step { State.reset with
      busy := true, cur := 7#32, host := { HostSide.idle with script := [.write 0x0000004#26 9#32], delay := 1 } })).map
        (fun t => (t.status, t.srcLen, t.host.delay)) = some (0x01#32, 0#32, 0) := by decide

/-- V-HP3: a write keeps the low bits. -/
theorem test_host_write_truncates :
    (hostWrite State.reset 0x0000205#26 0x1FF#32).ctLenAt 5 = 0xFF#8 ∧
    (hostWrite State.reset 0x1000000#26 0x12345678#32).srcAt 0 = 0x78#8 := by decide

/-- V-HP4: unmapped addresses. -/
theorem test_unmapped_reads_zero :
    [0x0000010#26, 0x00000FF#26, 0x0000300#26, 0x0000A00#26, 0x00005FF#26, 0x0004000#26, 0x1010000#26].map
      (hostReadValue State.reset) = [0#32, 0#32, 0#32, 0#32, 0#32, 0#32, 0#32] := by decide

/-! ## Witnesses: states that meet the hypotheses of the statements, one theorem a statement -/

theorem reset_cfg_wf : State.reset.cfg.wf := by decide

/-- The tree of V-TB2 meets R33. -/
theorem twoLeafTree_inv : twoLeafTree.TreeInv where
  size := by decide
  rootLast := by decide
  leaves := by
    intro h hh
    have : h < 2 := hh
    interval_cases h <;> decide
  ascending := by
    intro h k hk hk2
    have : k < 2 := hk2
    interval_cases k <;> interval_cases h
    decide
  merged := by
    intro h h1 h2
    have h1' : 2 ≤ h := h1
    have h2' : h < 3 := h2
    interval_cases h
    decide
  oneParent := by
    intro h hh
    have : h < 2 := hh
    refine ⟨2, ⟨by decide, by decide, ?_⟩, ?_⟩
    · interval_cases h <;> decide
    · rintro q ⟨h1, h2, -⟩
      have h1' : 2 ≤ q := h1
      have h2' : q < 3 := h2
      omega

/-- A state that meets the invariant, with a completion owed and one host read before it. -/
def busyWith (w : Word) : State :=
  { State.reset with busy := true, cur := w, host := { HostSide.idle with script := [.read 0#26, .wait], delay := 1 } }

/-- The same with UNPACK accepted. -/
def busyState : State := busyWith (encode .unpack)

/-- A table with nothing listed is in canonical form. -/
theorem empty_wf {α : Type} [DecidableEq α] (d : Option α) (n : Nat) :
    Table.wf d ([] : Table α) ∧ Table.below n ([] : Table α) :=
  ⟨⟨.nil, by simp⟩, by simp⟩

theorem busyWith_inv (w : Word) : (busyWith w).Inv where
  cfg := reset_cfg_wf
  freq := empty_wf _ _
  ctLen := empty_wf _ _
  ctBits := empty_wf _ _
  node := empty_wf _ _
  src := empty_wf _ _
  pk := empty_wf _ _
  out := empty_wf _ _
  notBoth := fun h => by cases h.2
  noReport := fun _ => rfl
  successInfo := fun h => by cases h
  tree := fun h => by cases h
  noTree := fun _ => ⟨rfl, rfl⟩
  slots := fun _ => ⟨fun _ => ⟨rfl, rfl⟩, fun hk => by cases hk⟩
  outLen := Nat.zero_le _

theorem busyState_inv : busyState.Inv := busyWith_inv _

theorem witness_StepCompletesTheDecodedCommand :
    (State.withFetchWord State.reset 32 2).engineTurn ∧ decode (State.withFetchWord State.reset 32 2).cur = .ok .fcount ∧
    ¬ busyState.engineTurn ∧ busyState.busy = true ∧ State.reset.busy = false := by decide

theorem witness_IllegalWordCompletes :
    ({ State.reset with busy := true, cur := 8#32 } : State).engineTurn ∧ ∀ i, (8#32 : Word) ≠ encode i :=
  ⟨by decide, fun i => by cases i <;> decide⟩

theorem witness_CommandsReportOnlyTheirErrors : ∃ t, State.reset.cfg.wf ∧ exec .encode State.reset = .next t :=
  ⟨_, reset_cfg_wf, rfl⟩

theorem witness_ResetMeetsTheInvariant : Config.wf ⟨2 ^ 24, 1⟩ := by decide

theorem witness_ResetAbandonsTheCommand :
    ∃ s : State, s.host.script = .reset :: [] ∧ s.busy = true ∧ ¬ s.engineTurn :=
  ⟨{ busyState with host := { HostSide.idle with script := [.reset], delay := 1 } }, rfl, rfl, by decide⟩

theorem witness_StepKeepsTheInvariant : ∃ t, busyState.Inv ∧ step busyState = .next t := ⟨_, busyState_inv, rfl⟩

theorem witness_EveryCommandCompletes : ∃ s : State, s.Inv := ⟨busyState, busyState_inv⟩

theorem witness_NothingStopsTheMachine :
    busyState.Inv ∧ ∀ a rest, busyState.host.script ≠ .partialAccess a :: rest :=
  ⟨busyState_inv, fun _ _ h => by cases h⟩

theorem witness_AcceptedCommandCompletes :
    (busyState.Inv ∧ busyState.busy = true ∧ decode busyState.cur = .ok .unpack ∧
      ∀ op ∈ busyState.host.script.take busyState.host.delay, op ≠ .reset ∧ op.wf = true) ∧
    ((busyWith 8#32).Inv ∧ (busyWith 8#32).busy = true ∧ (∀ i, (busyWith 8#32).cur ≠ encode i) ∧
      ∀ op ∈ (busyWith 8#32).host.script.take (busyWith 8#32).host.delay, op ≠ .reset ∧ op.wf = true) :=
  ⟨⟨busyState_inv, by decide, by decide, by decide⟩, busyWith_inv _, rfl, fun i => by cases i <;> decide, by decide⟩

/-- TBUILD raises `TV`, CLEAR and a reset drop it. -/
theorem witness_TreeValidChangesOnlyByItsCommands :
    (nextOf (step (State.withFetchWord (withFreq [(0, 1), (1, 1)] State.reset) 32 3))).map (·.tv) = some true ∧
    (nextOf (step (State.withFetchWord twoLeafTree 32 1))).map (·.tv) = some false ∧
    (nextOf (step { twoLeafTree with host := { HostSide.idle with script := [.reset] } })).map (·.tv) = some false := by
  decide +kernel

/-- The host's turn while idle and while a completion is owed, for each operation of the statement. -/
theorem witness_HostTransactionIsOneStep :
    (¬ busyState.engineTurn ∧ busyState.busy = true ∧ busyState.host.script = [.read 0#26, .wait]) ∧
    (∀ op : HostOp, ∃ s : State, ¬ s.engineTurn ∧ s.busy = false ∧ s.host.script = [op]) ∧
    (∀ op : HostOp, ∃ s : State, ¬ s.engineTurn ∧ s.busy = true ∧ s.host.script = [op]) ∧
    (¬ State.reset.engineTurn ∧ State.reset.host.script = []) :=
  ⟨by decide, fun op => ⟨{ State.reset with host := { HostSide.idle with script := [op] } }, by simp [State.engineTurn, State.reset,
      State.resetOf], rfl, rfl⟩,
    fun op => ⟨{ busyState with host := { HostSide.idle with script := [op], delay := 1 } }, by simp [State.engineTurn], rfl, rfl⟩,
    by decide⟩

/-- Two steps of one script: a write of `SRC[0]`, then a read of it (R50). -/
theorem test_read_returns_the_last_write :
    (nextOf (Host.Core.run core 2
      { State.reset with host := { HostSide.idle with script := [.write 0x1000000#26 0x141#32, .read 0x1000000#26] } })).map
      (fun t : State => (t.host.reads, t.host.script)) = some ([(0x1000000#26, 0x41#32)], []) := by decide +kernel

theorem witness_CommandAcceptance : State.reset.busy = false ∧ busyState.busy = true := by decide

theorem witness_HostReadReturnsTheContent :
    State.reset.busy = false ∧ busyState.busy = true ∧
    cellOf busyState.cfg 0x000000B#26 ∈ [Cell.reg .id, .reg .status, .reg .capSrc, .reg .capPk] ∧
    cellOf busyState.cfg 0x0000009#26 ∉ [Cell.reg .id, .reg .status, .reg .capSrc, .reg .capPk] := by decide

/-- A first and a last address of the writable kinds of cell, and a read-only one. -/
theorem witness_HostWriteStoresTheLowBits :
    [0x1#26, 0x4#26, 0x5#26, 0x6#26, 0x100#26, 0x1FF#26, 0x2FF#26, 0x3FFF#26, 0x100FFFF#26, 0x200FFFF#26, 0x300FFFF#26].map
      (cellOf Config.default) =
      [.reg .cmd, .reg .srcLen, .reg .byteCount, .reg .bitCount, .freq 0, .freq 255, .ctLen 255, .ctBits 8191, .src 65535,
        .pk 65535, .out 65535] := by decide

/-- The first and last address of every row, and the addresses beside them (R43). -/
theorem witness_AddressMap :
    Config.wf ⟨2 ^ 24, 2 ^ 24⟩ ∧
    [0x0#26, 0xF#26, 0x10#26, 0xFF#26, 0x100#26, 0x1FF#26, 0x200#26, 0x2FF#26, 0x300#26, 0x3FF#26, 0x400#26, 0x5FF#26, 0x600#26,
      0x7FF#26, 0x800#26, 0x9FF#26, 0xA00#26, 0x1FFF#26, 0x2000#26, 0x3FFF#26, 0x4000#26, 0xFFFFFF#26, 0x1000000#26, 0x1FFFFFF#26,
      0x2000000#26, 0x2FFFFFF#26, 0x3000000#26, 0x3FFFFFF#26].map (cellOf ⟨2 ^ 24, 2 ^ 24⟩) =
      [.reg .id, .reg .reserved15, .unmapped, .unmapped, .freq 0, .freq 255, .ctLen 0, .ctLen 255, .unmapped, .unmapped, .nodeInfo 0,
        .nodeInfo 511, .nodeWlo 0, .nodeWlo 511, .nodeWhi 0, .nodeWhi 511, .unmapped, .unmapped, .ctBits 0, .ctBits 8191, .unmapped,
        .unmapped, .src 0, .src 16777215, .pk 0, .pk 16777215, .out 0, .out 16777215] := by decide

theorem witness_WritesDoNotAlias :
    State.reset.cfg.wf ∧ State.reset.busy = false ∧ Cell.wf State.reset.cfg (.src 65535) = true ∧
    Cell.src 65535 ≠ .reg .cmd ∧ Cell.out 65535 ≠ .src 65535 := by decide

theorem witness_HostCannotDisturbABusyEngine :
    ∃ t, busyState.busy = true ∧ hostStep busyState = .next t ∧ busyState.host.script.head? ≠ some .reset :=
  ⟨_, rfl, rfl, by decide⟩

theorem witness_HostCannotWriteTheTree :
    ∃ t, hostStep State.reset = .next t ∧ State.reset.host.script.head? ≠ some .reset := ⟨_, rfl, by decide⟩

/-- The last slot the arena has, and the cell beyond it (R26). -/
theorem witness_NodeViews :
    State.content (withNodes [(510, I 0x1FFFFFFFE 0 3)] State.reset) (.nodeInfo 510) = 0x80060000#32 ∧
    State.content (withNodes [(510, I 0x1FFFFFFFE 0 3)] State.reset) (.nodeWhi 510) = 1#32 ∧
    State.content (withNodes [(511, I 1 1 1)] State.reset) (.nodeInfo 511) = 0#32 := by decide

theorem witness_WaitPollsStatus :
    ∃ s r : State, s.host.script = [.wait] ∧ s.busy = false ∧ r.host.script = [.wait] ∧ r.busy = true ∧ ¬ r.engineTurn :=
  ⟨{ State.reset with host := { HostSide.idle with script := [.wait] } },
    { busyState with host := { HostSide.idle with script := [.wait], delay := 1 } }, rfl, rfl, rfl, rfl, by decide⟩

theorem witness_SetCodeLoadsTheCode :
    ∃ s : State, s.cfg.wf ∧ s.busy = false ∧ s.host.script = Script.setCode 255 (List.replicate 255 true) ++ [] ∧
      BitString.wf (List.replicate 255 true) = true :=
  ⟨{ State.reset with host := { HostSide.idle with script := Script.setCode 255 (List.replicate 255 true) ++ [] } },
    reset_cfg_wf, rfl, rfl, by decide +kernel⟩

/-- The clauses at their boundaries: `SRC_MAX + 1`, 0, 1 and `SRC_MAX`. -/
theorem witness_FcountCountsTheInput :
    ({ State.reset with srcLen := 65537 } : State).cfg.srcMax < (65537#32).toNat ∧
    State.reset.srcLen = 0#32 ∧
    State.reset.cfg.wf ∧ 0 < (1#32).toNat ∧ (65536#32).toNat ≤ State.reset.cfg.srcMax := by decide

theorem witness_FcountSumsToTheLength :
    after .fcount (withSrc [0x41] State.reset) (fun t => decide (t.err = .none)) = some true ∧
    (withSrc [0x41] State.reset).cfg.wf := by decide

theorem witness_QueueGivesTheLeastKey :
    ([⟨1, 1⟩, ⟨1, 2⟩, ⟨2, 0⟩] : Queue).Pairwise (fun a b => a.before b = true) ∧ (⟨2, 3⟩ : Entry) ∉ ([⟨1, 1⟩, ⟨1, 2⟩, ⟨2, 0⟩] : Queue) := by
  decide

theorem witness_TbuildRejectsSmallAlphabets :
    State.reset.present.length < 2 ∧ (withFreq [(255, 9)] State.reset).present.length = 1 := by decide +kernel

/-- Two symbols and 256. -/
theorem witness_TbuildBuildsTheTree :
    2 ≤ (withFreq [(0, 1), (255, 0xFFFFFFFF)] State.reset).present.length ∧
    (withFreq ((List.range 256).map (fun i => (i, 1#32))) State.reset).present.length = 256 := by decide +kernel

theorem witness_TbuildMergesTheTwoLeastKeys :
    after .tbuild (withFreq [(0x41, 1), (0x42, 1), (0x43, 2)] State.reset) (fun t => (t.tv, t.leafCount, t.nodeCount)) =
      some (true, 3, 5#10) := by decide +kernel

/-- A tree of the frequencies 1, 1, 2 whose first merge passes over the slot 1 of the second least key: R82 forbids it. -/
theorem test_other_pair_is_not_the_two_least :
    ¬ State.MergesTheTwoLeast { withNodes [(0, L 0x41 1), (1, L 0x42 1), (2, L 0x43 2), (3, I 3 0 2), (4, I 4 1 3)] State.reset with
      tv := true, root := 4, nodeCount := 5 } := by
  intro hm
  have h := (hm 3 (by decide) (by decide)).2.2.2 1 ⟨by decide, fun p h1 h2 => absurd (Nat.lt_of_le_of_lt h1 h2) (by decide)⟩
    (by decide) (by decide)
  unfold State.keyBefore at h
  revert h
  decide

theorem witness_TbuildMergeWeightsRise :
    after .tbuild (withFreq [(0, 1), (1, 1), (2, 1), (3, 1)] State.reset) (fun t => (t.tv, t.leafCount, t.nodeCount)) =
      some (true, 4, 7#10) := by decide +kernel

/-- Both clauses: equal weights, and the higher symbol the lighter (V-TB3, V-TB2). -/
theorem witness_TwoSymbolsGetOneBitEach :
    (withFreq [(0x41, 1), (0x42, 1)] State.reset).present = [0x41, 0x42] ∧
    (withFreq [(0x41, 2), (0x42, 1)] State.reset).present = [0x41, 0x42] := by decide +kernel

theorem witness_TreeIsAFunctionOfFreq :
    ∃ t t', (∀ i, i < 256 → State.reset.freqAt i = State.freqAt { State.reset with srcLen := 1 } i) ∧
      exec .tbuild State.reset = .next t ∧ exec .tbuild { State.reset with srcLen := 1 } = .next t' :=
  ⟨_, _, fun _ _ => rfl, rfl, rfl⟩

theorem witness_CgenNeedsATree : State.reset.tv = false := rfl

theorem witness_CgenRecordsThePaths :
    twoLeafTree.tv = true ∧ twoLeafTree.TreeInv ∧ twoLeafTree.descend twoLeafTree.root.toNat [true] = some 0 ∧
    (twoLeafTree.nodeAt 0).kind = .leaf := ⟨rfl, twoLeafTree_inv, by decide, by decide⟩

theorem witness_CgenTableIsPrefixFree :
    ∃ t, twoLeafTree.tv = true ∧ twoLeafTree.TreeInv ∧ exec .cgen twoLeafTree = .next t := ⟨_, rfl, twoLeafTree_inv, rfl⟩

theorem witness_CgenTableIsComplete :
    twoLeafTree.tv = true ∧ twoLeafTree.TreeInv ∧ after .cgen twoLeafTree (fun t => t.lmax) = some [true].length :=
  ⟨rfl, twoLeafTree_inv, by decide +kernel⟩

theorem hasCode_iff (s : State) (n : Nat) : s.hasCode n ↔ ¬ s.ctLenAt n = 0#8 := Iff.rfl

/-- An input whose stream fills `PK` to its last bit. -/
theorem witness_PackWritesTheEncodedStream :
    let s := withSrc [0x41, 0x42, 0x41, 0x42, 0x41, 0x42, 0x41, 0x42] (withCodes [(0x41, [false]), (0x42, [true])] small)
    s.cfg.wf ∧ s.srcLen.toNat ≤ s.cfg.srcMax ∧ (∀ b ∈ s.input, s.hasCode b.toNat) ∧
      s.encodedStream.length = 8 * s.cfg.pkMax := by
  simp only [hasCode_iff]
  decide +kernel

/-- The three clauses: a length over `SRC_MAX`, an absent entry when the stream is just full, a ninth bit. -/
theorem witness_PackErrors :
    (let s := { small with srcLen := 17 }; s.cfg.wf ∧ s.cfg.srcMax < s.srcLen.toNat) ∧
    (let s := withSrc [0x41, 0x41, 0x41, 0x41, 0x41, 0x41, 0x41, 0x41, 0x43] (withCodes [(0x41, [false])] small)
     s.srcLen.toNat ≤ s.cfg.srcMax ∧ 8 < s.srcLen.toNat ∧ (∀ b ∈ s.input.take 8, s.hasCode b.toNat) ∧
        (s.codesOf (s.input.take 8)).length = 8 * s.cfg.pkMax ∧ ¬ s.hasCode (s.srcAt 8).toNat) ∧
    (let s := withSrc [0x41, 0x41, 0x41, 0x41, 0x41, 0x41, 0x41, 0x41, 0x41] (withCodes [(0x41, [false])] small)
     (∀ b ∈ s.input.take 8, s.hasCode b.toNat) ∧ (s.codesOf (s.input.take 8)).length ≤ 8 * s.cfg.pkMax ∧
       s.hasCode (s.srcAt 8).toNat ∧ 8 * s.cfg.pkMax < (s.codesOf (s.input.take 9)).length) := by
  simp only [hasCode_iff]
  decide +kernel

/-- Both checks: `PK_MAX + 1` bytes, and one byte for no bit. -/
theorem witness_UnpackHeaderChecks :
    ({ small with byteCount := 2 } : State).cfg.pkMax < (2#32).toNat ∧
    (let s := { small with byteCount := 1 }
     s.byteCount.toNat ≤ s.cfg.pkMax ∧ s.byteCount.toNat ≠ (s.bitCount.toNat + 7) / 8) := by decide

/-- The clauses where they meet: the last bit of a code, the last bit of the full groups and the first of the final group (R44's
9-bit example), the last input byte. -/
theorem witness_BitAndByteOrder :
    (let s := withCodes [(255, List.replicate 255 true)] State.reset; 254 < (s.ctLenAt 255).toNat) ∧
    (let s := withSrc [0x41] (withPk [0xAA, 0x01] 9 State.reset)
     0 < s.srcLen.toNat ∧ 7 / 8 < s.bitCount.toNat / 8 ∧ 8 < s.bitCount.toNat ∧ 8 / 8 = s.bitCount.toNat / 8 ∧
       s.stream = [true, false, true, false, true, false, true, false, true]) := by decide +kernel

theorem witness_MatchIsTheLeastSymbol :
    State.matchCode (withCodes [(7, [true]), (3, [true])] State.reset) [true] = some 3 ∧
    State.matchCode (withCodes [(7, [true])] State.reset) [false] = none ∧ ([true] : BitString) ≠ [] := by decide +kernel

/-- A table of one code is prefix-free. -/
theorem single_prefixFree (s : State) (h : ∀ a, a < 256 → a ≠ 0x41 → s.ctLenAt a = 0#8) : s.prefixFree := by
  intro a b ha hb hab h1 h2
  by_cases ha' : a = 0x41
  · exact absurd (h b hb (by omega)) h2
  · exact absurd (h a ha ha') h1

theorem witness_UnpackDecodesConcatenatedCodes :
    let s := withPk [0x00] 3 (withCodes [(0x41, [false])] small)
    s.cfg.wf ∧ s.prefixFree ∧ s.byteCount.toNat ≤ s.cfg.pkMax ∧ s.byteCount.toNat = (s.bitCount.toNat + 7) / 8 ∧
      (∀ b ∈ [0x41#8, 0x41#8, 0x41#8], s.hasCode b.toNat) ∧ s.stream = s.codesOf [0x41#8, 0x41#8, 0x41#8] ∧
      [0x41#8, 0x41#8, 0x41#8].length ≤ s.cfg.srcMax := by
  refine ⟨by decide, single_prefixFree _ (by decide +kernel), by decide, by decide, ?_, by decide +kernel, by decide⟩
  simp only [hasCode_iff]
  decide +kernel

/-- A table that is not prefix-free, with two symbols of one code (R121(a), (b)). -/
def overlapping : List (Nat × BitString) := [(0x43, [false]), (0x41, [false]), (0x42, [false, true])]

/-- The other case of the hypothesis, with a table that is not prefix-free. -/
theorem witness_UnpackDecodesConcatenatedCodes_greedy :
    let s := withPk [0x00] 3 (withCodes overlapping small)
    s.cfg.wf ∧ s.byteCount.toNat ≤ s.cfg.pkMax ∧ s.byteCount.toNat = (s.bitCount.toNat + 7) / 8 ∧
      s.stream = s.codesOf [0x41#8, 0x41#8, 0x41#8] ∧ s.emits s.stream [0x41#8, 0x41#8, 0x41#8] ∧
      [0x41#8, 0x41#8, 0x41#8].length ≤ s.cfg.srcMax := by
  intro s
  have hs : s.stream = [false, false, false] := by decide +kernel
  have hm : s.matchCode [false] = some 0x41 := by decide +kernel
  have hc : s.code 0x41 = [false] := by decide +kernel
  refine ⟨by decide, by decide, by decide, by decide +kernel, ?_, by decide⟩
  simp [hs, hc, State.firstMatch_of_one hm]

/-- R121: of two symbols of one code the lower, and of a code and one that begins with it the shorter. -/
theorem test_unpack_overlapping_codes :
    after .unpack (withPk [0x00] 3 (withCodes overlapping State.reset)) (fun t => (t.err, t.outAt 0, t.outAt 2, t.outLen)) =
      some (.none, 0x41#8, 0x41#8, 3#32) ∧
    after .unpack (withPk [0x01] 2 (withCodes overlapping State.reset)) (fun t => (t.err, t.errInfo, t.outAt 0)) =
      some (.malformedContainer, 1#32, 0x41#8) := by decide +kernel

theorem witness_UnpackSuccessIsADecoding :
    let s := withPk [0x0B] 6 (withCodes t1 State.reset)
    s.cfg.wf ∧ after .unpack s (fun t => decide (t.err = .none)) = some true := by decide +kernel

/-- V-UN12 and V-UN14: a candidate that reaches the longest code, and a leftover. -/
theorem witness_UnpackMalformedStart :
    after .unpack (withPk [0x02] 2 (withCodes [(0x41, [false, false]), (0x42, [false, true])] State.reset))
      (fun t => (decide (t.err = .malformedContainer), t.errInfo)) = some (true, 0#32) ∧
    after .unpack (withPk [0x01] 3 (withCodes [(0x41, [false, false]), (0x42, [false, true])] State.reset))
      (fun t => (decide (t.err = .malformedContainer), t.errInfo)) = some (true, 2#32) ∧
    (1#32).toNat = ((3#32).toNat + 7) / 8 := by decide +kernel

/-- V-UN21: five symbols, `SRC_MAX = 4`. -/
theorem witness_UnpackOutputFull :
    let s := withPk [0x00] 5 (withCodes [(0x41, [false])] { State.reset with cfg := ⟨4, 4⟩ })
    s.cfg.wf ∧ s.prefixFree ∧ s.byteCount.toNat ≤ s.cfg.pkMax ∧ s.byteCount.toNat = (s.bitCount.toNat + 7) / 8 ∧
      (∀ b ∈ List.replicate 5 0x41#8, s.hasCode b.toNat) ∧ s.codesOf (List.replicate 5 0x41#8) <+: s.stream ∧
      (List.replicate 5 0x41#8).length = s.cfg.srcMax + 1 := by
  refine ⟨by decide, single_prefixFree _ (by decide +kernel), by decide, by decide, ?_, by decide +kernel, by decide⟩
  simp only [hasCode_iff]
  decide +kernel

/-- The other case of the hypothesis, with a table that is not prefix-free. -/
theorem witness_UnpackOutputFull_greedy :
    let s := withPk [0x00] 5 (withCodes overlapping { State.reset with cfg := ⟨4, 4⟩ })
    s.cfg.wf ∧ s.byteCount.toNat ≤ s.cfg.pkMax ∧ s.byteCount.toNat = (s.bitCount.toNat + 7) / 8 ∧
      s.emits s.stream (List.replicate 5 0x41#8) ∧ (List.replicate 5 0x41#8).length = s.cfg.srcMax + 1 := by
  intro s
  have hs : s.stream = [false, false, false, false, false] := by decide +kernel
  have hm : s.matchCode [false] = some 0x41 := by decide +kernel
  have hc : s.code 0x41 = [false] := by decide +kernel
  refine ⟨by decide, by decide, by decide, ?_, by decide⟩
  simp [hs, hc, List.replicate, State.firstMatch_of_one hm]

/-- V-UN18: `05` and `FD` with three bits. -/
theorem witness_UnpackIgnoresPadding :
    let s := withPk [0x05] 3 (withCodes [(0x41, [true]), (0x42, [false])] State.reset)
    (∀ i, i < s.bitCount.toNat / 8 → State.pkAt { s with pk := [(0, 0xFD#8)] } i = s.pkAt i) ∧
    (∀ k, k < s.bitCount.toNat % 8 →
      (State.pkAt { s with pk := [(0, 0xFD#8)] } (s.bitCount.toNat / 8)).getLsbD k =
        (s.pkAt (s.bitCount.toNat / 8)).getLsbD k) ∧
    (nextOf (exec .unpack s)).isSome = true := by decide +kernel

/-- V-UN22: the table of V-PK14, the rest of A's slot set. -/
theorem witness_DontCareBitsAreNotRead :
    let s := withPk [0x05] 3 (withCodes [(0x41, [true]), (0x42, [false])] State.reset)
    (∀ sym, sym < 256 → State.code { s with ctBits := [(0x820, 0xFF#8), (0x840, 0x7F#8)] } sym = s.code sym) ∧
    (nextOf (exec .unpack s)).isSome = true := by decide +kernel

theorem witness_PackAndUnpackDoNotReadTheTree :
    ∃ t u, exec .pack State.reset = .next t ∧ exec .unpack State.reset = .next u := ⟨_, _, rfl, rfl⟩

/-- The three clauses; the last is V-EN3. -/
theorem witness_EncodeEarlyFailures :
    small.cfg.srcMax < (17#32).toNat ∧ small.srcLen = 0#32 ∧
    (let s := withSrc [0x41, 0x41, 0x41, 0x41] small
     s.cfg.wf ∧ 0 < s.srcLen.toNat ∧ s.srcLen.toNat ≤ s.cfg.srcMax ∧ ∀ x ∈ s.input, x = 0x41#8) := by decide

/-- Two distinct bytes; the stream of eight of them fits one byte of `PK`, that of nine does not (program P5). -/
theorem witness_EncodeCompletes :
    let s := withSrc [0x41, 0x42, 0x41, 0x42, 0x41, 0x42, 0x41, 0x42] small
    let r := withSrc [0x41, 0x42, 0x41, 0x42, 0x41, 0x42, 0x41, 0x42, 0x41] small
    s.cfg.wf ∧ s.srcLen.toNat ≤ s.cfg.srcMax ∧ (∃ x ∈ s.input, ∃ y ∈ s.input, x ≠ y) ∧ (∃ x ∈ r.input, ∃ y ∈ r.input, x ≠ y) ∧
      after .encode s (fun t => t.encodedStream.length) = some 8 ∧ after .encode r (fun t => t.encodedStream.length) = some 9 := by
  decide +kernel

/-- Both cases: a success, and a stream that does not fit (program P5). -/
theorem witness_EncodeIsItsFourStages :
    after .encode (withSrc [0x41, 0x42] State.reset) (fun t => decide (t.err = .none)) = some true ∧
    after .encode (withSrc [0x41, 0x42, 0x41, 0x42, 0x41, 0x42, 0x41, 0x42, 0x41] small) (fun t => (t.err, t.tv)) =
      some (.capacity, true) := by decide +kernel

theorem witness_RoundTrip :
    (withSrc [0x41, 0x42, 0x41] State.reset).cfg.wf ∧
    after .encode (withSrc [0x41, 0x42, 0x41] State.reset) (fun t => decide (t.err = .none)) = some true := by decide +kernel

theorem witness_CommandsWriteOnlyTheirResults : ∃ t, exec .clear State.reset = .next t := ⟨_, rfl⟩

/-- A failure of each command that can fail. -/
theorem witness_FailuresZeroTheResults :
    after .fcount State.reset (·.err) = some .emptyInput ∧ after .tbuild State.reset (·.err) = some .insufficientAlphabet ∧
    after .cgen State.reset (·.err) = some .sequence ∧ after .encode State.reset (·.err) = some .emptyInput ∧
    after .pack { small with srcLen := 17 } (·.err) = some .capacity ∧
    after .unpack { small with byteCount := 1 } (·.err) = some .malformedContainer := by decide +kernel

end Sys2Proof.Tests
end

section
/-!
SUPPORT. The address map (20_memory.md R43): the cells of the engine and the addresses that select one name each other.
-/

namespace Sys2Proof.Machine

theorem regNumber_getD {n : Nat} (hn : n < 16) : regNumber (Reg.all.getD n .id) = n := by
  interval_cases n <;> rfl

-- The two proofs stand inside the definition, and a structure comes next, so that nothing below is elaborated while the kernel
-- evaluations of the tests above are in flight: the two together would need more memory than the check allows.
/-- R43: the address of a cell of the engine selects that cell, and a cell that an address selects has that address. -/
def addressEquiv {c : Config} (hc : c.wf) :
    {x : Cell // Cell.wf c x = true} ≃ {a : CellAddr // cellOf c a ≠ .unmapped} :=
  have hsym : Config.nSym = 256 := rfl
  have hselect : ∀ x, Cell.wf c x = true → cellOf c (addrOf x) = x := by
    obtain ⟨-, hsrc, -, hpk⟩ := hc
    intro x hx
    cases x with
    | reg r => cases r <;> rfl
    | unmapped => cases hx
    | _ =>
      have hlt := of_decide_eq_true hx
      delta cellOf addrOf
      dsimp only
      rw [BitVec.toNat_ofNat, Nat.mod_eq_of_lt (by omega)]
      simp (disch := omega) only [if_neg, if_pos, Nat.add_sub_cancel_left]
  have haddress : ∀ a, cellOf c a ≠ .unmapped → Cell.wf c (cellOf c a) = true ∧ addrOf (cellOf c a) = a := by
    intro a
    have haddr : ∀ {m : Nat}, m = a.toNat → BitVec.ofNat 26 m = a := fun h => h ▸ BitVec.ofNat_toNat 26 a
    delta cellOf
    dsimp only
    generalize a.toNat = n at haddr
    by_cases hrow : n < 0x10 ∨ (0x100 ≤ n ∧ n < 0x200) ∨ (0x200 ≤ n ∧ n < 0x300) ∨ (0x400 ≤ n ∧ n < 0x600) ∨
        (0x600 ≤ n ∧ n < 0x800) ∨ (0x800 ≤ n ∧ n < 0xA00) ∨ (0x2000 ≤ n ∧ n < 0x4000) ∨
        (0x1000000 ≤ n ∧ n < 0x1000000 + c.srcMax ∧ n < 0x2000000) ∨
        (0x2000000 ≤ n ∧ n < 0x2000000 + c.pkMax ∧ n < 0x3000000) ∨ (0x3000000 ≤ n ∧ n < 0x3000000 + c.srcMax)
    · rcases hrow with h | h | h | h | h | h | h | h | h | h
      · rw [if_pos h]
        exact fun _ => ⟨rfl, haddr (regNumber_getD h)⟩
      all_goals
        simp (disch := omega) only [if_neg, if_pos, Cell.wf, decide_eq_true_eq]
        exact fun _ => ⟨by omega, haddr (by omega)⟩
    · simp only [not_or] at hrow
      simp only [hrow, if_false]
      exact fun h => absurd rfl h
  { toFun := fun x => ⟨addrOf x, fun h => by have hx := x.2; rw [← hselect x x.2, h] at hx; cases hx⟩
    invFun := fun a => ⟨cellOf c a, (haddress a a.2).1⟩
    left_inv := fun x => Subtype.ext (hselect x x.2)
    right_inv := fun a => Subtype.ext (haddress a a.2).2 }

end Sys2Proof.Machine
end

section
/-!
SUPPORT. The tree that TBUILD builds (42_tbuild.md R79 to R86): the forest that its two loops keep, and R33 at their end.
-/

namespace Sys2Proof.Machine

/-- The reserved fields of R25: `left`, `right` of a Leaf and `sym` of an Internal slot are 0. -/
def Node.reservedZero (v : Node) : Prop :=
  (v.kind = .leaf → v.left = 0#9 ∧ v.right = 0#9) ∧ (v.kind = .internal → v.sym = 0#8)

/-- What `State.Inv` asks of `NODE` in every state, whatever `TV` is. -/
structure State.ArenaOk (s : State) : Prop where
  wf : Table.wf (some Node.zero) s.node
  below : Table.below 511 s.node
  slots : ∀ h, (s.nodeAt h).reservedZero

theorem leafNode_reservedZero (sym : Nat) (f : Word) : (leafNode sym f).reservedZero :=
  ⟨fun _ => ⟨rfl, rfl⟩, fun h => (nomatch h)⟩

theorem mergedNode_reservedZero (a b : Entry) : (mergedNode a b).reservedZero :=
  ⟨fun h => (nomatch h), fun _ => rfl⟩

theorem State.ArenaOk.setNode {s : State} (hs : s.ArenaOk) {h : Nat} (hh : h < 511) {v : Node} (hv : v.reservedZero) :
    (s.setNode h v).ArenaOk where
  wf := Table.write_wf hs.wf h v
  below := Table.write_below hs.below hh v
  slots k := by
    by_cases hk : k = h
    · subst hk
      rwa [State.setNode_nodeAt_self]
    · rw [State.setNode_nodeAt_ne s v hk]
      exact hs.slots k

theorem State.pairwise_present (s : State) : s.present.Pairwise (· < ·) :=
  List.pairwise_lt_range.filter _

theorem State.mem_present {s : State} {x : Nat} : x ∈ s.present ↔ x < 256 ∧ s.freqAt x ≠ 0#32 := by
  simp [State.present, symbols, Config.nSym]

theorem State.length_present_le (s : State) : s.present.length ≤ 256 :=
  (List.length_filter_le _ _).trans_eq List.length_range

theorem Queue.insert_perm (q : Queue) (e : Entry) : (Queue.insert q e).Perm (e :: q) := by
  induction q with
  | nil => rfl
  | cons x q ih =>
    simp only [Queue.insert]
    split
    · rfl
    · exact (ih.cons x).trans (.swap e x q)

/-- Among the slots `n .. h-1` the slot `p` has `k` for a child (R33(d), before `NODE_COUNT` is set). -/
def State.parentBelow (s : State) (n h k p : Nat) : Prop :=
  n ≤ p ∧ p < h ∧ ((s.nodeAt p).left.toNat = k ∨ (s.nodeAt p).right.toNat = k)

/-- The slot `k` has exactly one parent among `n .. h-1` (R33(d)). -/
def State.oneParentBelow (s : State) (n h k : Nat) : Prop :=
  ∃ p, s.parentBelow n h k p ∧ ∀ r, s.parentBelow n h k r → r = p

/-- R33(c) of the slot `p`: an Internal node over two lower slots, whose weights add up to its own. -/
def State.sumsChildren (s : State) (p : Nat) : Prop :=
  (s.nodeAt p).kind = .internal ∧ (s.nodeAt p).left.toNat < p ∧ (s.nodeAt p).right.toNat < p ∧
    (s.nodeAt p).left ≠ (s.nodeAt p).right ∧
    (s.nodeAt p).weight.toNat =
      (s.nodeAt (s.nodeAt p).left.toNat).weight.toNat + (s.nodeAt (s.nodeAt p).right.toNat).weight.toNat

theorem State.sumsChildren_of_nodeAt {s : State} {p : Nat} {v : Node} (hv : s.nodeAt p = v)
    (h : v.kind = .internal ∧ v.left.toNat < p ∧ v.right.toNat < p ∧ v.left ≠ v.right ∧
      v.weight.toNat = (s.nodeAt v.left.toNat).weight.toNat + (s.nodeAt v.right.toNat).weight.toNat) : s.sumsChildren p := by
  subst hv
  exact h

/-- The loops of R83 between two writes of the arena: slots `0 .. |syms|-1` are the leaves of `syms`, slots from there to `h-1` are
merges, and `q` holds exactly the slots without a parent, each with its weight. -/
structure Forest (syms : List Nat) (h : Nat) (s : State) (q : Queue) : Prop where
  arena : s.ArenaOk
  count : q.length + h = 2 * syms.length
  leaves : ∀ k (hk : k < syms.length), s.nodeAt k = leafNode syms[k] (s.freqAt syms[k])
  merged : ∀ p, syms.length ≤ p → p < h → s.sumsChildren p
  entries : ∀ e ∈ q, e.handle.toNat < h ∧ e.weight = (s.nodeAt e.handle.toNat).weight
  distinct : (q.map Entry.handle).Nodup
  roots : ∀ e ∈ q, ∀ p, ¬ s.parentBelow syms.length h e.handle.toNat p
  children : ∀ k, k < h → (∀ e ∈ q, e.handle.toNat ≠ k) → s.oneParentBelow syms.length h k
  total : (q.map (fun e => e.weight.toNat)).sum = (syms.map (fun x => (s.freqAt x).toNat)).sum

namespace Forest
variable {syms : List Nat} {h : Nat} {s : State} {q : Queue}

theorem nil (hs : s.ArenaOk) : Forest [] 0 s [] := by
  constructor <;> simp [hs]

/-- The order of the queue plays no part in the shape of the forest. -/
theorem perm {q' : Queue} (hf : Forest syms h s q) (hp : q.Perm q') : Forest syms h s q' where
  arena := hf.arena
  count := hp.length_eq ▸ hf.count
  leaves := hf.leaves
  merged := hf.merged
  entries e he := hf.entries e (hp.mem_iff.2 he)
  distinct := (hp.map _).nodup_iff.1 hf.distinct
  roots e he := hf.roots e (hp.mem_iff.2 he)
  children k hk hq := hf.children k hk fun e he => hq e (hp.mem_iff.1 he)
  total := (hp.map _).sum_nat.symm.trans hf.total

end Forest

theorem State.parentBelow_setNode {s : State} {n h k p : Nat} {v : Node} (hn : n ≤ h) :
    (s.setNode h v).parentBelow n (h + 1) k p ↔
      s.parentBelow n h k p ∨ (p = h ∧ (v.left.toNat = k ∨ v.right.toNat = k)) := by
  by_cases hp : p = h
  · subst hp
    have hnode : (s.setNode p v).nodeAt p = v := State.setNode_nodeAt_self s p v
    constructor
    · rintro ⟨-, -, hchild⟩
      exact .inr ⟨rfl, hnode ▸ hchild⟩
    · rintro (⟨-, hlt, -⟩ | ⟨-, hchild⟩)
      · exact absurd hlt (lt_irrefl p)
      · exact ⟨hn, p.lt_succ_self, hnode.symm ▸ hchild⟩
  · have hnode : (s.setNode h v).nodeAt p = s.nodeAt p := State.setNode_nodeAt_ne s v hp
    constructor
    · rintro ⟨h1, h2, hchild⟩
      exact .inl ⟨h1, by omega, hnode ▸ hchild⟩
    · rintro (⟨h1, h2, hchild⟩ | ⟨heq, -⟩)
      · exact ⟨h1, by omega, hnode.symm ▸ hchild⟩
      · exact absurd heq hp

namespace Forest
variable {syms : List Nat} {h : Nat} {s : State} {q : Queue}

/-- One turn of the seeding loop of R83: a new leaf, and its entry. -/
theorem seed (hf : Forest syms syms.length s q) (hn : syms.length < 256) (x : Nat) :
    Forest (syms ++ [x]) (syms.length + 1) (s.setNode syms.length (leafNode x (s.freqAt x)))
      (⟨(s.freqAt x).setWidth 40, BitVec.ofNat 9 syms.length⟩ :: q) := by
  have hnew : (BitVec.ofNat 9 syms.length).toNat = syms.length := Nat.mod_eq_of_lt (by omega)
  have hold : ∀ e ∈ q, (s.setNode syms.length (leafNode x (s.freqAt x))).nodeAt e.handle.toNat = s.nodeAt e.handle.toNat :=
    fun e he => State.setNode_nodeAt_ne _ _ (hf.entries e he).1.ne
  have hnone : ∀ k p, ¬ (s.setNode syms.length (leafNode x (s.freqAt x))).parentBelow (syms ++ [x]).length
      (syms.length + 1) k p := by
    rintro k p ⟨h1, h2, -⟩
    simp only [List.length_append, List.length_singleton] at h1
    omega
  constructor
  case arena => exact hf.arena.setNode (by omega) (leafNode_reservedZero _ _)
  case count =>
    have := hf.count
    simp only [List.length_cons, List.length_append, List.length_nil]
    omega
  case leaves =>
    intro k hk
    rcases Nat.lt_or_ge k syms.length with hlt | hge
    · simpa [State.setNode_nodeAt_ne _ _ hlt.ne, hlt] using hf.leaves k hlt
    · obtain rfl : k = syms.length := by
        simp only [List.length_append, List.length_singleton] at hk
        omega
      simp
  case merged =>
    intro p h1 h2
    simp only [List.length_append, List.length_singleton] at h1
    omega
  case entries =>
    intro e he
    rcases List.mem_cons.1 he with rfl | he
    · rw [hnew, State.setNode_nodeAt_self]
      exact ⟨Nat.lt_succ_self _, rfl⟩
    · rw [hold e he]
      exact (hf.entries e he).imp_left (Nat.lt_succ_of_lt ·)
  case distinct =>
    refine List.nodup_cons.2 ⟨fun hm => ?_, hf.distinct⟩
    obtain ⟨e, he, heq⟩ := List.mem_map.1 hm
    have := (hf.entries e he).1
    simp only [heq, hnew] at this
    omega
  case roots => exact fun e _ p => hnone _ p
  case children =>
    intro k hk hq
    rcases Nat.lt_or_ge k syms.length with hlt | hge
    · obtain ⟨p, ⟨h1, h2, -⟩, -⟩ := hf.children k hlt fun e he => hq e (List.mem_cons_of_mem _ he)
      omega
    · exact absurd (by simp only [hnew]; omega) (hq _ List.mem_cons_self)
  case total =>
    have hw : ((s.freqAt x).setWidth 40).toNat = (s.freqAt x).toNat := by
      rw [BitVec.toNat_setWidth]
      omega
    simp [hf.total, hw, Nat.add_comm]

/-- The frequencies of at most 256 symbols add up to a number of 40 bits (R6). -/
theorem total_lt (hf : Forest syms h s q) (hn : syms.length ≤ 256) : (q.map (fun e => e.weight.toNat)).sum < 2 ^ 40 := by
  have hle : (syms.map (fun x => (s.freqAt x).toNat)).sum ≤ (syms.map (fun x => (s.freqAt x).toNat)).length • (2 ^ 32 - 1) :=
    List.sum_le_card_nsmul _ _ fun w hw => by
      obtain ⟨x, -, rfl⟩ := List.mem_map.1 hw
      have := (s.freqAt x).isLt
      omega
  rw [hf.total]
  simp at hle
  omega

section Merge
variable {a b : Entry}

/-- There is room for the slot that a merge makes (R84(a): at most 511 slots). -/
theorem merge_room (hf : Forest syms h s (a :: b :: q)) (hn : syms.length ≤ 256) : h < 511 := by
  have hcount := hf.count
  simp only [List.length_cons] at hcount
  omega

theorem merge_weight (hf : Forest syms h s (a :: b :: q)) (hn : syms.length ≤ 256) :
    (a.weight + b.weight).toNat = a.weight.toNat + b.weight.toNat := by
  have := hf.total_lt hn
  simp only [List.map_cons, List.sum_cons] at this
  rw [BitVec.toNat_add]
  exact Nat.mod_eq_of_lt (by omega)

theorem merge_merged (hf : Forest syms h s (a :: b :: q)) (hn : syms.length ≤ 256) (p : Nat) (h1 : syms.length ≤ p)
    (h2 : p < h + 1) :
    (s.setNode h (mergedNode a b)).sumsChildren p := by
  have hold : ∀ k, k < h → (s.setNode h (mergedNode a b)).nodeAt k = s.nodeAt k :=
    fun k hk => State.setNode_nodeAt_ne _ _ hk.ne
  rcases Nat.lt_or_ge p h with hlt | hge
  · obtain ⟨hk, hl, hr, hne, hw⟩ := hf.merged p h1 hlt
    refine State.sumsChildren_of_nodeAt (hold p hlt) ⟨hk, hl, hr, hne, ?_⟩
    rw [hw, hold _ (hl.trans hlt), hold _ (hr.trans hlt)]
  · obtain rfl : p = h := by omega
    obtain ⟨ha, haw⟩ := hf.entries a (by simp)
    obtain ⟨hb, hbw⟩ := hf.entries b (by simp)
    have hab : a.handle ≠ b.handle := fun heq => by simpa [heq] using hf.distinct
    refine State.sumsChildren_of_nodeAt (State.setNode_nodeAt_self s p (mergedNode a b)) ⟨rfl, ha, hb, hab, ?_⟩
    exact (hf.merge_weight hn).trans (by rw [haw, hbw, ← hold _ ha, ← hold _ hb]; rfl)

theorem merge_entries (hf : Forest syms h s (a :: b :: q)) (e : Entry) (he : e ∈ q) :
    e.handle.toNat < h ∧ e.weight = ((s.setNode h (mergedNode a b)).nodeAt e.handle.toNat).weight := by
  obtain ⟨hlt, hw⟩ := hf.entries e (by simp [he])
  exact ⟨hlt, by rw [State.setNode_nodeAt_ne _ _ hlt.ne, hw]⟩

/-- An entry that stays in the queue keeps having no parent: the new slot's children are the two that left it. -/
theorem merge_roots (hf : Forest syms h s (a :: b :: q)) (hh : syms.length ≤ h) (e : Entry) (he : e ∈ q) (p : Nat) :
    ¬ (s.setNode h (mergedNode a b)).parentBelow syms.length (h + 1) e.handle.toNat p := by
  have hdist := hf.distinct
  simp only [List.map_cons, List.nodup_cons, List.mem_cons, not_or] at hdist
  obtain ⟨⟨-, ha⟩, hb, -⟩ := hdist
  rw [State.parentBelow_setNode hh]
  rintro (hp | ⟨-, hp | hp⟩)
  · exact hf.roots e (by simp [he]) p hp
  · exact ha (List.mem_map.2 ⟨e, he, (BitVec.eq_of_toNat_eq hp).symm⟩)
  · exact hb (List.mem_map.2 ⟨e, he, (BitVec.eq_of_toNat_eq hp).symm⟩)

/-- No slot of the forest has the new slot for a child. -/
theorem merge_newRoot (hf : Forest syms h s (a :: b :: q)) (hh : syms.length ≤ h) (p : Nat) :
    ¬ (s.setNode h (mergedNode a b)).parentBelow syms.length (h + 1) h p := by
  rw [State.parentBelow_setNode hh]
  rintro (⟨h1, h2, hp⟩ | ⟨-, hp⟩)
  · obtain ⟨-, hl, hr, -⟩ := hf.merged p h1 h2
    omega
  · obtain ⟨ha, -⟩ := hf.entries a (by simp)
    obtain ⟨hb, -⟩ := hf.entries b (by simp)
    simp only [mergedNode] at hp
    omega

/-- A slot outside the queue has one parent: the new slot if it was one of the two least, else the one it had. -/
theorem merge_children (hf : Forest syms h s (a :: b :: q)) (hh : syms.length ≤ h) (k : Nat) (hk : k < h)
    (hne : ∀ e ∈ q, e.handle.toNat ≠ k) :
    (s.setNode h (mergedNode a b)).oneParentBelow syms.length (h + 1) k := by
  have hiff := fun r => State.parentBelow_setNode (s := s) (k := k) (p := r) (v := mergedNode a b) hh
  by_cases hkab : a.handle.toNat = k ∨ b.handle.toNat = k
  · refine ⟨h, (hiff h).2 (.inr ⟨rfl, hkab⟩), fun r hr => ?_⟩
    rcases (hiff r).1 hr with hr | ⟨rfl, -⟩
    · rcases hkab with rfl | rfl
      · exact absurd hr (hf.roots a (by simp) r)
      · exact absurd hr (hf.roots b (by simp) r)
    · rfl
  · have hall : ∀ e ∈ a :: b :: q, e.handle.toNat ≠ k :=
      List.forall_mem_cons.2 ⟨fun h => hkab (.inl h), List.forall_mem_cons.2 ⟨fun h => hkab (.inr h), hne⟩⟩
    obtain ⟨p, hp, huniq⟩ := hf.children k hk hall
    refine ⟨p, (hiff p).2 (.inl hp), fun r hr => ?_⟩
    rcases (hiff r).1 hr with hr | ⟨-, hr⟩
    · exact huniq r hr
    · exact absurd hr hkab

/-- One turn of the merge loop of R83: the two entries become the children of a new slot, whose weight is their sum. -/
theorem merge (hf : Forest syms h s (a :: b :: q)) (hn : syms.length ≤ 256) (hh : syms.length ≤ h) :
    Forest syms (h + 1) (s.setNode h (mergedNode a b)) (⟨a.weight + b.weight, BitVec.ofNat 9 h⟩ :: q) := by
  have hroom := hf.merge_room hn
  have hnew : (BitVec.ofNat 9 h).toNat = h := Nat.mod_eq_of_lt (by omega)
  constructor
  case arena => exact hf.arena.setNode hroom (mergedNode_reservedZero _ _)
  case count =>
    have := hf.count
    simp only [List.length_cons] at this ⊢
    omega
  case leaves => exact fun k hk => by simpa [State.setNode_nodeAt_ne s _ (hk.trans_le hh).ne] using hf.leaves k hk
  case merged => exact hf.merge_merged hn
  case entries =>
    refine List.forall_mem_cons.2 ⟨?_, fun e he => (hf.merge_entries e he).imp_left (Nat.lt_succ_of_lt ·)⟩
    rw [hnew, State.setNode_nodeAt_self]
    exact ⟨h.lt_succ_self, rfl⟩
  case distinct =>
    have hd := hf.distinct
    simp only [List.map_cons, List.nodup_cons] at hd
    refine List.nodup_cons.2 ⟨fun hm => ?_, hd.2.2⟩
    obtain ⟨e, he, heq⟩ := List.mem_map.1 hm
    exact (hf.merge_entries e he).1.ne (heq ▸ hnew)
  case roots =>
    refine List.forall_mem_cons.2 ⟨fun p => ?_, hf.merge_roots hh⟩
    rw [hnew]
    exact hf.merge_newRoot hh p
  case children =>
    intro k hk hne
    obtain ⟨hkh, hne⟩ := List.forall_mem_cons.1 hne
    rw [hnew] at hkh
    exact hf.merge_children hh k (by omega) hne
  case total =>
    have := hf.total
    simpa only [List.map_cons, List.sum_cons, ← Nat.add_assoc, ← hf.merge_weight hn, State.setNode_freqAt] using this

end Merge

/-- With one entry left the forest is a tree, and the entry is its last slot (R33(d)). -/
theorem root_last {e : Entry} (hf : Forest syms h s [e]) : e.handle.toNat = h - 1 := by
  have hcount := hf.count
  simp only [List.length_singleton] at hcount
  by_contra hne
  obtain ⟨p, ⟨h1, h2, hp⟩, -⟩ := hf.children (h - 1) (by omega) (by simpa using hne)
  obtain ⟨-, hl, hr, -⟩ := hf.merged p h1 h2
  omega

/-- R33 for the registers that R83 sets last. -/
theorem treeInv {e : Entry} (hf : Forest syms h s [e]) (hn : 2 ≤ syms.length) (hle : syms.length ≤ 256)
    (hrise : syms.Pairwise (· < ·)) (hmem : ∀ x ∈ syms, x < 256 ∧ s.freqAt x ≠ 0#32) : (s.setTree e.handle h).TreeInv := by
  have hcount := hf.count
  simp only [List.length_singleton] at hcount
  have hN : (s.setTree e.handle h).nodeCount.toNat = h := Nat.mod_eq_of_lt (by omega)
  have hL : (s.setTree e.handle h).leafCount = syms.length := by simp only [State.leafCount, hN]; omega
  constructor <;> simp only [hN, hL, State.childOf, State.setTree_nodeAt, State.setTree_root]
  case size => omega
  case rootLast => exact hf.root_last
  case leaves =>
    intro k hk
    have hne := (hmem _ (List.getElem_mem hk)).2
    rw [hf.leaves k hk]
    refine ⟨rfl, fun h0 => hne ?_⟩
    simp only [leafNode] at h0
    bv_omega
  case ascending =>
    intro j k hjk hk
    have hlt := List.pairwise_iff_getElem.1 hrise j k (by omega) hk hjk
    have hlt' := (hmem _ (List.getElem_mem hk)).1
    rw [hf.leaves j (by omega), hf.leaves k hk]
    simp only [leafNode, BitVec.lt_def, BitVec.toNat_ofNat]
    omega
  case merged => exact hf.merged
  case oneParent =>
    intro k hk
    have hroot := hf.root_last
    exact hf.children k (by omega) fun e' he' => by
      rw [List.mem_singleton.1 he']; omega

end Forest

/-- The seeding loop of R83 makes one leaf for each symbol of its list. -/
theorem seedLeaves_forest (l syms : List Nat) {h : Nat} {s : State} {q : Queue} (hh : h = syms.length) (hf : Forest syms h s q)
    (hn : syms.length + l.length ≤ 256) :
    Forest (syms ++ l) (syms ++ l).length (seedLeaves l h s q).1 (seedLeaves l h s q).2 := by
  induction l generalizing syms h s q with
  | nil => subst hh; simpa [seedLeaves] using hf
  | cons x l ih =>
    subst hh
    simp only [List.length_cons] at hn
    have := ih (syms ++ [x]) (by simp) ((hf.seed (by omega) x).perm (Queue.insert_perm _ _).symm) (by simp; omega)
    simpa [seedLeaves] using this

/-- The merge loop of R83 ends with one entry (R84(a)). -/
theorem mergeAll_forest (fuel : Nat) {syms : List Nat} {h : Nat} {s : State} {q : Queue} (hf : Forest syms h s q)
    (hn : syms.length ≤ 256) (hh : syms.length ≤ h) (hq : q ≠ []) (hfuel : q.length ≤ fuel + 1) :
    ∃ t e, mergeAll fuel h s q = (t, 2 * syms.length - 1, [e]) ∧ Forest syms (2 * syms.length - 1) t [e] := by
  induction fuel generalizing h s q with
  | zero =>
    obtain ⟨e, rfl⟩ := List.length_eq_one_iff.1 (show q.length = 1 by have := List.length_pos_iff.2 hq; omega)
    obtain rfl : h = 2 * syms.length - 1 := by have := hf.count; simp at this; omega
    exact ⟨s, e, rfl, hf⟩
  | succ fuel ih =>
    rcases q with _ | ⟨a, _ | ⟨b, q⟩⟩
    · exact absurd rfl hq
    · obtain rfl : h = 2 * syms.length - 1 := by have := hf.count; simp at this; omega
      exact ⟨s, a, rfl, hf⟩
    · have hp := Queue.insert_perm q ⟨a.weight + b.weight, BitVec.ofNat 9 h⟩
      have hlen := hp.length_eq
      simp only [List.length_cons] at hlen hfuel
      exact ih ((hf.merge hn hh).perm hp.symm) (by omega) (List.ne_nil_of_length_eq_add_one hlen) (by omega)

/-- R83 whole, for at least two symbols: a forest of one tree, whose root and size go to the registers. -/
theorem buildTree_forest {s : State} (hs : s.ArenaOk) (hn : 2 ≤ s.present.length) :
    ∃ t e, buildTree s = t.setTree e.handle (2 * s.present.length - 1) ∧
      Forest s.present (2 * s.present.length - 1) t [e] := by
  have hle := s.length_present_le
  have hseed : Forest s.present s.present.length (seedLeaves s.present 0 s []).1 (seedLeaves s.present 0 s []).2 := by
    simpa using seedLeaves_forest s.present [] rfl (Forest.nil hs) (by simpa using hle)
  have hcount := hseed.count
  obtain ⟨t, e, hm, hf⟩ := mergeAll_forest s.present.length hseed hle le_rfl
    (List.ne_nil_of_length_pos (by omega)) (by omega)
  exact ⟨t, e, by simp [buildTree, hm, takeRoot, Queue.extractMin], hf⟩

end Sys2Proof.Machine
end

section
/-!
SUPPORT. The invariant of every run (10_state.md R10, R33): one rule per update of the state.
-/

namespace Sys2Proof.Machine

/-! ## Which updates keep the invariant -/

section Tables
variable {α : Type} [DecidableEq α]

theorem Table.nil_canonical (d : Option α) (n : Nat) : Table.wf d [] ∧ Table.below n ([] : Table α) := by
  simp [Table.wf, Table.below]

theorem Table.write_canonical {d : Option α} {n a : Nat} {t : Table α} (ht : Table.wf d t ∧ Table.below n t) (ha : a < n)
    (v : α) : Table.wf d (Table.write d t a v) ∧ Table.below n (Table.write d t a v) :=
  ⟨Table.write_wf ht.1 a v, Table.write_below ht.2 ha v⟩

end Tables

/-- R33 speaks of the arena and its two registers only. -/
theorem State.TreeInv.congr {s t : State} (h : s.TreeInv) (hn : t.node = s.node) (hr : t.root = s.root)
    (hc : t.nodeCount = s.nodeCount) : t.TreeInv := by
  cases s
  cases t
  cases hn
  cases hr
  cases hc
  exact ⟨h.size, h.rootLast, h.leaves, h.ascending, h.merged, h.oneParent⟩

theorem resultCode_some_ne (e : CmdError) : resultCode (some e) ≠ .none := by cases e <;> simp [resultCode, CmdError.code]

namespace State.Inv
variable {s : State}

theorem arenaOk (h : s.Inv) : s.ArenaOk := ⟨h.node.1, h.node.2, h.slots⟩

/-- The host's record and the counter of resets are free. -/
theorem withHost (h : s.Inv) (k : HostSide) : State.Inv { s with host := k } :=
  { h with tree := fun ht => (h.tree ht).congr rfl rfl rfl }

theorem finish (h : s.Inv) (e : Option CmdError) : (s.finish e).Inv :=
  { h with
    notBoth := by simp
    noReport := by simp
    successInfo := fun _ he => by
      cases e with
      | none => rfl
      | some e => exact absurd he (resultCode_some_ne e)
    tree := fun ht => (h.tree ht).congr rfl rfl rfl }

theorem accept (h : s.Inv) (w : Word) : (s.accept w).Inv :=
  { h with
    notBoth := by simp
    noReport := fun _ => rfl
    successInfo := by simp
    tree := fun ht => (h.tree ht).congr rfl rfl rfl }

theorem dropTree (h : s.Inv) : s.dropTree.Inv :=
  { h with tree := by simp, noTree := fun _ => ⟨rfl, rfl⟩ }

theorem setCounts (h : s.Inv) (a b : Nat) : (s.setCounts a b).Inv :=
  { h with tree := fun ht => (h.tree ht).congr rfl rfl rfl }

theorem setOutLen (h : s.Inv) {n : Nat} (hn : n ≤ s.cfg.srcMax) : (s.setOutLen n).Inv :=
  { h with
    tree := fun ht => (h.tree ht).congr rfl rfl rfl
    outLen := (Nat.mod_le n _).trans hn }

theorem setFreq (h : s.Inv) {i : Nat} (hi : i < 256) (v : Word) : (s.setFreq i v).Inv :=
  { h with
    freq := Table.write_canonical h.freq hi v
    tree := fun ht => (h.tree ht).congr rfl rfl rfl }

theorem setCtLen (h : s.Inv) {i : Nat} (hi : i < 256) (v : Byte) : (s.setCtLen i v).Inv :=
  { h with
    ctLen := Table.write_canonical h.ctLen hi v
    tree := fun ht => (h.tree ht).congr rfl rfl rfl }

theorem setCtBits (h : s.Inv) {k : Nat} (hk : k < 8192) (v : Byte) : (s.setCtBits k v).Inv :=
  { h with
    ctBits := Table.write_canonical h.ctBits hk v
    tree := fun ht => (h.tree ht).congr rfl rfl rfl }

theorem setSrc (h : s.Inv) {i : Nat} (hi : i < s.cfg.srcMax) (v : Byte) : (s.setSrc i v).Inv :=
  { h with
    src := Table.write_canonical h.src hi v
    tree := fun ht => (h.tree ht).congr rfl rfl rfl }

theorem setPk (h : s.Inv) {i : Nat} (hi : i < s.cfg.pkMax) (v : Byte) : (s.setPk i v).Inv :=
  { h with
    pk := Table.write_canonical h.pk hi v
    tree := fun ht => (h.tree ht).congr rfl rfl rfl }

theorem setOut (h : s.Inv) {i : Nat} (hi : i < s.cfg.srcMax) (v : Byte) : (s.setOut i v).Inv :=
  { h with
    out := Table.write_canonical h.out hi v
    tree := fun ht => (h.tree ht).congr rfl rfl rfl }

theorem zeroFreq (h : s.Inv) : s.zeroFreq.Inv :=
  { h with freq := Table.nil_canonical _ _, tree := fun ht => (h.tree ht).congr rfl rfl rfl }

theorem zeroCodes (h : s.Inv) : s.zeroCodes.Inv :=
  { h with
    ctLen := Table.nil_canonical _ _
    ctBits := Table.nil_canonical _ _
    tree := fun ht => (h.tree ht).congr rfl rfl rfl }

/-- A tree that meets R33, in an arena of canonical form, may take the place of whatever was there (R83). -/
theorem withTree (h : s.Inv) {t : State} (ht : ∃ n v r c, t = { s with node := n, tv := v, root := r, nodeCount := c })
    (htv : t.tv = true) (htree : t.TreeInv) (harena : t.ArenaOk) : t.Inv := by
  obtain ⟨n, v, r, c, rfl⟩ := ht
  exact { h with
    node := ⟨harena.wf, harena.below⟩
    tree := fun _ => htree
    noTree := fun hf => absurd (hf.symm.trans htv) (by simp)
    slots := harena.slots }

end State.Inv

theorem State.resetOf_inv {c : Config} (hc : c.wf) (p : Nat) (h : HostSide) : (State.resetOf c p h).Inv where
  cfg := hc
  freq := Table.nil_canonical _ _
  ctLen := Table.nil_canonical _ _
  ctBits := Table.nil_canonical _ _
  node := Table.nil_canonical _ _
  src := Table.nil_canonical _ _
  pk := Table.nil_canonical _ _
  out := Table.nil_canonical _ _
  notBoth := by simp [State.resetOf]
  noReport := fun _ => rfl
  successInfo := fun _ _ => rfl
  tree := by simp [State.resetOf]
  noTree := fun _ => ⟨rfl, rfl⟩
  slots := fun _ => ⟨fun _ => ⟨rfl, rfl⟩, fun _ => rfl⟩
  outLen := Nat.zero_le _

end Sys2Proof.Machine
end

section
/-!
SUPPORT. Every step keeps the invariant: the bodies of the commands, then the host's operations.
-/

namespace Sys2Proof.Machine

/-! ## Where a body can end -/

/-- Every state in which the body can end has the property. -/
def Body.Ends (P : State → Prop) : Body → Prop
  | .returned s => P s
  | .raised _ s => P s
  | .stuck _ => True

namespace Body.Ends
variable {P : State → Prop} {b : Body}

theorem andThen (hb : b.Ends P) {k : State → Body} (hk : ∀ s, P s → (k s).Ends P) : (b.andThen k).Ends P := by
  cases b with
  | returned s => exact hk s hb
  | raised e s => exact hb
  | stuck f => trivial

theorem withEffects (hb : b.Ends P) {i : Instr} (he : ∀ s, P s → P (errorEffects i s)) : (b.withEffects i).Ends P := by
  cases b with
  | returned s => exact hb
  | raised e s => exact he s hb
  | stuck f => trivial

theorem imp (hb : b.Ends P) {Q : State → Prop} (h : ∀ s, P s → Q s) : b.Ends Q := by
  cases b with
  | returned s => exact h s hb
  | raised e s => exact h s hb
  | stuck f => trivial

theorem complete (hb : b.Ends P) {t : State} (h : b.complete = .next t) : ∃ s e, P s ∧ t = s.finish e := by
  rcases Body.complete_next h with ⟨s, rfl, rfl⟩ | ⟨e, s, rfl, rfl⟩
  · exact ⟨s, none, hb, rfl⟩
  · exact ⟨s, some e, hb, rfl⟩

end Body.Ends

/-! ## The bodies keep the invariant -/

theorem errorEffects_inv (i : Instr) (s : State) (h : s.Inv) : (errorEffects i s).Inv := by
  cases i with
  | tbuild => exact h.dropTree
  | pack => exact h.setCounts 0 0
  | unpack => exact h.setOutLen (Nat.zero_le _)
  | nop | clear | fcount | cgen | encode => exact h

variable {s : State}

theorem foldl_countByte_inv (bs : List Byte) (h : s.Inv) : (bs.foldl countByte s).Inv := by
  induction bs generalizing s with
  | nil => exact h
  | cons b bs ih => exact ih (h.setFreq b.isLt _)

theorem bodyFcount_inv (h : s.Inv) : (bodyFcount s).Ends State.Inv := by
  refine Body.Ends.withEffects ?_ (errorEffects_inv _)
  split
  · exact h
  · split
    · exact h.zeroFreq
    · exact foldl_countByte_inv _ h.zeroFreq

theorem buildTree_inv (h : s.Inv) (hn : 2 ≤ s.present.length) : (buildTree s).Inv := by
  obtain ⟨t, e, hb, hf⟩ := buildTree_forest h.arenaOk hn
  have hframe := buildTree_frame s
  have hfreq : ∀ x, t.freqAt x = s.freqAt x := fun x => by
    obtain ⟨n, v, r, c, hs⟩ := hframe
    exact congrArg (fun u => u.freqAt x) (hb.symm.trans hs)
  have htree := hf.treeInv hn s.length_present_le s.pairwise_present fun x hx => hfreq x ▸ State.mem_present.1 hx
  rw [hb] at hframe ⊢
  exact h.withTree hframe rfl htree ⟨hf.arena.wf, hf.arena.below, hf.arena.slots⟩

theorem bodyTbuild_inv (h : s.Inv) : (bodyTbuild s).Ends State.Inv := by
  refine Body.Ends.withEffects ?_ (errorEffects_inv _)
  split
  · exact h
  · exact buildTree_inv h (by omega)

theorem writeBits_inv {sym : Nat} (hsym : sym < 256) (path : BitString) {k : Nat} (hk : k + path.length ≤ 256) (h : s.Inv) :
    (writeBits sym path k s).Inv := by
  induction path generalizing k s with
  | nil => exact h
  | cons b path ih =>
    simp only [List.length_cons] at hk
    refine ih (by omega) ?_
    cases b
    · exact h
    · exact h.setCtBits (by omega) _

theorem writeCode_inv {sym : Nat} (hsym : sym < 256) {path : BitString} (hp : path.length ≤ 256) (h : s.Inv) :
    (writeCode s sym path).Inv :=
  writeBits_inv hsym path (by omega) (h.setCtLen hsym _)

/-- The bound on the levels keeps every path within its slot of 32 bytes. -/
theorem walk_inv (fuel h : Nat) {path : BitString} (hp : path.length + fuel ≤ 256) (hs : s.Inv) :
    (walk fuel h path s).Ends State.Inv := by
  induction fuel generalizing h path s with
  | zero => trivial
  | succ fuel ih =>
    simp only [walk]
    split
    · exact writeCode_inv (s.nodeAt h).sym.isLt (by omega) hs
    · exact (ih _ (by simp; omega) hs).andThen fun t ht => ih _ (by simp; omega) ht

theorem bodyCgen_inv (h : s.Inv) : (bodyCgen s).Ends State.Inv := by
  refine Body.Ends.withEffects ?_ (errorEffects_inv _)
  split
  · exact h
  · exact walk_inv _ _ (by simp [Config.lCode]) h.zeroCodes

/-- The packer's group has a cell: none is begun when `PK` is full (R107). -/
def Packer.fits (p : Packer) (pkMax : Nat) : Prop := p.nbytes ≤ pkMax ∧ (0 < p.cnt → p.nbytes < pkMax)

/-- What the two loops of R107 keep, whichever way they end. -/
def packKeeps : Except (CmdError × State) (State × Packer) → Prop
  | .error e => e.2.Inv
  | .ok r => r.1.Inv ∧ r.2.fits r.1.cfg.pkMax

theorem packBits_inv (bs : BitString) {p : Packer} (h : s.Inv) (hp : p.fits s.cfg.pkMax) : packKeeps (packBits bs s p) := by
  induction bs generalizing s p with
  | nil => exact ⟨h, hp⟩
  | cons b bs ih =>
    obtain ⟨hle, hlt⟩ := hp
    simp only [packBits]
    split
    · exact h
    · rename_i hfull
      have hroom : p.nbytes < s.cfg.pkMax := by omega
      split
      · exact ih (h.setPk hroom _) ⟨hroom, by simp⟩
      · exact ih h ⟨hle, fun _ => hroom⟩

theorem packBytes_inv (bs : List Byte) (i : Nat) {p : Packer} (h : s.Inv) (hp : p.fits s.cfg.pkMax) :
    packKeeps (packBytes bs i s p) := by
  induction bs generalizing i s p with
  | nil => exact ⟨h, hp⟩
  | cons b bs ih =>
    simp only [packBytes]
    split
    · exact h
    · have hbits := packBits_inv (s.code b.toNat) h hp
      split
      · rename_i e he
        rw [he] at hbits
        exact hbits
      · rename_i t p' ht
        rw [ht] at hbits
        exact ih (i + 1) hbits.1 hbits.2

theorem packEnd_inv {p : Packer} (h : s.Inv) (hp : p.fits s.cfg.pkMax) : (packEnd s p).Inv := by
  unfold packEnd
  split
  · rename_i hcnt
    exact (h.setPk (hp.2 hcnt) _).setCounts _ _
  · exact h.setCounts _ _

theorem bodyPack_inv (h : s.Inv) : (bodyPack s).Ends State.Inv := by
  refine Body.Ends.withEffects ?_ (errorEffects_inv _)
  split
  · exact h.setCounts 0 0
  · have hbytes := packBytes_inv s.input 0 (h.setCounts 0 0) (p := Packer.start) ⟨Nat.zero_le _, by simp [Packer.start]⟩
    split
    · rename_i e he
      rw [he] at hbytes
      exact hbytes
    · rename_i r hr
      rw [hr] at hbytes
      exact packEnd_inv hbytes.1 hbytes.2

/-- What the loop of R119 keeps, whichever way it ends. -/
def unpackKeeps : Except (CmdError × State) (State × Nat) → Prop
  | .error e => e.2.Inv
  | .ok r => r.1.Inv ∧ r.2 ≤ r.1.cfg.srcMax

theorem unpackBits_inv (n : Nat) (bs : BitString) (j : Nat) {u : Unpacker} (h : s.Inv) (hu : u.nout ≤ s.cfg.srcMax) :
    unpackKeeps (unpackBits n bs j s u) := by
  induction bs generalizing j s u with
  | nil =>
    simp only [unpackBits]
    split
    · exact h
    · exact ⟨h, hu⟩
  | cons b bs ih =>
    simp only [unpackBits]
    split
    · split
      · exact h
      · have hroom : u.nout < s.cfg.srcMax := by omega
        exact ih (j + 1) (h.setOut hroom _) hroom
    · split
      · exact h
      · exact ih (j + 1) h hu

theorem bodyUnpack_inv (h : s.Inv) : (bodyUnpack s).Ends State.Inv := by
  have h0 : (s.setOutLen 0).Inv := h.setOutLen (Nat.zero_le _)
  refine Body.Ends.withEffects ?_ (errorEffects_inv _)
  split
  · exact h0
  · split
    · exact h0
    · have hbits := unpackBits_inv s.lmax s.stream 0 h0 (u := ⟨[], 0, 0⟩) (Nat.zero_le _)
      split
      · rename_i e he
        rw [he] at hbits
        exact hbits
      · rename_i r hr
        rw [hr] at hbits
        exact hbits.1.setOutLen hbits.2

/-- R132: CLEAR leaves the reset state but for the report, `CUR` and the buffers. -/
theorem bodyClear_inv (h : s.Inv) : (bodyClear s).Ends State.Inv :=
  let h0 := State.resetOf_inv h.cfg s.powerOns s.host
  { h with
    freq := h0.freq
    ctLen := h0.ctLen
    ctBits := h0.ctBits
    node := h0.node
    tree := fun ht => (h0.tree ht).congr rfl rfl rfl
    noTree := h0.noTree
    slots := h0.slots
    outLen := h0.outLen }

theorem bodyEncode_inv (h : s.Inv) : (bodyEncode s).Ends State.Inv :=
  ((((bodyFcount_inv (h.dropTree.setCounts 0 0)).andThen fun _ => bodyTbuild_inv).andThen fun _ => bodyCgen_inv).andThen
    fun _ => bodyPack_inv).withEffects (errorEffects_inv _)

/-! ## Every command is a body, completed -/

/-- The pseudocode of each command (R76 to R132). -/
def bodyOf : Instr → State → Body
  | .nop => bodyNop
  | .clear => bodyClear
  | .fcount => bodyFcount
  | .tbuild => bodyTbuild
  | .cgen => bodyCgen
  | .pack => bodyPack
  | .unpack => bodyUnpack
  | .encode => bodyEncode

theorem exec_eq_complete (i : Instr) (s : State) : exec i s = (bodyOf i s).complete := by cases i <;> rfl

theorem bodyOf_inv (i : Instr) (h : s.Inv) : (bodyOf i s).Ends State.Inv := by
  cases i with
  | nop => exact h
  | clear => exact bodyClear_inv h
  | fcount => exact bodyFcount_inv h
  | tbuild => exact bodyTbuild_inv h
  | cgen => exact bodyCgen_inv h
  | pack => exact bodyPack_inv h
  | unpack => exact bodyUnpack_inv h
  | encode => exact bodyEncode_inv h

theorem exec_inv {i : Instr} {t : State} (h : s.Inv) (ht : exec i s = .next t) : t.Inv := by
  rw [exec_eq_complete] at ht
  obtain ⟨u, e, hu, rfl⟩ := (bodyOf_inv i h).complete ht
  exact hu.finish e

theorem completeIllegal_eq (s : State) : completeIllegal s = .next (s.finish (some (.illegalCmd s.cur))) := rfl

/-! ## The host's operations -/

/-- Everything a host operation can be: a write that the script names, a reset, or nothing to the engine (R41, R65). -/
theorem hostStep_cases {t : State} (ht : hostStep s = .next t) :
    (∃ k, t = { s with host := k }) ∨
    (∃ a v rest, s.host.script = .write a v :: rest ∧ t = hostWrite { s with host := { s.host with script := rest } } a v) ∨
    (∃ rest, s.host.script = .reset :: rest ∧ t = State.powerOn { s with host := { s.host with script := rest } }) := by
  cases hs : s.host.script with
  | nil =>
    simp only [hostStep, hs, Host.Outcome.next.injEq] at ht
    exact .inl ⟨s.host, ht.symm⟩
  | cons op rest =>
    cases op with
    | read a =>
      simp only [hostStep, hs, Host.Outcome.next.injEq] at ht
      exact .inl ⟨_, ht.symm⟩
    | write a v =>
      simp only [hostStep, hs, Host.Outcome.next.injEq] at ht
      exact .inr (.inl ⟨a, v, rest, rfl, ht.symm⟩)
    | wait =>
      simp only [hostStep, hs, Host.Outcome.next.injEq, hostPoll] at ht
      split at ht
      · exact .inl ⟨_, ht.symm⟩
      · exact .inl ⟨_, ht.symm⟩
    | reset =>
      simp only [hostStep, hs, Host.Outcome.next.injEq] at ht
      exact .inr (.inr ⟨rest, rfl, ht.symm⟩)
    | partialAccess a => simp [hostStep, hs] at ht

/-- The index of the cell that an address selects is within its space. -/
theorem cellOf_wf {c : Config} (hc : c.wf) (a : CellAddr) : cellOf c a = .unmapped ∨ Cell.wf c (cellOf c a) = true :=
  or_iff_not_imp_left.2 fun ha => ((addressEquiv hc).symm ⟨a, ha⟩).2

theorem writeReg_inv (h : s.Inv) (v : Word) (r : Reg) : (s.writeReg v r).Inv := by
  cases r with
  | cmd => exact h.accept v
  | srcLen | byteCount | bitCount => exact { h with tree := fun ht => (h.tree ht).congr rfl rfl rfl }
  | _ => exact h

theorem writeCell_inv (h : s.Inv) (v : Word) {x : Cell} (hx : Cell.wf s.cfg x = true) : (s.writeCell v x).Inv := by
  cases x with
  | reg r => exact writeReg_inv h v r
  | freq i => exact h.setFreq (of_decide_eq_true hx) _
  | ctLen i => exact h.setCtLen (of_decide_eq_true hx) _
  | ctBits k => exact h.setCtBits (of_decide_eq_true hx) _
  | src i => exact h.setSrc (of_decide_eq_true hx) _
  | pk i => exact h.setPk (of_decide_eq_true hx) _
  | nodeInfo | nodeWlo | nodeWhi | out | unmapped => exact h

theorem hostWrite_inv (h : s.Inv) (a : CellAddr) (v : Word) : (hostWrite s a v).Inv := by
  unfold hostWrite
  split
  · exact h
  · rcases cellOf_wf h.cfg a with ha | ha
    · rw [ha]
      exact h
    · exact writeCell_inv h v ha

theorem hostStep_inv {t : State} (h : s.Inv) (ht : hostStep s = .next t) : t.Inv := by
  rcases hostStep_cases ht with ⟨k, rfl⟩ | ⟨a, v, rest, -, rfl⟩ | ⟨rest, -, rfl⟩
  · exact h.withHost k
  · exact hostWrite_inv (h.withHost _) a v
  · exact State.resetOf_inv h.cfg _ _

/-- Settles O11, one case per kind of step: a completion, an illegal word's completion, a host operation while BUSY or idle. -/
theorem stepKeepsTheInvariant : Obligations.StepKeepsTheInvariant := by
  unfold Obligations.StepKeepsTheInvariant
  intro s t h ht
  rcases step_cases s with ⟨-, ⟨i, -, hs⟩ | ⟨e, -, hs⟩⟩ | ⟨-, -, hs⟩ | ⟨-, hs⟩
  · exact exec_inv h (hs ▸ ht)
  · rw [hs, completeIllegal_eq] at ht
    exact Host.Outcome.next.inj ht ▸ h.finish _
  · exact hostStep_inv (h.withHost _) (hs ▸ ht)
  · exact hostStep_inv h (hs ▸ ht)

end Sys2Proof.Machine
end

section
/-!
SUPPORT. The readable forms of the state (10_state.md R13, R23, R26, R34) and what a host write changes (R15, R35, R42).
-/

namespace Sys2Proof.Machine

/-! ## Reset and the views of the state -/

/-- Settles O9: the tables are empty and the registers 0. -/
theorem resetMeetsTheInvariant : Obligations.ResetMeetsTheInvariant :=
  ⟨State.resetOf_inv (by decide) _ _, fun _ p h hc => State.resetOf_inv hc p h⟩

/-- Settles O8: row by row from the definition of the reset state; nothing is listed, so each cell reads as an unlisted one. -/
theorem resetValues : Obligations.ResetValues := by
  unfold Obligations.ResetValues
  refine ⟨rfl, fun c p h => ⟨rfl, rfl, rfl, rfl, ?registers, rfl, rfl, ?tables, ?buffers⟩⟩
  case registers => simp [State.readReg, State.resetOf, Config.idValue, State.status, ErrCode.num]
  case tables => exact fun _ => ⟨rfl, rfl, rfl, rfl⟩
  case buffers => exact fun _ => ⟨rfl, rfl, rfl⟩

/-- `ERR` stands above the four flag bits, and nothing above it (R13). -/
theorem State.status_getLsbD_four_add (s : State) (k : Nat) : s.status.getLsbD (4 + k) = s.err.num.getLsbD k := by
  have h1 : ¬ 4 + k < 1 := by omega
  have h2 : ¬ 4 + k - 1 < 1 := by omega
  have h3 : ¬ 4 + k - 1 - 1 < 1 := by omega
  have h4 : ¬ 4 + k - 1 - 1 - 1 < 1 := by omega
  have hk : 4 + k - 1 - 1 - 1 - 1 = k := by omega
  simp only [State.status, BitVec.getLsbD_append, h1, h2, h3, h4, hk, if_false, BitVec.getLsbD_zero]
  split
  · rfl
  · exact (BitVec.getLsbD_of_ge _ _ (by omega)).symm

/-- Settles O15: the flags by their places in the concatenation, the rest by what stands above them. -/
theorem statusFields : Obligations.StatusFields := by
  unfold Obligations.StatusFields
  intro s
  refine ⟨?busy, ?done, ?tv, ?reserved, ?err, ?rest, rfl⟩
  case err =>
    refine BitVec.eq_of_getLsbD_eq fun k hk => ?_
    simp [State.status_getLsbD_four_add, hk]
  case rest =>
    refine BitVec.eq_of_getLsbD_eq fun k hk => ?_
    have h8 : 8 + k = 4 + (4 + k) := by omega
    simp [h8, State.status_getLsbD_four_add]
  all_goals
    simp only [State.status, BitVec.getLsbD_append]
    simp

theorem toNat_append_add {m n : Nat} (x : BitVec m) (y : BitVec n) : (x ++ y).toNat = x.toNat * 2 ^ n + y.toNat := by
  rw [BitVec.toNat_append, ← Nat.shiftLeft_add_eq_or_of_lt y.isLt, Nat.shiftLeft_eq]

theorem Node.infoWord_toNat (n : Node) :
    n.infoWord.toNat = n.kind.bit.toNat * 2 ^ 31 + n.right.toNat * 2 ^ 17 + n.left.toNat * 2 ^ 8 + n.sym.toNat := by
  simp only [Node.infoWord, toNat_append_add, BitVec.toNat_ofNat]
  omega

/-- Settles O24: the fields of `NODE_INFO` by their places, the two halves of the weight, and the zero slot at 511. -/
theorem nodeViews : Obligations.NodeViews := by
  unfold Obligations.NodeViews
  intro s h
  have hlast : s.viewedNode 511 = Node.zero := rfl
  refine ⟨fun hh => ?_, ?zero, fun v => ⟨rfl, rfl, rfl⟩⟩
  case zero =>
    simp only [State.content, hlast]
    decide
  have hview : s.viewedNode h = s.nodeAt h := if_pos hh
  simp only [State.content, hview]
  refine ⟨Node.infoWord_toNat _, ?lo, ?hi⟩
  case lo => exact BitVec.toNat_setWidth ..
  case hi =>
    have := (s.nodeAt h).weight.isLt
    simp [Nat.shiftRight_eq_div_pow]
    omega

/-- Settles O60: each list is the map of its index range. -/
theorem bitAndByteOrder : Obligations.BitAndByteOrder := by
  unfold Obligations.BitAndByteOrder
  intro s
  refine ⟨fun sym => ⟨by simp [State.code], fun k hk => ?code⟩, ⟨by simp [State.input], fun i hi => ?input⟩,
    by simp [State.stream], fun j hj => ⟨fun hfull => ?full, fun hlast => ?last⟩⟩
  case code => simp [State.code, hk, msbFirst]
  case input => simp [State.input, hi]
  case full => simp [State.stream, hj, State.streambit, hfull, msbFirst]
  case last => simp [State.stream, hj, State.streambit, hlast]

/-! ## The host's writes -/

/-- Settles O17: address 1 selects `CMD`, and its write is the acceptance. -/
theorem commandAcceptance : Obligations.CommandAcceptance := by
  unfold Obligations.CommandAcceptance
  intro s w
  have hcell : cellOf s.cfg 0x0000001#26 = .reg .cmd := rfl
  refine ⟨rfl, fun hidle => ?_, fun hbusy => ?_⟩
  · simp only [hostWrite, hidle, hcell]
    rfl
  · simp [hostWrite, hbusy]

/-- The tree, the output and the report are the same, and so are the parameters. -/
def State.sameResults (s t : State) : Prop :=
  t.node = s.node ∧ t.root = s.root ∧ t.nodeCount = s.nodeCount ∧ t.tv = s.tv ∧ t.out = s.out ∧ t.outLen = s.outLen ∧
    t.errInfo = s.errInfo ∧ t.cfg = s.cfg ∧ t.powerOns = s.powerOns

theorem State.sameResults_refl (s : State) : s.sameResults s := ⟨rfl, rfl, rfl, rfl, rfl, rfl, rfl, rfl, rfl⟩

theorem writeCell_sameResults (s : State) (v : Word) (x : Cell) : s.sameResults (s.writeCell v x) := by
  cases x with
  | reg r => cases r <;> exact s.sameResults_refl
  | _ => exact s.sameResults_refl

theorem hostWrite_sameResults (s : State) (a : CellAddr) (v : Word) : s.sameResults (hostWrite s a v) := by
  unfold hostWrite
  split
  · exact s.sameResults_refl
  · exact writeCell_sameResults s v _

theorem hostStep_sameResults {s t : State} (ht : hostStep s = .next t) (hr : s.host.script.head? ≠ some .reset) :
    s.sameResults t := by
  rcases hostStep_cases ht with ⟨k, rfl⟩ | ⟨a, v, rest, -, rfl⟩ | ⟨rest, hs, -⟩
  · exact s.sameResults_refl
  · exact hostWrite_sameResults { s with host := { s.host with script := rest } } a v
  · exact absurd (by rw [hs]; rfl) hr

/-- Settles O23: no writable cell is one of these. -/
theorem hostCannotWriteTheTree : Obligations.HostCannotWriteTheTree := fun _ _ => hostStep_sameResults

theorem cellOf_addrOf {c : Config} (hc : c.wf) {x : Cell} (hx : Cell.wf c x = true) : cellOf c (addrOf x) = x :=
  congrArg Subtype.val ((addressEquiv hc).left_inv ⟨x, hx⟩)

theorem readReg_writeReg_ne (s : State) (v : Word) {r q : Reg} (hr : r ≠ .cmd) (hq : q ≠ r) :
    (s.writeReg v r).readReg q = s.readReg q := by
  cases r with
  | cmd => exact absurd rfl hr
  | srcLen =>
    cases q with
    | srcLen => exact absurd rfl hq
    | _ => rfl
  | byteCount =>
    cases q with
    | byteCount => exact absurd rfl hq
    | _ => rfl
  | bitCount =>
    cases q with
    | bitCount => exact absurd rfl hq
    | _ => rfl
  | _ => rfl

theorem readReg_writeCell (s : State) (v : Word) {x : Cell} (hx : ∀ r, x ≠ .reg r) (q : Reg) :
    (s.writeCell v x).readReg q = s.readReg q := by
  cases x with
  | reg r => exact absurd rfl (hx r)
  | _ => cases q <;> rfl

/-- R35, R50: a write to a cell other than `CMD` changes no other cell. -/
theorem content_writeCell_ne (s : State) (v : Word) {x y : Cell} (hx : x ≠ .reg .cmd) (hy : y ≠ x) :
    (s.writeCell v x).content y = s.content y := by
  have hdata : ∀ q, (∀ r, x ≠ .reg r) → (s.writeCell v x).content (.reg q) = s.content (.reg q) :=
    fun q hr => readReg_writeCell s v hr q
  cases x with
  | reg r =>
    cases y with
    | reg q => exact readReg_writeReg_ne s v (fun h => hx (h ▸ rfl)) fun h => hy (h ▸ rfl)
    | _ => cases r <;> rfl
  | freq i =>
    cases y with
    | reg q => exact hdata q (by simp)
    | freq j => exact State.setFreq_freqAt_ne s v fun h => hy (congrArg Cell.freq h)
    | _ => rfl
  | ctLen i =>
    cases y with
    | reg q => exact hdata q (by simp)
    | ctLen j => exact congrArg (BitVec.setWidth 32) (State.setCtLen_ctLenAt_ne s _ fun h => hy (congrArg Cell.ctLen h))
    | _ => rfl
  | ctBits k =>
    cases y with
    | reg q => exact hdata q (by simp)
    | ctBits j => exact congrArg (BitVec.setWidth 32) (State.setCtBits_ctBitsAt_ne s _ fun h => hy (congrArg Cell.ctBits h))
    | _ => rfl
  | src i =>
    cases y with
    | reg q => exact hdata q (by simp)
    | src j => exact congrArg (BitVec.setWidth 32) (State.setSrc_srcAt_ne s _ fun h => hy (congrArg Cell.src h))
    | _ => rfl
  | pk i =>
    cases y with
    | reg q => exact hdata q (by simp)
    | pk j => exact congrArg (BitVec.setWidth 32) (State.setPk_pkAt_ne s _ fun h => hy (congrArg Cell.pk h))
    | _ => rfl
  | nodeInfo | nodeWlo | nodeWhi | out | unmapped => rfl

/-- Settles O21: the address selects the cell, and the cell's write is a table write or a register's. -/
theorem writesDoNotAlias : Obligations.WritesDoNotAlias := by
  unfold Obligations.WritesDoNotAlias
  intro s x y v hc hidle hx hcmd
  have hw : hostWrite s (addrOf x) v = s.writeCell v x := by simp [hostWrite, hidle, cellOf_addrOf hc hx]
  rw [hw]
  refine ⟨content_writeCell_ne s v hcmd, ?word, ?byte⟩
  case word =>
    rintro (⟨i, rfl⟩ | rfl | rfl | rfl)
    · exact State.setFreq_freqAt_self s i v
    all_goals rfl
  case byte =>
    rintro (⟨i, rfl⟩ | ⟨i, rfl⟩ | ⟨i, rfl⟩ | ⟨i, rfl⟩)
    · exact congrArg (BitVec.setWidth 32) (State.setCtLen_ctLenAt_self s i _)
    · exact congrArg (BitVec.setWidth 32) (State.setCtBits_ctBitsAt_self s i _)
    · exact congrArg (BitVec.setWidth 32) (State.setSrc_srcAt_self s i _)
    · exact congrArg (BitVec.setWidth 32) (State.setPk_pkAt_self s i _)

end Sys2Proof.Machine
end

section
/-!
SUPPORT. What each body can change (30_encoding.md R62), and with it what changes `TV`.
-/

namespace Sys2Proof.Machine

/-! ## Frames of the bodies -/

theorem bodyFcount_frame (s : State) : (bodyFcount s).Ends fun t => ∃ f, t = { s with freq := f } := by
  refine Body.Ends.withEffects ?_ fun _ h => h
  split
  · exact ⟨s.freq, rfl⟩
  · split
    · exact ⟨[], rfl⟩
    · obtain ⟨f, hf⟩ := countByte_foldl_frame s.input s.zeroFreq
      exact ⟨f, hf⟩

theorem bodyCgen_frame (s : State) : (bodyCgen s).Ends fun t => ∃ l b, t = { s with ctLen := l, ctBits := b } := by
  refine Body.Ends.withEffects ?_ fun _ h => h
  split
  · exact ⟨s.ctLen, s.ctBits, rfl⟩
  · generalize hb : walk (Config.lCode + 1) s.root.toNat [] s.zeroCodes = b
    cases b with
    | returned t =>
      obtain ⟨l, m, ht⟩ := walk_returned_frame _ _ _ _ _ hb
      exact ⟨l, m, ht⟩
    | raised e t => exact absurd hb (walk_not_raised _ _ _ _ _ _)
    | stuck f => trivial

theorem bodyPack_frame (s : State) :
    (bodyPack s).Ends fun t => ∃ m a b, t = { s with pk := m, bitCount := a, byteCount := b } := by
  refine Body.Ends.withEffects ?_ fun t ⟨m, _, _, ht⟩ => ⟨m, 0#32, 0#32, ht ▸ rfl⟩
  split
  · exact ⟨s.pk, 0#32, 0#32, rfl⟩
  · have hbytes := packBytes_frame s.input 0 (s.setCounts 0 0) Packer.start
    split
    · rename_i e he
      rw [he] at hbytes
      obtain ⟨m, hm⟩ := hbytes
      exact ⟨m, 0#32, 0#32, hm⟩
    · rename_i r hr
      rw [hr] at hbytes
      obtain ⟨m, hm⟩ := hbytes
      obtain ⟨m', a, b, hend⟩ := packEnd_frame r.1 r.2
      exact ⟨m', a, b, hend.trans (by rw [show r.1 = _ from hm]; rfl)⟩

theorem bodyUnpack_frame (s : State) : (bodyUnpack s).Ends fun t => ∃ m n, t = { s with out := m, outLen := n } := by
  refine Body.Ends.withEffects ?_ fun t ⟨m, _, ht⟩ => ⟨m, 0#32, ht ▸ rfl⟩
  split
  · exact ⟨s.out, 0#32, rfl⟩
  · split
    · exact ⟨s.out, 0#32, rfl⟩
    · have hbits := unpackBits_frame s.lmax s.stream 0 (s.setOutLen 0) ⟨[], 0, 0⟩
      split
      · rename_i e he
        rw [he] at hbits
        obtain ⟨m, hm⟩ := hbits
        exact ⟨m, 0#32, hm⟩
      · rename_i r hr
        rw [hr] at hbits
        obtain ⟨m, hm⟩ := hbits
        exact ⟨m, BitVec.ofNat 32 r.2, by rw [show r.1 = _ from hm]; rfl⟩

/-! ## What changes `TV` -/

theorem buildTree_tv (s : State) : (buildTree s).tv = true ∨ (buildTree s).tv = s.tv := by
  obtain ⟨n, hn⟩ := seedLeaves_frame s.present 0 s []
  obtain ⟨m, hm⟩ := mergeAll_frame s.present.length s.present.length (seedLeaves s.present 0 s []).1
    (seedLeaves s.present 0 s []).2
  unfold buildTree takeRoot
  simp only
  split
  · rw [hm, hn]
    exact .inr rfl
  · exact .inl rfl

/-- The commands that neither build nor drop a tree leave `TV`. -/
theorem bodyOf_tv {i : Instr} (hclear : i ≠ .clear) (htbuild : i ≠ .tbuild) (hencode : i ≠ .encode) (s : State) :
    (bodyOf i s).Ends fun t => t.tv = s.tv := by
  cases i with
  | clear => exact absurd rfl hclear
  | tbuild => exact absurd rfl htbuild
  | encode => exact absurd rfl hencode
  | nop => exact rfl
  | fcount => exact (bodyFcount_frame s).imp fun t ⟨_, ht⟩ => ht ▸ rfl
  | cgen => exact (bodyCgen_frame s).imp fun t ⟨_, _, ht⟩ => ht ▸ rfl
  | pack => exact (bodyPack_frame s).imp fun t ⟨_, _, _, ht⟩ => ht ▸ rfl
  | unpack => exact (bodyUnpack_frame s).imp fun t ⟨_, _, ht⟩ => ht ▸ rfl

theorem exec_tv {i : Instr} {s t : State} (hclear : i ≠ .clear) (htbuild : i ≠ .tbuild) (hencode : i ≠ .encode)
    (ht : exec i s = .next t) : t.tv = s.tv := by
  rw [exec_eq_complete] at ht
  obtain ⟨u, e, hu, rfl⟩ := (bodyOf_tv hclear htbuild hencode s).complete ht
  exact hu

theorem exec_clear_tv {s t : State} (ht : exec .clear s = .next t) : t.tv = false := by
  cases ht
  rfl

/-- TBUILD drops the tree only with the error of R90. -/
theorem exec_tbuild_tv {s t : State} (ht : exec .tbuild s = .next t) :
    t.err = .insufficientAlphabet ∨ t.tv = true ∨ t.tv = s.tv := by
  change (bodyTbuild s).complete = .next t at ht
  unfold bodyTbuild at ht
  split at ht
  · cases ht
    exact .inl rfl
  · cases ht
    exact .inr (buildTree_tv s)

theorem bodyCgen_returned_tv {s t : State} (ht : bodyCgen s = .returned t) : t.tv = true := by
  have hframe := bodyCgen_frame s
  rw [ht] at hframe
  obtain ⟨l, b, rfl⟩ := hframe
  unfold bodyCgen at ht
  split at ht
  · simp at ht
  · rename_i htv
    exact Bool.eq_true_of_not_eq_false htv

/-- ENCODE succeeds only through a CGEN stage that found a tree. -/
theorem bodyEncode_returned_tv {s t : State} (ht : bodyEncode s = .returned t) : t.tv = true := by
  unfold bodyEncode at ht
  generalize hb : (((bodyFcount (s.dropTree.setCounts 0 0)).andThen bodyTbuild).andThen bodyCgen).andThen bodyPack = b at ht
  cases b with
  | raised e u => simp at ht
  | stuck f => simp at ht
  | returned u =>
    cases ht
    obtain ⟨c, hc, hpack⟩ := Body.andThen_eq_returned hb
    obtain ⟨b, -, hcgen⟩ := Body.andThen_eq_returned hc
    have hframe := bodyPack_frame c
    rw [hpack] at hframe
    obtain ⟨m, x, y, rfl⟩ := hframe
    exact bodyCgen_returned_tv (t := c) hcgen

theorem exec_encode_tv {s t : State} (ht : exec .encode s = .next t) : t.err ≠ .none ∨ t.tv = true := by
  rw [exec_eq_complete] at ht
  rcases Body.complete_next ht with ⟨u, hu, rfl⟩ | ⟨e, u, -, rfl⟩
  · exact .inr (bodyEncode_returned_tv (t := u) hu)
  · exact .inl (resultCode_some_ne e)

theorem eq_opc_of_decodeOpc {n : Nat} {i : Instr} (h : decodeOpc n = some i) : n = i.opc.toNat := by
  unfold decodeOpc at h
  split at h <;> cases h <;> rfl

/-- R60, R61: a word that decodes to a command is that command's word. -/
theorem eq_encode_of_decode {w : Word} {i : Instr} (h : decode w = .ok i) : w = encode i := by
  unfold decode at h
  split at h
  · rename_i hrsv
    split at h
    · rename_i j hopc
      cases h
      have hlow := eq_opc_of_decodeOpc hopc
      have hhigh := congrArg BitVec.toNat hrsv
      simp only [opcField, rsvField, BitVec.extractLsb'_toNat, Nat.shiftRight_eq_div_pow] at hlow hhigh
      refine BitVec.eq_of_toNat_eq ?_
      rw [encode, toNat_append_add, ← hlow]
      have := w.isLt
      simp at hhigh ⊢
      omega
    · cases h
  · cases h

/-- R13, D27 for a completion. -/
theorem exec_changes_tv {i : Instr} {s t : State} (ht : exec i s = .next t) :
    (s.tv = false → t.tv = true → i = .tbuild ∨ i = .encode) ∧
    (s.tv = true → t.tv = false →
      i = .clear ∨ (i = .tbuild ∧ t.err = .insufficientAlphabet) ∨ (i = .encode ∧ t.err ≠ .none)) := by
  cases i with
  | clear => simp [exec_clear_tv ht]
  | tbuild =>
    refine ⟨fun _ _ => .inl rfl, fun hs htv => .inr (.inl ⟨rfl, ?_⟩)⟩
    simpa [htv, hs] using exec_tbuild_tv ht
  | encode =>
    refine ⟨fun _ _ => .inr rfl, fun hs htv => .inr (.inr ⟨rfl, ?_⟩)⟩
    simpa [htv] using exec_encode_tv ht
  | _ =>
    have htv := exec_tv (by simp) (by simp) (by simp) ht
    simp +contextual [htv]

/-- A host operation changes `TV` only by a reset, which drops it (R166). -/
theorem hostStep_tv {s t : State} (ht : hostStep s = .next t) :
    t.tv = s.tv ∨ (t.tv = false ∧ s.host.script.head? = some .reset) := by
  rcases hostStep_cases ht with ⟨k, rfl⟩ | ⟨a, v, rest, -, rfl⟩ | ⟨rest, hs, rfl⟩
  · exact .inl rfl
  · obtain ⟨-, -, -, htv, -⟩ := hostWrite_sameResults { s with host := { s.host with script := rest } } a v
    exact .inl htv
  · exact .inr ⟨rfl, by rw [hs]; rfl⟩

theorem step_tv_of_hostTurn {s t : State} (hturn : ¬ s.engineTurn) (ht : step s = .next t) :
    t.tv = s.tv ∨ (t.tv = false ∧ s.host.script.head? = some .reset) := by
  cases hb : s.busy with
  | true => exact hostStep_tv (s := s.tick) (step_of_busy hturn hb ▸ ht)
  | false => exact hostStep_tv (step_of_idle hb ▸ ht)

/-- R13, D27 for the completion of whatever word was accepted; an illegal one leaves `TV`. -/
theorem completion_changes_tv {s t : State} (ht : completion s = .next t) :
    (s.tv = false → t.tv = true → s.cur = encode .tbuild ∨ s.cur = encode .encode) ∧
    (s.tv = true → t.tv = false →
      s.cur = encode .clear ∨ (s.cur = encode .tbuild ∧ t.err = .insufficientAlphabet) ∨
        (s.cur = encode .encode ∧ t.err ≠ .none)) := by
  unfold completion at ht
  split at ht
  · rename_i i hi
    obtain ⟨hrise, hfall⟩ := exec_changes_tv ht
    rw [eq_encode_of_decode hi]
    refine ⟨fun h0 h1 => (hrise h0 h1).imp (congrArg encode) (congrArg encode), fun h1 h0 => ?_⟩
    exact (hfall h1 h0).imp (congrArg encode) (.imp (.imp_left (congrArg encode)) (.imp_left (congrArg encode)))
  · rw [completeIllegal_eq] at ht
    cases ht
    simp +contextual

/-- Settles O16: a completion changes `TV` by its command, a host operation by a reset only. -/
theorem treeValidChangesOnlyByItsCommands : Obligations.TreeValidChangesOnlyByItsCommands := by
  unfold Obligations.TreeValidChangesOnlyByItsCommands
  intro s t ht
  by_cases hturn : s.engineTurn
  · obtain ⟨hrise, hfall⟩ := completion_changes_tv (step_of_engineTurn hturn ▸ ht)
    exact ⟨fun h0 h1 => ⟨hturn, hrise h0 h1⟩, fun h1 h0 => .inl ⟨hturn, hfall h1 h0⟩⟩
  · rcases step_tv_of_hostTurn hturn ht with hsame | ⟨hdrop, hreset⟩
    · exact ⟨fun h0 h1 => by simp [hsame, h0] at h1, fun h1 h0 => by simp [hsame, h1] at h0⟩
    · exact ⟨fun _ h1 => by simp [hdrop] at h1, fun _ _ => .inr ⟨hturn, hreset⟩⟩

end Sys2Proof.Machine
end

section
/-!
SUPPORT. PACK and UNPACK read a code table through its codes only (10_state.md R23): replacing `CT_BITS` by another content with the
same codes commutes with both.
-/

namespace Sys2Proof.Machine

/-! ## A change of the state carried through a body -/

/-- Both ends of a loop, the state changed by `f`. -/
def mapEnds {β : Type} (f : State → State) :
    Except (CmdError × State) (State × β) → Except (CmdError × State) (State × β)
  | .error e => .error (e.1, f e.2)
  | .ok r => .ok (f r.1, r.2)

@[simp] theorem mapEnds_error {β : Type} (f : State → State) (e : CmdError × State) :
    mapEnds (β := β) f (.error e) = .error (e.1, f e.2) := rfl

@[simp] theorem mapEnds_ok {β : Type} (f : State → State) (r : State × β) : mapEnds f (.ok r) = .ok (f r.1, r.2) := rfl

/-- The end of a body, the state changed by `f`. -/
def Body.mapState (f : State → State) : Body → Body
  | .returned s => .returned (f s)
  | .raised e s => .raised e (f s)
  | .stuck g => .stuck g

theorem Body.withEffects_mapState {f : State → State} {i : Instr} (hf : ∀ s, errorEffects i (f s) = f (errorEffects i s))
    (b : Body) : (b.mapState f).withEffects i = (b.withEffects i).mapState f := by
  cases b with
  | returned s => rfl
  | raised e s => exact congrArg _ (hf s)
  | stuck g => rfl

theorem Body.complete_mapState {f : State → State} (hf : ∀ s e, (f s).finish e = f (s.finish e)) {b : Body} {t : State}
    (h : b.complete = .next t) : (b.mapState f).complete = .next (f t) := by
  rcases Body.complete_next h with ⟨s, rfl, rfl⟩ | ⟨e, s, rfl, rfl⟩
  · exact congrArg _ (hf s _)
  · exact congrArg _ (hf s _)

/-! ## `CT_BITS` replaced -/

/-- `CT_BITS` with another content. -/
def State.withCtBits (m : Memory) (s : State) : State := { s with ctBits := m }

/-- The replacement leaves every code as it is: it differs only in bits that R23 calls don't care. -/
def State.sameCodes (m : Memory) (s : State) : Prop := ∀ sym, sym < 256 → (s.withCtBits m).code sym = s.code sym

section WithCtBits
variable (m : Memory) (s : State)

@[simp] theorem State.withCtBits_cfg : (s.withCtBits m).cfg = s.cfg := rfl
@[simp] theorem State.withCtBits_srcLen : (s.withCtBits m).srcLen = s.srcLen := rfl
@[simp] theorem State.withCtBits_byteCount : (s.withCtBits m).byteCount = s.byteCount := rfl
@[simp] theorem State.withCtBits_bitCount : (s.withCtBits m).bitCount = s.bitCount := rfl
@[simp] theorem State.withCtBits_input : (s.withCtBits m).input = s.input := rfl
@[simp] theorem State.withCtBits_stream : (s.withCtBits m).stream = s.stream := rfl
@[simp] theorem State.withCtBits_lmax : (s.withCtBits m).lmax = s.lmax := rfl
@[simp] theorem State.withCtBits_ctLenAt (i : Nat) : (s.withCtBits m).ctLenAt i = s.ctLenAt i := rfl
@[simp] theorem State.withCtBits_setCounts (a b : Nat) : (s.withCtBits m).setCounts a b = (s.setCounts a b).withCtBits m := rfl
@[simp] theorem State.withCtBits_setOutLen (n : Nat) : (s.withCtBits m).setOutLen n = (s.setOutLen n).withCtBits m := rfl

theorem packBits_withCtBits (bs : BitString) (p : Packer) :
    packBits bs (s.withCtBits m) p = mapEnds (State.withCtBits m) (packBits bs s p) := by
  induction bs generalizing s p with
  | nil => rfl
  | cons b bs ih =>
    simp only [packBits, apply_ite (mapEnds (State.withCtBits m))]
    exact if_congr Iff.rfl rfl (if_congr Iff.rfl (ih (s.setPk p.nbytes (shiftIn p.acc b)) _) (ih s _))

theorem packEnd_withCtBits (p : Packer) : packEnd (s.withCtBits m) p = (packEnd s p).withCtBits m := by
  unfold packEnd
  split
  · rfl
  · rfl

end WithCtBits

variable {m : Memory} {s : State}

theorem packBytes_withCtBits (hs : s.sameCodes m) (bs : List Byte) (i : Nat) (p : Packer) :
    packBytes bs i (s.withCtBits m) p = mapEnds (State.withCtBits m) (packBytes bs i s p) := by
  induction bs generalizing s i p with
  | nil => rfl
  | cons b bs ih =>
    simp only [packBytes, State.withCtBits_ctLenAt, hs b.toNat b.isLt, packBits_withCtBits]
    have hframe := packBits_frame (s.code b.toNat) s p
    split
    · rfl
    · cases hbits : packBits (s.code b.toNat) s p with
      | error e => rfl
      | ok r =>
        rw [hbits] at hframe
        obtain ⟨k, hk⟩ := hframe
        have hr : r.1.sameCodes m := by rw [show r.1 = _ from hk]; exact hs
        exact ih hr (i + 1) r.2

theorem bodyPack_withCtBits (hs : s.sameCodes m) : bodyPack (s.withCtBits m) = (bodyPack s).mapState (State.withCtBits m) := by
  have hbytes := packBytes_withCtBits (s := s.setCounts 0 0) hs s.input 0 Packer.start
  unfold bodyPack
  rw [← Body.withEffects_mapState (f := State.withCtBits m) fun _ => rfl]
  refine congrArg _ ?_
  simp only [State.withCtBits_cfg, State.withCtBits_srcLen, State.withCtBits_input, State.withCtBits_setCounts, hbytes]
  split_ifs
  · rfl
  · cases packBytes s.input 0 (s.setCounts 0 0) Packer.start with
    | error e => rfl
    | ok r => exact congrArg Body.returned (packEnd_withCtBits m r.1 r.2)

theorem matchCode_withCtBits (hs : s.sameCodes m) (cand : BitString) : (s.withCtBits m).matchCode cand = s.matchCode cand :=
  List.find?_congr fun sym hsym => by
    rw [State.withCtBits_ctLenAt, hs sym (List.mem_range.1 hsym)]

theorem unpackBits_withCtBits (hs : s.sameCodes m) (n : Nat) (bs : BitString) (j : Nat) (u : Unpacker) :
    unpackBits n bs j (s.withCtBits m) u = mapEnds (State.withCtBits m) (unpackBits n bs j s u) := by
  induction bs generalizing s j u with
  | nil =>
    simp only [unpackBits]
    split
    · rfl
    · rfl
  | cons b bs ih =>
    simp only [unpackBits, matchCode_withCtBits hs]
    cases s.matchCode (u.cand ++ [b]) with
    | some sym =>
      simp only [apply_ite (mapEnds (State.withCtBits m))]
      exact if_congr Iff.rfl rfl (ih (s := s.setOut u.nout (BitVec.ofNat 8 sym)) hs _ _)
    | none =>
      simp only [apply_ite (mapEnds (State.withCtBits m))]
      exact if_congr Iff.rfl rfl (ih hs _ _)

theorem bodyUnpack_withCtBits (hs : s.sameCodes m) :
    bodyUnpack (s.withCtBits m) = (bodyUnpack s).mapState (State.withCtBits m) := by
  have hbits := unpackBits_withCtBits (s := s.setOutLen 0) hs s.lmax s.stream 0 ⟨[], 0, 0⟩
  unfold bodyUnpack
  rw [← Body.withEffects_mapState (f := State.withCtBits m) fun _ => rfl]
  refine congrArg _ ?_
  simp only [State.withCtBits_cfg, State.withCtBits_byteCount, State.withCtBits_bitCount, State.withCtBits_stream,
    State.withCtBits_lmax, State.withCtBits_setOutLen, hbits]
  split_ifs
  · rfl
  · rfl
  · cases unpackBits s.lmax s.stream 0 (s.setOutLen 0) ⟨[], 0, 0⟩ with
    | error e => rfl
    | ok r => rfl

/-- Settles O51: on both states the body ends alike, and the completion writes no `CT_BITS`. -/
theorem dontCareBitsAreNotRead : Obligations.DontCareBitsAreNotRead := by
  unfold Obligations.DontCareBitsAreNotRead
  intro i s t m hi hs ht
  rw [exec_eq_complete] at ht ⊢
  have hbody : bodyOf i (s.withCtBits m) = (bodyOf i s).mapState (State.withCtBits m) := by
    rcases hi with rfl | rfl
    · exact bodyPack_withCtBits hs
    · exact bodyUnpack_withCtBits hs
  have hend := Body.complete_mapState (f := State.withCtBits m) (fun _ _ => rfl) ht
  rw [← hbody] at hend
  exact hend

end Sys2Proof.Machine
end

section
/-!
SUPPORT. The host port (20_memory.md R40 to R52): what each transaction does to the engine, and the step that carries it out.
-/

namespace Sys2Proof.Machine

/-! ## The address map -/

/-- R43: an address that selects a cell is that cell's own. -/
theorem addrOf_cellOf {c : Config} (hc : c.wf) {a : CellAddr} (ha : cellOf c a ≠ .unmapped) : addrOf (cellOf c a) = a :=
  congrArg Subtype.val ((addressEquiv hc).right_inv ⟨a, ha⟩)

/-- Settles O20: each row of R43 is the address of its cells, and cells and addresses name each other. -/
theorem addressMap : Obligations.AddressMap := by
  unfold Obligations.AddressMap
  intro c hc
  have hrow : ∀ x : Cell, Cell.wf c x = true → cellOf c (addrOf x) = x := fun x => cellOf_addrOf hc
  refine ⟨rfl, fun s hs => hrow (.freq s) (decide_eq_true hs), fun s hs => hrow (.ctLen s) (decide_eq_true hs),
    fun h hh => hrow (.nodeInfo h) (decide_eq_true hh), fun h hh => hrow (.nodeWlo h) (decide_eq_true hh),
    fun h hh => hrow (.nodeWhi h) (decide_eq_true hh), fun s j hs hj => ?ctBits,
    fun i hi => hrow (.src i) (decide_eq_true hi), fun i hi => hrow (.pk i) (decide_eq_true hi),
    fun i hi => hrow (.out i) (decide_eq_true hi), fun a ha => ⟨(cellOf_wf hc a).resolve_left ha, addrOf_cellOf hc ha⟩, hrow,
    fun s v => ⟨rfl, rfl⟩⟩
  case ctBits =>
    have hk : 32 * s + j < 32 * Config.nSym := by
      simp only [Config.nSym]
      omega
    rw [Nat.add_assoc]
    exact hrow (.ctBits (32 * s + j)) (decide_eq_true hk)

/-! ## `HostWrite` -/

theorem hostWrite_of_busy {s : State} (hb : s.busy = true) (a : CellAddr) (v : Word) : hostWrite s a v = s := if_pos hb

theorem hostWrite_of_idle {s : State} (hb : s.busy = false) (a : CellAddr) (v : Word) :
    hostWrite s a v = s.writeCell v (cellOf s.cfg a) := by
  simp [hostWrite, hb]

/-- Settles O19: an idle write is the selected cell's; of a table's cells it changes the one it names. -/
theorem hostWriteStoresTheLowBits : Obligations.HostWriteStoresTheLowBits := by
  unfold Obligations.HostWriteStoresTheLowBits
  intro s a v
  refine ⟨fun hb => hostWrite_of_busy hb a v, fun hb => ?_⟩
  simp only [hostWrite_of_idle hb]
  cases cellOf s.cfg a with
  | reg r => cases r <;> rfl
  | freq i => exact ⟨rfl, s.setFreq_freqAt_self i v, fun j => s.setFreq_freqAt_ne v⟩
  | ctLen i => exact ⟨rfl, s.setCtLen_ctLenAt_self i _, fun j => s.setCtLen_ctLenAt_ne _⟩
  | ctBits i => exact ⟨rfl, s.setCtBits_ctBitsAt_self i _, fun j => s.setCtBits_ctBitsAt_ne _⟩
  | src i => exact ⟨rfl, s.setSrc_srcAt_self i _, fun j => s.setSrc_srcAt_ne _⟩
  | pk i => exact ⟨rfl, s.setPk_pkAt_self i _, fun j => s.setPk_pkAt_ne _⟩
  | nodeInfo | nodeWlo | nodeWhi | out | unmapped => rfl

/-- Settles O22: while BUSY a write is dropped, and every other operation but a reset changes the host's side only. -/
theorem hostCannotDisturbABusyEngine : Obligations.HostCannotDisturbABusyEngine := by
  unfold Obligations.HostCannotDisturbABusyEngine
  intro s t hb ht hr
  rcases hostStep_cases ht with ⟨k, rfl⟩ | ⟨a, v, rest, -, rfl⟩ | ⟨rest, hs, -⟩
  · rfl
  · have hdropped := hostWrite_of_busy (s := { s with host := { s.host with script := rest } }) hb a v
    exact (congrArg State.arch hdropped).trans rfl
  · exact absurd (by rw [hs]; rfl) hr

/-! ## `HostRead` -/

/-- R41: the four registers that stay readable. -/
theorem readableWhileBusy_iff {x : Cell} :
    readableWhileBusy x = true ↔ x ∈ [Cell.reg .id, .reg .status, .reg .capSrc, .reg .capPk] := by
  cases x with
  | reg r => cases r <;> decide
  | _ => simp [readableWhileBusy]

theorem hostReadValue_of_idle {s : State} (hb : s.busy = false) (a : CellAddr) :
    hostReadValue s a = s.content (cellOf s.cfg a) := by
  simp [hostReadValue, hb]

theorem hostReadValue_of_readable {s : State} {a : CellAddr} (ha : readableWhileBusy (cellOf s.cfg a) = true) :
    hostReadValue s a = s.content (cellOf s.cfg a) := by
  simp [hostReadValue, ha]

theorem hostReadValue_of_busy {s : State} {a : CellAddr} (hb : s.busy = true)
    (ha : readableWhileBusy (cellOf s.cfg a) = false) : hostReadValue s a = Config.busyRead s.host.freeReads :=
  if_pos ⟨hb, ha⟩

theorem hostRead_freeReads_of_busy {s : State} {a : CellAddr} (hb : s.busy = true)
    (ha : readableWhileBusy (cellOf s.cfg a) = false) : (hostRead s a).host.freeReads = s.host.freeReads + 1 :=
  if_pos ⟨hb, ha⟩

/-- R41: the read of a register that stays readable uses up no unspecified value. -/
theorem hostRead_of_readable {s : State} {a : CellAddr} (ha : readableWhileBusy (cellOf s.cfg a) = true) :
    hostRead s a = { s with host := { s.host with reads := (a, s.content (cellOf s.cfg a)) :: s.host.reads } } := by
  simp [hostRead, hostReadValue, ha]

/-- Settles O18: the value by the two ways of R41, the content by the kind of the cell. -/
theorem hostReadReturnsTheContent : Obligations.HostReadReturnsTheContent := by
  unfold Obligations.HostReadReturnsTheContent
  intro s a
  refine ⟨rfl, rfl, fun hb => hostReadValue_of_idle hb a, fun hb => ⟨fun ha => ?readable, fun ha => ?unspecified⟩, ?zero,
    rfl, hostReadValue_of_readable (a := 0#26) rfl, rfl, hostReadValue_of_readable (a := 10#26) rfl, rfl,
    hostReadValue_of_readable (a := 11#26) rfl, rfl, rfl, rfl, rfl, rfl, rfl, ?root, ?nodeCount, fun i => ?cells⟩
  case readable => exact hostReadValue_of_readable (readableWhileBusy_iff.2 ha)
  case unspecified =>
    have hfalse := Bool.eq_false_iff.2 (mt readableWhileBusy_iff.1 ha)
    exact ⟨hostReadValue_of_busy hb hfalse, hostRead_freeReads_of_busy hb hfalse⟩
  case zero => simp [State.content, State.readReg]
  case root => exact BitVec.toNat_setWidth_of_le (by decide)
  case nodeCount => exact BitVec.toNat_setWidth_of_le (by decide)
  case cells =>
    have hbyte : ∀ b : Byte, (b.setWidth 32).toNat = b.toNat := fun _ => BitVec.toNat_setWidth_of_le (by decide)
    exact ⟨rfl, hbyte _, hbyte _, hbyte _, hbyte _, hbyte _⟩

/-! ## The step on the host's turn -/

/-- On the host's turn the step is its next operation, which while BUSY is one of those that come before the completion. -/
theorem step_of_hostTurn {s : State} (h : ¬ s.engineTurn) : step s = hostStep (s.issued s.host.script) := by
  cases hb : s.busy with
  | true => simp [step_of_busy h hb, State.tick, State.issued, hb]
  | false =>
    have hdelay : (if s.busy then s.host.delay - 1 else s.host.delay) = s.host.delay := by simp [hb]
    simp only [State.issued, hdelay, step_of_idle hb]

/-- Settles O59: the operation at the head of the script, in the state that advances it. -/
theorem hostTransactionIsOneStep : Obligations.HostTransactionIsOneStep := by
  unfold Obligations.HostTransactionIsOneStep
  intro s hturn
  have hstep : ∀ {op rest}, s.host.script = op :: rest → step s = hostStep (s.issued (op :: rest)) :=
    fun h => h ▸ step_of_hostTurn hturn
  refine ⟨fun a rest h => ⟨hstep h, rfl⟩, fun a v rest h => ⟨hstep h, fun hb => ?busy⟩, fun a rest h => hstep h,
    fun h => ?nothing⟩
  case busy => exact (hstep h).trans (congrArg Host.Outcome.next (hostWrite_of_busy (s := s.issued rest) hb a v))
  case nothing =>
    have hidle : s.busy = false := Bool.eq_false_iff.2 fun hb => hturn ⟨hb, .inr h⟩
    simp [step_of_idle hidle, hostStep, h]

/-- R13: bit 0 of `STATUS` is `BUSY`. -/
theorem State.status_getLsbD_zero (s : State) : s.status.getLsbD 0 = s.busy := (statusFields s).1

/-- R65: a poll records `STATUS`, and the host goes on when it reads `BUSY = 0`. -/
theorem hostPoll_eq (s : State) :
    hostPoll s = { s with host := { s.host with
      reads := (0x0000002#26, s.status) :: s.host.reads
      script := if s.busy then s.host.script else s.host.script.tail } } := by
  have haddr : addrOf (.reg .status) = 0x0000002#26 := rfl
  have hreadable : readableWhileBusy (cellOf s.cfg 0x0000002#26) = true := rfl
  have hcontent : s.content (cellOf s.cfg 0x0000002#26) = s.status := rfl
  simp only [hostPoll, haddr, hostReadValue_of_readable hreadable, hostRead_of_readable hreadable, hcontent,
    State.status_getLsbD_zero]
  split <;> rfl

/-- Settles O25: the step is one poll, and bit 0 of `STATUS` is `BUSY`. -/
theorem waitPollsStatus : Obligations.WaitPollsStatus := by
  unfold Obligations.WaitPollsStatus
  intro s rest hs
  have hstep : ¬ s.engineTurn → step s = .next (hostPoll (s.issued (.wait :: rest))) := fun h => by
    rw [step_of_hostTurn h, hs]
    rfl
  refine ⟨fun hb => ?idle, fun hb hturn => ?busy⟩
  case idle =>
    refine ⟨_, hstep (by simp [State.engineTurn, hb]), ?_⟩
    rw [hostPoll_eq]
    exact ⟨by simp [State.issued, hb], rfl, rfl, s.status_getLsbD_zero.trans hb⟩
  case busy =>
    have hdelay : s.host.delay - 1 + 1 = s.host.delay := Nat.sub_one_add_one fun h => hturn ⟨hb, .inl h⟩
    refine ⟨_, hstep hturn, ?_⟩
    rw [hostPoll_eq]
    exact ⟨by simp [State.issued, hb], rfl, rfl, s.status_getLsbD_zero.trans hb, by simp [State.issued, hb, hdelay]⟩

end Sys2Proof.Machine
end

section
/-!
SUPPORT. The command word (30_encoding.md R60 to R63), what the step completes (R61, 60_exceptions.md R141), and what each command
writes (R62).
-/

namespace Sys2Proof.Machine

/-! ## The command word -/

theorem decode_encode (i : Instr) : decode (encode i) = .ok i := by cases i <;> rfl

/-- Settles O1: the eight words are the encodings of the eight commands. -/
theorem commandWordsDecode : Obligations.CommandWordsDecode :=
  ⟨decode_encode .nop, decode_encode .clear, decode_encode .fcount, decode_encode .tbuild, decode_encode .cgen,
    decode_encode .pack, decode_encode .unpack, decode_encode .encode⟩

theorem ofNat_encode_toNat (i : Instr) : BitVec.ofNat 32 ((encode i).toNat % 2 ^ 32) = encode i := by
  rw [Nat.mod_eq_of_lt (encode i).isLt, BitVec.ofNat_toNat, BitVec.setWidth_eq]

theorem decodeTableWord_encode (i : Instr) : decodeTableWord 32 (encode i).toNat = some i := by
  rw [decodeTableWord, if_pos (Nat.mod_lt _ (by decide)), ofNat_encode_toNat, decode_encode]

theorem encode_eq_setWidth_opc (i : Instr) : encode i = i.opc.setWidth 32 := (BitVec.setWidth_eq_append (by decide)).symm

/-- Settles O2: the word has only `OPC` set, so both decoders read the command's own code. -/
theorem encodedCommandDecodesToItself : Obligations.EncodedCommandDecodesToItself :=
  fun i => ⟨decode_encode i, encode_eq_setWidth_opc i, decodeTableWord_encode i⟩

theorem decode_eq_ok_iff {w : Word} {i : Instr} : decode w = .ok i ↔ w = encode i :=
  ⟨eq_encode_of_decode, fun h => h ▸ decode_encode i⟩

theorem opcField_toNat (w : Word) : (opcField w).toNat = w.toNat % 2 ^ 8 := by simp [opcField]

/-- R60: `RSV` is what stands above the low eight bits. -/
theorem rsvField_eq_zero_iff {w : Word} : rsvField w = 0#24 ↔ w.toNat < 2 ^ 8 := by
  have hw := w.isLt
  rw [← BitVec.toNat_inj, rsvField, BitVec.extractLsb'_toNat, Nat.shiftRight_eq_div_pow]
  simp
  omega

/-- R61: the operation codes of the commands are those below 8. -/
theorem decodeOpc_eq_none_iff : ∀ {n : Nat}, decodeOpc n = none ↔ 8 ≤ n
  | 0 | 1 | 2 | 3 | 4 | 5 | 6 | 7 => by simp [decodeOpc]
  | n + 8 => by simp [decodeOpc]

/-- R61, R63: what a word decodes to, by where it lies. -/
theorem decode_cases (w : Word) :
    (2 ^ 8 ≤ w.toNat ∧ decode w = .error (.reservedBits (rsvField w))) ∨
    (8 ≤ w.toNat ∧ w.toNat < 2 ^ 8 ∧ decode w = .error (.illegalOpcode (opcField w))) ∨
    (w.toNat < 8 ∧ ∃ i, decode w = .ok i) := by
  by_cases hrsv : rsvField w = 0#24
  · have hw := rsvField_eq_zero_iff.1 hrsv
    have hopc : (opcField w).toNat = w.toNat := (opcField_toNat w).trans (Nat.mod_eq_of_lt hw)
    rw [decode, if_pos hrsv, hopc]
    cases hdec : decodeOpc w.toNat with
    | none => exact .inr (.inl ⟨decodeOpc_eq_none_iff.1 hdec, hw, rfl⟩)
    | some i =>
      have hlt := mt decodeOpc_eq_none_iff.2 (hdec ▸ Option.some_ne_none i)
      exact .inr (.inr ⟨Nat.lt_of_not_le hlt, i, rfl⟩)
  · exact .inl ⟨Nat.le_of_not_lt (mt rsvField_eq_zero_iff.2 hrsv), if_neg hrsv⟩

/-- Settles O3: the three places of `decode_cases` exclude each other, and so do the three results. -/
theorem onlyTheEightWordsDecode : Obligations.OnlyTheEightWordsDecode := by
  unfold Obligations.OnlyTheEightWordsDecode
  intro w
  refine ⟨fun i => decode_eq_ok_iff, ?_⟩
  rcases decode_cases w with ⟨hw, hdec⟩ | ⟨hlow, hw, hdec⟩ | ⟨hw, i, hdec⟩
  · exact ⟨iff_of_true hdec hw, iff_of_false (by simp [hdec]) (by omega)⟩
  · exact ⟨iff_of_false (by simp [hdec]) (by omega), iff_of_true hdec ⟨hlow, hw⟩⟩
  · exact ⟨iff_of_false (by simp [hdec]) (by omega), iff_of_false (by simp [hdec]) (by omega)⟩

/-! ## The step and the word in `CUR` -/

theorem step_of_decode {s : State} {i : Instr} (hturn : s.engineTurn) (hdec : decode s.cur = .ok i) : step s = exec i s := by
  rw [step_of_engineTurn hturn, completion, hdec]

/-- Settles O4: the three turns of the step; a placed word is in `CUR` on the engine's turn. -/
theorem stepCompletesTheDecodedCommand : Obligations.StepCompletesTheDecodedCommand := by
  unfold Obligations.StepCompletesTheDecodedCommand
  refine ⟨fun s i => step_of_decode, fun s => step_of_busy, fun s => step_of_idle, fun s i => ?placed⟩
  case placed =>
    have hcur : (s.withFetchWord 32 (encode i).toNat).cur = encode i := ofNat_encode_toNat i
    exact step_of_decode ⟨rfl, .inl rfl⟩ (by rw [hcur, decode_encode])

/-! ## What each command writes -/

theorem bodyTbuild_frame (s : State) :
    (bodyTbuild s).Ends fun t => ∃ n v r c, t = { s with node := n, tv := v, root := r, nodeCount := c } := by
  unfold bodyTbuild
  split
  · exact ⟨s.node, false, 0#9, 0#10, rfl⟩
  · exact buildTree_frame s

/-- The column "writes" of R62 for ENCODE: `t` is `s` but for the results of its four stages. -/
def State.encodeFrame (s t : State) : Prop :=
  ∃ f n v r c l b m x y, t = { s with
    freq := f, node := n, tv := v, root := r, nodeCount := c, ctLen := l, ctBits := b, pk := m, bitCount := x, byteCount := y }

theorem bodyEncode_frame (s : State) : (bodyEncode s).Ends s.encodeFrame := by
  refine Body.Ends.withEffects (Body.Ends.andThen (Body.Ends.andThen (Body.Ends.andThen ?fcount ?tbuild) ?cgen) ?pack)
    fun _ h => h
  case fcount =>
    exact (bodyFcount_frame _).imp fun t ⟨f, ht⟩ =>
      ⟨f, s.node, false, 0#9, 0#10, s.ctLen, s.ctBits, s.pk, 0#32, 0#32, ht⟩
  case tbuild =>
    rintro _ ⟨f, n, v, r, c, l, b, m, x, y, rfl⟩
    exact (bodyTbuild_frame _).imp fun t ⟨n, v, r, c, ht⟩ => ⟨f, n, v, r, c, l, b, m, x, y, ht⟩
  case cgen =>
    rintro _ ⟨f, n, v, r, c, l, b, m, x, y, rfl⟩
    exact (bodyCgen_frame _).imp fun t ⟨l, b, ht⟩ => ⟨f, n, v, r, c, l, b, m, x, y, ht⟩
  case pack =>
    rintro _ ⟨f, n, v, r, c, l, b, m, x, y, rfl⟩
    exact (bodyPack_frame _).imp fun t ⟨m, x, y, ht⟩ => ⟨f, n, v, r, c, l, b, m, x, y, ht⟩

/-- Settles O57: the frame of each command's body, and of the report that completes it. -/
theorem commandsWriteOnlyTheirResults : Obligations.CommandsWriteOnlyTheirResults := by
  unfold Obligations.CommandsWriteOnlyTheirResults
  intro i s t ht
  rw [exec_eq_complete] at ht
  cases i with
  | nop => cases ht; simp
  | clear => cases ht; simp
  | fcount => obtain ⟨_, e, ⟨f, rfl⟩, rfl⟩ := (bodyFcount_frame s).complete ht; simp
  | tbuild => obtain ⟨_, e, ⟨n, v, r, c, rfl⟩, rfl⟩ := (bodyTbuild_frame s).complete ht; simp
  | cgen => obtain ⟨_, e, ⟨l, b, rfl⟩, rfl⟩ := (bodyCgen_frame s).complete ht; simp
  | pack => obtain ⟨_, e, ⟨m, x, y, rfl⟩, rfl⟩ := (bodyPack_frame s).complete ht; simp
  | unpack => obtain ⟨_, e, ⟨m, n, rfl⟩, rfl⟩ := (bodyUnpack_frame s).complete ht; simp
  | encode =>
    obtain ⟨_, e, ⟨f, n, v, r, c, l, b, m, x, y, rfl⟩, rfl⟩ := (bodyEncode_frame s).complete ht; simp

end Sys2Proof.Machine
end

section
/-!
SUPPORT. The host's `SETCODE` (30_encoding.md R66): its writes run one after the other, and the bytes they write hold the code.
-/

namespace Sys2Proof.Machine

/-! ## The writes of a script -/

/-- `s` with `ops` for what its host has still to issue. -/
def State.withScript (s : State) (ops : List HostOp) : State := { s with host := { s.host with script := ops } }

theorem State.eq_withScript {s : State} {ops : List HostOp} (h : s.host.script = ops) : s = s.withScript ops := by
  subst h
  rfl

@[simp] theorem State.withScript_script (s : State) (ops : List HostOp) : (s.withScript ops).host.script = ops := rfl

@[simp] theorem State.withScript_code (s : State) (ops : List HostOp) (sym : Nat) : (s.withScript ops).code sym = s.code sym := rfl

@[simp] theorem State.withScript_ctBitsAt (s : State) (ops : List HostOp) (k : Nat) :
    (s.withScript ops).ctBitsAt k = s.ctBitsAt k := rfl

/-- While idle a `WR` at the head of the script is one step (R42, R50). -/
theorem step_wr {s : State} {x : Cell} (hc : s.cfg.wf) (hb : s.busy = false) (hx : Cell.wf s.cfg x = true) (v : Word)
    (rest : List HostOp) : step (s.withScript (Script.wr x v ++ rest)) = .next ((s.withScript rest).writeCell v x) := by
  have hidle : (s.withScript (Script.wr x v ++ rest)).busy = false := hb
  have hwrite := hostWrite_of_idle (s := s.withScript rest) hb (addrOf x) v
  rw [show (s.withScript rest).cfg = s.cfg from rfl, cellOf_addrOf hc hx] at hwrite
  exact (step_of_idle hidle).trans (congrArg Host.Outcome.next hwrite)

theorem run_succ {s t : State} (ht : step s = .next t) (n : Nat) : Host.Core.run core (n + 1) s = Host.Core.run core n t := by
  have hcore : core.step s = .next t := ht
  simp only [Host.Core.run, hcore]

/-! ## Consecutive cells of `CT_BITS` -/

/-- The bytes written to `CT_BITS` from cell `k` on. -/
def State.loadCtBits : Nat → List Byte → State → State
  | _, [], s => s
  | k, b :: bs, s => State.loadCtBits (k + 1) bs (s.setCtBits k b)

theorem loadCtBits_frame (k : Nat) (bs : List Byte) (s : State) : ∃ m, s.loadCtBits k bs = { s with ctBits := m } := by
  induction bs generalizing k s with
  | nil => exact ⟨s.ctBits, rfl⟩
  | cons b bs ih =>
    obtain ⟨m, hm⟩ := ih (k + 1) (s.setCtBits k b)
    exact ⟨m, hm⟩

theorem loadCtBits_ctBitsAt_of_outside {k j : Nat} {bs : List Byte} (s : State) (hj : j < k ∨ k + bs.length ≤ j) :
    (s.loadCtBits k bs).ctBitsAt j = s.ctBitsAt j := by
  induction bs generalizing k s with
  | nil => rfl
  | cons b bs ih =>
    rw [List.length_cons] at hj
    exact (ih (s.setCtBits k b) (by omega)).trans (s.setCtBits_ctBitsAt_ne b (by omega))

theorem loadCtBits_ctBitsAt_add {k j : Nat} {bs : List Byte} (s : State) (hj : j < bs.length) :
    (s.loadCtBits k bs).ctBitsAt (k + j) = bs[j] := by
  induction bs generalizing k j s with
  | nil => simp at hj
  | cons b bs ih =>
    cases j with
    | zero => exact (loadCtBits_ctBitsAt_of_outside (s.setCtBits k b) (.inl k.lt_succ_self)).trans (s.setCtBits_ctBitsAt_self k b)
    | succ j =>
      rw [show k + (j + 1) = k + 1 + j by omega]
      exact ih (s.setCtBits k b) (by simpa using hj)

/-- The writes of consecutive cells of `CT_BITS`, one step each. -/
theorem run_wrFrom_ctBits (k i : Nat) (bs : List Byte) {s : State} (hc : s.cfg.wf) (hb : s.busy = false)
    (hk : k + i + bs.length ≤ 8192) (rest : List HostOp) (n : Nat) :
    Host.Core.run core (bs.length + n) (s.withScript (Script.wrFrom (fun j => .ctBits (k + j)) i bs ++ rest)) =
      Host.Core.run core n ((s.loadCtBits (k + i) bs).withScript rest) := by
  induction bs generalizing i s with
  | nil =>
    rw [List.length_nil, Nat.zero_add]
    rfl
  | cons b bs ih =>
    rw [List.length_cons] at hk
    have hcell : Cell.wf s.cfg (.ctBits (k + i)) = true := decide_eq_true (show k + i < 8192 by omega)
    have hbyte : (b.setWidth 32).setWidth 8 = b := by simp
    have hstep := step_wr hc hb hcell (b.setWidth 32) (Script.wrFrom (fun j => .ctBits (k + j)) (i + 1) bs ++ rest)
    rw [State.writeCell, hbyte] at hstep
    have hcount : (b :: bs).length + n = bs.length + n + 1 := Nat.add_right_comm ..
    rw [hcount]
    exact (run_succ hstep _).trans (ih (i + 1) (s := s.setCtBits (k + i) b) hc hb (by omega))

/-! ## The bits of a code -/

theorem shiftIn_getLsbD_zero (acc : Byte) (b : Bool) : (shiftIn acc b).getLsbD 0 = b := by simp [shiftIn]

theorem shiftIn_getLsbD_succ (acc : Byte) (b : Bool) {j : Nat} (hj : j + 1 < 8) :
    (shiftIn acc b).getLsbD (j + 1) = acc.getLsbD j := by
  simp [shiftIn, hj, BitVec.getLsbD_eq_getElem (show j < 8 by omega)]

/-- Of the bits shifted in, the last stands lowest. -/
theorem getLsbD_foldl_shiftIn (f : Nat → Bool) {n j : Nat} (hj : j < n) (h8 : j < 8) :
    ((List.range n).foldl (fun acc k => shiftIn acc (f k)) 0#8).getLsbD j = f (n - 1 - j) := by
  induction n generalizing j with
  | zero => omega
  | succ n ih =>
    rw [List.range_succ, List.foldl_append, List.foldl_cons, List.foldl_nil]
    cases j with
    | zero => exact shiftIn_getLsbD_zero _ _
    | succ j => rw [shiftIn_getLsbD_succ _ _ h8, ih (by omega) (by omega), Nat.add_sub_cancel, Nat.sub_sub, Nat.add_comm 1]

/-- Bit `k` of a code stands in byte `k div 8` of its slot (R23). -/
theorem msbFirst_codeByte (bs : BitString) (k : Nat) : msbFirst (Script.codeByte bs (k / 8)) k = bs.getD k false := by
  have hbit := getLsbD_foldl_shiftIn (fun r => bs.getD (8 * (k / 8) + r) false) (n := 8) (j := 7 - k % 8) (by omega) (by omega)
  refine hbit.trans (congrArg (bs.getD · false) ?_)
  omega

/-! ## The slot and the length that `SETCODE` writes -/

/-- The 32 bytes of a slot that holds a code (R66). -/
def codeSlot (bs : BitString) : List Byte := (List.range 32).map (Script.codeByte bs)

@[simp] theorem length_codeSlot (bs : BitString) : (codeSlot bs).length = 32 := by simp [codeSlot]

/-- R66: the slot of `sym`, then its length. -/
def State.loadCode (s : State) (sym : Nat) (bs : BitString) : State :=
  (s.loadCtBits (32 * sym) (codeSlot bs)).setCtLen sym (BitVec.ofNat 8 bs.length)

theorem loadCode_frame (s : State) (sym : Nat) (bs : BitString) :
    ∃ l m, s.loadCode sym bs = { s with ctLen := l, ctBits := m } := by
  obtain ⟨m, hm⟩ := loadCtBits_frame (32 * sym) (codeSlot bs) s
  exact ⟨_, m, by rw [State.loadCode, hm]; rfl⟩

/-- The whole slot: the code, then zeros. -/
theorem loadCode_bit (s : State) (sym : Nat) (bs : BitString) {k : Nat} (hk : k < 256) :
    msbFirst ((s.loadCode sym bs).ctBitsAt (32 * sym + k / 8)) k = bs.getD k false := by
  have hlen : k / 8 < (codeSlot bs).length := by rw [length_codeSlot]; omega
  have hbyte : (codeSlot bs)[k / 8] = Script.codeByte bs (k / 8) := by simp [codeSlot]
  rw [State.loadCode, State.setCtLen_ctBitsAt, loadCtBits_ctBitsAt_add s hlen, hbyte, msbFirst_codeByte]

theorem loadCode_code_self (s : State) (sym : Nat) {bs : BitString} (hbs : bs.length ≤ 255) :
    (s.loadCode sym bs).code sym = bs := by
  have hlen : ((s.loadCode sym bs).ctLenAt sym).toNat = bs.length := by
    rw [State.loadCode, State.setCtLen_ctLenAt_self, BitVec.toNat_ofNat, Nat.mod_eq_of_lt (by omega)]
  refine List.ext_getElem (by simp [State.code, hlen]) fun k _ hk => ?_
  simp only [State.code, List.getElem_map, List.getElem_range]
  rw [loadCode_bit s sym bs (by omega), List.getD_eq_getElem _ _ hk]

theorem loadCode_code_ne (s : State) (bs : BitString) {sym o : Nat} (ho : o ≠ sym) : (s.loadCode sym bs).code o = s.code o := by
  obtain ⟨m, hm⟩ := loadCtBits_frame (32 * sym) (codeSlot bs) s
  have hlen : (s.loadCode sym bs).ctLenAt o = s.ctLenAt o := by
    rw [State.loadCode, State.setCtLen_ctLenAt_ne _ _ ho, hm]
    rfl
  rw [State.code, State.code, hlen]
  refine List.map_congr_left fun k hk => congrArg (msbFirst · k) ?_
  have hk8 := (List.mem_range.1 hk).trans (s.ctLenAt o).isLt
  rw [State.loadCode, State.setCtLen_ctBitsAt]
  refine loadCtBits_ctBitsAt_of_outside s ?_
  rw [length_codeSlot]
  omega

/-- The 33 writes of `SETCODE`, one step each. -/
theorem run_setCode {s : State} {sym : Nat} (hc : s.cfg.wf) (hb : s.busy = false) (hsym : sym < 256) (bs : BitString)
    (rest : List HostOp) :
    Host.Core.run core 33 (s.withScript (Script.setCode sym bs ++ rest)) = .next ((s.loadCode sym bs).withScript rest) := by
  have hslot := run_wrFrom_ctBits (32 * sym) 0 (codeSlot bs) hc hb (by rw [length_codeSlot]; omega)
    (Script.wr (.ctLen sym) (BitVec.ofNat 32 bs.length) ++ rest) 1
  obtain ⟨m, hm⟩ := loadCtBits_frame (32 * sym) (codeSlot bs) s
  rw [Nat.add_zero (32 * sym), hm] at hslot
  have hlen : (BitVec.ofNat 32 bs.length).setWidth 8 = BitVec.ofNat 8 bs.length := by simp
  have hstep := step_wr (s := { s with ctBits := m }) (x := .ctLen sym) hc hb (decide_eq_true hsym)
    (BitVec.ofNat 32 bs.length) rest
  rw [State.writeCell, hlen] at hstep
  rw [Script.setCode, List.append_assoc, State.loadCode, hm]
  exact hslot.trans (run_succ hstep 0)

theorem bitString_wf_iff {bs : BitString} : BitString.wf bs = true ↔ 1 ≤ bs.length ∧ bs.length ≤ 255 := by
  rw [BitString.wf, Bool.and_eq_true, decide_eq_true_eq, decide_eq_true_eq, Config.lCode]

/-- Settles O26: the 33 steps write the slot and the length of one symbol, and the bytes of the slot hold the code. -/
theorem setCodeLoadsTheCode : Obligations.SetCodeLoadsTheCode := by
  unfold Obligations.SetCodeLoadsTheCode
  intro s sym bs rest hc hb hsym hbs hs
  obtain ⟨l, m, hframe⟩ := loadCode_frame s sym bs
  have hrun := run_setCode hc hb hsym bs rest
  rw [← State.eq_withScript hs] at hrun
  refine ⟨_, hrun, State.withScript_script .., ?self, fun k hk hk8 => ?zeros, fun o _ ho => ?others, ?frame⟩
  case self => rw [State.withScript_code, loadCode_code_self s sym (bitString_wf_iff.1 hbs).2]
  case zeros => rw [State.withScript_ctBitsAt, loadCode_bit s sym bs hk8, List.getD_eq_default _ _ hk]
  case others => rw [State.withScript_code, loadCode_code_ne s bs ho]
  case frame => rw [hframe]; rfl

end Sys2Proof.Machine
end

section
/-!
SUPPORT. FCOUNT (41_fcount.md R75 to R77): what its counting loop leaves in `FREQ`, and the three ways in which it completes.
-/

namespace Sys2Proof.Machine

/-! ## The input as a list -/

@[simp] theorem State.length_input (s : State) : s.input.length = s.srcLen.toNat := by simp [State.input]

theorem State.mem_input {s : State} {b : Byte} : b ∈ s.input ↔ ∃ k, k < s.srcLen.toNat ∧ s.srcAt k = b := by
  simp [State.input]

theorem State.count_map_toNat_input (s : State) (b : Byte) : (s.input.map BitVec.toNat).count b.toNat = s.input.count b :=
  List.count_map_of_injective _ _ (fun _ _ => BitVec.eq_of_toNat_eq) b

/-! ## The counting loop -/

theorem countByte_freqAt (s : State) (b : Byte) (i : Nat) :
    (countByte s b).freqAt i = if b.toNat = i then s.freqAt i + 1#32 else s.freqAt i := by
  split
  · subst i
    exact s.setFreq_freqAt_self _ _
  · exact s.setFreq_freqAt_ne _ (Ne.symm ‹_›)

/-- The loop of R76, modulo the width of a counter. -/
theorem foldl_countByte_freqAt (bs : List Byte) (s : State) (i : Nat) :
    (bs.foldl countByte s).freqAt i = s.freqAt i + BitVec.ofNat 32 ((bs.map BitVec.toNat).count i) := by
  induction bs generalizing s with
  | nil => simp
  | cons b bs ih =>
    rw [List.foldl_cons, ih, countByte_freqAt, List.map_cons, List.count_cons]
    by_cases hb : b.toNat = i
    · simp only [hb, beq_self_eq_true, if_true, BitVec.ofNat_add]
      ac_rfl
    · simp [hb]

/-- `FREQ` zeroed and the input counted (R76). -/
def State.counted (s : State) : State := s.input.foldl countByte s.zeroFreq

/-- No counter wraps: the input is shorter than `2^32` bytes. -/
theorem State.counted_freqAt (s : State) (i : Nat) : (s.counted.freqAt i).toNat = (s.input.map BitVec.toNat).count i := by
  have hle : (s.input.map BitVec.toNat).count i ≤ s.srcLen.toNat := by
    simpa using (s.input.map BitVec.toNat).count_le_length (a := i)
  have hlen := s.srcLen.isLt
  rw [State.counted, foldl_countByte_freqAt, State.zeroFreq_freqAt, BitVec.zero_add, BitVec.toNat_ofNat]
  exact Nat.mod_eq_of_lt (by omega)

theorem State.counted_frame (s : State) : s.counted = { s with freq := s.counted.freq } := by
  obtain ⟨f, hf⟩ := countByte_foldl_frame s.input s.zeroFreq
  rw [State.counted, hf]
  rfl

theorem State.counted_byte (s : State) (b : Byte) : (s.counted.freqAt b.toNat).toNat = s.input.count b :=
  (s.counted_freqAt b.toNat).trans (s.count_map_toNat_input b)

/-- R77: each byte of the input is counted in exactly one of the 256 counters. -/
theorem State.counted_sum (s : State) :
    ((List.range 256).map fun i => (s.counted.freqAt i).toNat).sum = s.srcLen.toNat := by
  have hbyte : ∀ i ∈ (s.input.map BitVec.toNat : Multiset Nat), i ∈ Finset.range 256 := by
    intro i hi
    obtain ⟨b, -, rfl⟩ := List.mem_map.1 (Multiset.mem_coe.1 hi)
    exact Finset.mem_range.2 b.isLt
  calc ((List.range 256).map fun i => (s.counted.freqAt i).toNat).sum
      = ∑ i ∈ Finset.range 256, (s.input.map BitVec.toNat : Multiset Nat).count i := by
        simp only [s.counted_freqAt, Multiset.coe_count]
        rfl
    _ = (s.input.map BitVec.toNat).length := Multiset.sum_count_eq_card hbyte
    _ = s.srcLen.toNat := by simp

/-- R77: the counter of a byte stays 0 exactly when no cell of the input holds the byte. -/
theorem State.counted_eq_zero_iff (s : State) (b : Byte) :
    s.counted.freqAt b.toNat = 0#32 ↔ ∀ k, k < s.srcLen.toNat → s.srcAt k ≠ b := by
  calc s.counted.freqAt b.toNat = 0#32
      ↔ s.input.count b = 0 := by rw [← s.counted_byte, ← BitVec.toNat_inj]; rfl
    _ ↔ b ∉ s.input := List.count_eq_zero
    _ ↔ ∀ k, k < s.srcLen.toNat → s.srcAt k ≠ b := by simp [State.mem_input]

/-! ## The completion -/

section Exec
variable {s : State}

theorem exec_fcount_of_tooLong (h : s.cfg.srcMax < s.srcLen.toNat) :
    exec .fcount s = .next (s.reported .capacity 3#32) := by
  rw [exec_eq_complete, bodyOf, bodyFcount, if_pos h]
  rfl

theorem exec_fcount_of_empty (h : s.srcLen = 0#32) :
    exec .fcount s = .next (s.zeroFreq.reported .emptyInput 0#32) := by
  rw [exec_eq_complete, bodyOf, bodyFcount, if_neg (by simp [h]), if_pos h]
  rfl

theorem exec_fcount_of_fits (hpos : s.srcLen ≠ 0#32) (hle : s.srcLen.toNat ≤ s.cfg.srcMax) :
    exec .fcount s = .next (s.counted.reported .none 0#32) := by
  rw [exec_eq_complete, bodyOf, bodyFcount, if_neg (Nat.not_lt.2 hle), if_neg hpos]
  rfl

/-- Only the counting completion reports success (R76, R141). -/
theorem eq_counted_of_exec_fcount {t : State} (ht : exec .fcount s = .next t) (herr : t.err = .none) :
    t = s.counted.reported .none 0#32 := by
  rcases Nat.lt_or_ge s.cfg.srcMax s.srcLen.toNat with hlong | hle
  · cases (exec_fcount_of_tooLong hlong).symm.trans ht
    simp at herr
  · by_cases hempty : s.srcLen = 0#32
    · cases (exec_fcount_of_empty hempty).symm.trans ht
      simp at herr
    · exact (Host.Outcome.next.inj ((exec_fcount_of_fits hempty hle).symm.trans ht)).symm

end Exec

/-- Settles O29: one equation of `exec` per case, and the count that the loop leaves. -/
theorem fcountCountsTheInput : Obligations.FcountCountsTheInput := by
  unfold Obligations.FcountCountsTheInput
  refine ⟨rfl, fun s => ⟨exec_fcount_of_tooLong, exec_fcount_of_empty, fun _ hpos hle => ?counts⟩⟩
  case counts =>
    have hne : s.srcLen ≠ 0#32 := fun h => by simp [h] at hpos
    refine ⟨_, exec_fcount_of_fits hne hle, ?frame, s.counted_byte⟩
    case frame => exact congrArg (State.reported · .none 0#32) s.counted_frame

/-- Settles O30: a success left the counted table. -/
theorem fcountSumsToTheLength : Obligations.FcountSumsToTheLength := by
  unfold Obligations.FcountSumsToTheLength
  intro s t _ ht herr
  obtain rfl := eq_counted_of_exec_fcount ht herr
  exact ⟨s.counted_sum, s.counted_eq_zero_iff⟩

end Sys2Proof.Machine
end

section
/-!
SUPPORT. TBUILD's queue and its two loops (42_tbuild.md R80 to R83): the order of the queue, what one turn keeps the loop
keeps, and what the loops read and write.
-/

namespace Sys2Proof.Machine

/-! ## The queue -/

theorem Entry.before_iff {a b : Entry} : a.before b = true ↔
    a.weight.toNat < b.weight.toNat ∨ (a.weight = b.weight ∧ a.handle.toNat < b.handle.toNat) := by
  simp [Entry.before, BitVec.lt_def]

theorem Entry.before_trans {a b c : Entry} (hab : a.before b = true) (hbc : b.before c = true) : a.before c = true := by
  simp only [Entry.before_iff, ← BitVec.toNat_inj] at *
  omega

/-- R80: the order of the keys is total. -/
theorem Entry.before_of_not_before {a b : Entry} (hne : a ≠ b) (h : a.before b ≠ true) : b.before a = true := by
  obtain ⟨wa, ha⟩ := a
  obtain ⟨wb, hb⟩ := b
  simp only [Entry.before_iff, ne_eq, Entry.mk.injEq, ← BitVec.toNat_inj] at *
  omega

/-- The queue is in the ascending order of its keys (assumption log 11). -/
abbrev Queue.Ascending (q : Queue) : Prop := q.Pairwise fun a b => a.before b = true

theorem Queue.insert_ascending {q : Queue} {e : Entry} (hq : q.Ascending) (he : e ∉ q) : (Queue.insert q e).Ascending := by
  induction q with
  | nil => exact List.pairwise_singleton _ e
  | cons x q ih =>
    obtain ⟨hx, hq'⟩ := List.pairwise_cons.1 hq
    obtain ⟨hex, heq⟩ := not_or.1 (mt List.mem_cons.2 he)
    rw [Queue.insert]
    split
    · rename_i hlt
      exact List.pairwise_cons.2 ⟨List.forall_mem_cons.2 ⟨hlt, fun y hy => Entry.before_trans hlt (hx y hy)⟩, hq⟩
    · rename_i hge
      refine List.pairwise_cons.2 ⟨fun y hy => ?_, ih hq' heq⟩
      rcases List.mem_cons.1 ((Queue.insert_perm q e).mem_iff.1 hy) with rfl | hy
      · exact Entry.before_of_not_before hex hge
      · exact hx y hy

/-- Settles O31: insertion keeps the order and permutes, so what stands first afterwards is before all the others. -/
theorem queueGivesTheLeastKey : Obligations.QueueGivesTheLeastKey := by
  unfold Obligations.QueueGivesTheLeastKey
  intro q e hq he
  have hsorted := Queue.insert_ascending hq he
  have hperm := Queue.insert_perm q e
  refine ⟨hsorted, hperm, ?least⟩
  case least =>
    obtain ⟨m, r, hins⟩ := List.exists_cons_of_ne_nil (List.ne_nil_of_length_eq_add_one hperm.length_eq)
    rw [hins] at hsorted hperm ⊢
    exact ⟨m, r, rfl, hperm, fun x hx => Entry.before_iff.1 (List.rel_of_pairwise_cons hsorted hx)⟩

/-! ## What the two loops keep -/

/-- An invariant of the seeding loop: what one turn keeps, the whole loop keeps. -/
theorem seedLeaves_keeps {P : Nat → State → Queue → Prop} (l : List Nat) {h : Nat} {s : State} {q : Queue} (hP : P h s q)
    (hstep : ∀ x ∈ l, ∀ h s q, P h s q → P (h + 1) (s.setNode h (leafNode x (s.freqAt x)))
      (Queue.insert q ⟨(s.freqAt x).setWidth 40, BitVec.ofNat 9 h⟩)) :
    P (h + l.length) (seedLeaves l h s q).1 (seedLeaves l h s q).2 := by
  induction l generalizing h s q with
  | nil => exact hP
  | cons x l ih =>
    obtain ⟨hx, hl⟩ := List.forall_mem_cons.1 hstep
    have := ih (hx h s q hP) hl
    rwa [Nat.add_right_comm, Nat.add_assoc] at this

/-- An invariant of the merge loop: what one merge keeps, the whole loop keeps. -/
theorem mergeAll_keeps {P : Nat → State → Queue → Prop} (fuel : Nat) {h : Nat} {s : State} {q : Queue} (hP : P h s q)
    (hstep : ∀ h s a b q, P h s (a :: b :: q) → P (h + 1) (s.setNode h (mergedNode a b))
      (Queue.insert q ⟨a.weight + b.weight, BitVec.ofNat 9 h⟩)) :
    P (mergeAll fuel h s q).2.1 (mergeAll fuel h s q).1 (mergeAll fuel h s q).2.2 := by
  induction fuel generalizing h s q with
  | zero => exact hP
  | succ fuel ih =>
    match q with
    | [] => exact hP
    | [_] => exact hP
    | a :: b :: q => exact ih (hstep h s a b q hP)

/-- The states agree on the slots below `h`. -/
def State.sameSlots (s t : State) (h : Nat) : Prop := ∀ k, k < h → s.nodeAt k = t.nodeAt k

theorem State.sameSlots.setNode {s t : State} {h : Nat} (hst : s.sameSlots t h) (v : Node) :
    (s.setNode h v).sameSlots (t.setNode h v) (h + 1) := by
  intro k hk
  by_cases hkh : k = h
  · subst hkh
    simp only [State.setNode_nodeAt_self]
  · simp only [State.setNode_nodeAt_ne _ _ hkh]
    exact hst k (by omega)

/-- The states agree on the slots from `h` on. -/
def State.sameSlotsFrom (s t : State) (h : Nat) : Prop := ∀ k, h ≤ k → t.nodeAt k = s.nodeAt k

theorem State.sameSlotsFrom_self (s : State) (h : Nat) : s.sameSlotsFrom s h := fun _ _ => rfl

theorem State.sameSlotsFrom.setNode {s t : State} {h : Nat} (hst : s.sameSlotsFrom t h) (v : Node) :
    s.sameSlotsFrom (t.setNode h v) (h + 1) := fun k hk =>
  (t.setNode_nodeAt_ne v (by omega)).trans (hst k (by omega))

theorem State.sameSlotsFrom.mono {s t : State} {h h' : Nat} (hst : s.sameSlotsFrom t h) (hle : h ≤ h') :
    s.sameSlotsFrom t h' := fun k hk => hst k (hle.trans hk)

/-- The seeding loop reads the frequencies of its symbols, and of the arena nothing (R83). -/
theorem seedLeaves_congr (l : List Nat) {h : Nat} {s t : State} (q : Queue) (hfreq : ∀ x ∈ l, s.freqAt x = t.freqAt x)
    (hst : s.sameSlots t h) :
    (seedLeaves l h s q).2 = (seedLeaves l h t q).2 ∧
      (seedLeaves l h s q).1.sameSlots (seedLeaves l h t q).1 (h + l.length) := by
  induction l generalizing h s t q with
  | nil => exact ⟨rfl, hst⟩
  | cons x l ih =>
    obtain ⟨hx, hl⟩ := List.forall_mem_cons.1 hfreq
    simp only [seedLeaves, hx, List.length_cons, Nat.add_comm l.length, ← Nat.add_assoc]
    exact ih _ hl (hst.setNode _)

/-- The merge loop reads the queue only (R83). -/
theorem mergeAll_congr (fuel : Nat) {h : Nat} {s t : State} (q : Queue) (hst : s.sameSlots t h) :
    (mergeAll fuel h s q).2 = (mergeAll fuel h t q).2 ∧
      (mergeAll fuel h s q).1.sameSlots (mergeAll fuel h t q).1 (mergeAll fuel h s q).2.1 := by
  induction fuel generalizing h s t q with
  | zero => exact ⟨rfl, hst⟩
  | succ fuel ih =>
    match q with
    | [] => exact ⟨rfl, hst⟩
    | [_] => exact ⟨rfl, hst⟩
    | a :: b :: q => exact ih _ (hst.setNode _)

end Sys2Proof.Machine
end

section
/-!
SUPPORT. The merge loop takes the two least keys (42_tbuild.md R79 to R86): the forest of the loops with an ascending queue, and
the state after both loops.
-/

namespace Sys2Proof.Machine

/-! ## The two least keys -/

theorem State.keyBefore.weight_le {s : State} {a b : Nat} (h : s.keyBefore a b) :
    (s.nodeAt a).weight.toNat ≤ (s.nodeAt b).weight.toNat :=
  h.elim Nat.le_of_lt fun heq => (congrArg BitVec.toNat heq.1).le

theorem State.keyBefore.lt_of_weight_eq {s : State} {a b : Nat} (h : s.keyBefore a b)
    (heq : (s.nodeAt a).weight = (s.nodeAt b).weight) : a < b :=
  h.elim (fun hlt => absurd (congrArg BitVec.toNat heq) hlt.ne) And.right

/-- The words of `State.waiting` for `n` leaves, before `NODE_COUNT` is set. -/
def State.waitingBelow (s : State) (n h k : Nat) : Prop := k < h ∧ ∀ p, ¬ s.parentBelow n h k p

/-- `a` and `b` are, in this order, the two least keys of the slots that wait when slot `h` is made over `n` leaves (R79, R82). -/
structure State.TwoLeast (s : State) (n h a b : Nat) : Prop where
  left : s.waitingBelow n h a
  right : s.waitingBelow n h b
  order : s.keyBefore a b
  least : ∀ k, s.waitingBelow n h k → k ≠ a → k ≠ b → s.keyBefore b k

section SameSlots
variable {s t : State} {h : Nat}

theorem State.sameSlots.symm (hst : s.sameSlots t h) : t.sameSlots s h := fun k hk => (hst k hk).symm

theorem State.sameSlots.mono {h' : Nat} (hst : s.sameSlots t h) (hle : h' ≤ h) : s.sameSlots t h' :=
  fun k hk => hst k (hk.trans_le hle)

theorem State.sameSlots_setNode (s : State) (h : Nat) (v : Node) : s.sameSlots (s.setNode h v) h :=
  fun _ hk => (s.setNode_nodeAt_ne v hk.ne).symm

theorem State.waitingBelow.congr {n k : Nat} (hw : s.waitingBelow n h k) (hst : s.sameSlots t h) : t.waitingBelow n h k := by
  refine ⟨hw.1, fun p ⟨hn, hp, hchild⟩ => hw.2 p ⟨hn, hp, ?_⟩⟩
  rwa [hst p hp]

theorem State.keyBefore.congr {a b : Nat} (hk : s.keyBefore a b) (hst : s.sameSlots t h) (ha : a < h) (hb : b < h) :
    t.keyBefore a b := by
  rwa [State.keyBefore, ← hst a ha, ← hst b hb]

theorem State.TwoLeast.congr {n a b : Nat} (hl : s.TwoLeast n h a b) (hst : s.sameSlots t h) : t.TwoLeast n h a b where
  left := hl.left.congr hst
  right := hl.right.congr hst
  order := hl.order.congr hst hl.left.1 hl.right.1
  least k hk hka hkb := (hl.least k (hk.congr hst.symm) hka hkb).congr hst hl.right.1 hk.1

end SameSlots

namespace Forest
variable {syms : List Nat} {h : Nat} {s : State} {q : Queue}

/-- R83: what waits is what `PQ` holds. -/
theorem waitingBelow_iff (hf : Forest syms h s q) {k : Nat} :
    s.waitingBelow syms.length h k ↔ ∃ e ∈ q, e.handle.toNat = k := by
  constructor
  · rintro ⟨hk, hroot⟩
    by_contra hnone
    obtain ⟨p, hp, -⟩ := hf.children k hk fun e he heq => hnone ⟨e, he, heq⟩
    exact hroot p hp
  · rintro ⟨e, he, rfl⟩
    exact ⟨(hf.entries e he).1, hf.roots e he⟩

theorem keyBefore (hf : Forest syms h s q) {a b : Entry} (ha : a ∈ q) (hb : b ∈ q) (hab : a.before b = true) :
    s.keyBefore a.handle.toNat b.handle.toNat := by
  rw [State.keyBefore, ← (hf.entries a ha).2, ← (hf.entries b hb).2]
  exact Entry.before_iff.1 hab

/-- R82: the two entries that a merge takes from an ascending queue. -/
theorem twoLeast {a b : Entry} (hf : Forest syms h s (a :: b :: q)) (hq : Queue.Ascending (a :: b :: q)) :
    s.TwoLeast syms.length h a.handle.toNat b.handle.toNat := by
  obtain ⟨ha, hbq⟩ := List.pairwise_cons.1 hq
  obtain ⟨hb, -⟩ := List.pairwise_cons.1 hbq
  constructor
  case left => exact hf.waitingBelow_iff.2 ⟨a, by simp, rfl⟩
  case right => exact hf.waitingBelow_iff.2 ⟨b, by simp, rfl⟩
  case order => exact hf.keyBefore (by simp) (by simp) (ha b (by simp))
  case least =>
    intro k hk hka hkb
    obtain ⟨e, he, rfl⟩ := hf.waitingBelow_iff.1 hk
    have heq : e ∈ q := by
      rcases List.mem_cons.1 he with rfl | he
      · exact absurd rfl hka
      · exact (List.mem_cons.1 he).resolve_left fun h => hkb (h ▸ rfl)
    exact hf.keyBefore (by simp) he (hb e heq)

/-- An entry for the slot to be made next is new to the queue (R84(b)). -/
theorem new_not_mem (hf : Forest syms h s q) (hh : h < 512) (w : Weight) : ⟨w, BitVec.ofNat 9 h⟩ ∉ q := by
  intro hm
  have hlt := (hf.entries _ hm).1
  rw [BitVec.toNat_ofNat, Nat.mod_eq_of_lt hh] at hlt
  exact lt_irrefl h hlt

end Forest

/-- The merge loop of R83 between two merges: a forest with an ascending queue, of which every Internal slot was made of the two least
keys that waited. -/
structure OrderedForest (syms : List Nat) (h : Nat) (s : State) (q : Queue) : Prop where
  forest : Forest syms h s q
  leaves_le : syms.length ≤ h
  ascending : q.Ascending
  twoLeast : ∀ p, syms.length ≤ p → p < h →
    s.TwoLeast syms.length p (s.nodeAt p).left.toNat (s.nodeAt p).right.toNat

theorem OrderedForest.merge {syms : List Nat} {h : Nat} {s : State} {a b : Entry} {q : Queue}
    (hf : OrderedForest syms h s (a :: b :: q)) (hn : syms.length ≤ 256) :
    OrderedForest syms (h + 1) (s.setNode h (mergedNode a b)) (Queue.insert q ⟨a.weight + b.weight, BitVec.ofNat 9 h⟩) := by
  have hroom := hf.forest.merge_room hn
  have hold := s.sameSlots_setNode h (mergedNode a b)
  have hnew : ⟨a.weight + b.weight, BitVec.ofNat 9 h⟩ ∉ q := fun hm =>
    hf.forest.new_not_mem (by omega) _ (List.mem_cons_of_mem _ (List.mem_cons_of_mem _ hm))
  constructor
  case forest => exact (hf.forest.merge hn hf.leaves_le).perm (Queue.insert_perm _ _).symm
  case leaves_le => exact hf.leaves_le.trans h.le_succ
  case ascending => exact Queue.insert_ascending hf.ascending.of_cons.of_cons hnew
  case twoLeast =>
    intro p hp hlt
    rcases Nat.lt_succ_iff_lt_or_eq.1 hlt with hlt | rfl
    · rw [← hold p hlt]
      exact (hf.twoLeast p hp hlt).congr (hold.mono hlt.le)
    · rw [State.setNode_nodeAt_self]
      exact (hf.forest.twoLeast hf.ascending).congr hold

/-- The queue of the seeding loop before leaf `h`: ascending, of entries for the leaves made so far. -/
structure Queue.SeededBelow (h : Nat) (q : Queue) : Prop where
  ascending : q.Ascending
  handles : ∀ e ∈ q, e.handle.toNat < h

theorem Queue.SeededBelow.insert {h : Nat} {q : Queue} (hq : q.SeededBelow h) (hh : h < 512) (w : Weight) :
    (Queue.insert q ⟨w, BitVec.ofNat 9 h⟩).SeededBelow (h + 1) := by
  have hnew : (BitVec.ofNat 9 h).toNat = h := Nat.mod_eq_of_lt hh
  refine ⟨Queue.insert_ascending hq.ascending fun hm => (hq.handles _ hm).ne hnew, fun e he => ?_⟩
  rcases List.mem_cons.1 ((Queue.insert_perm _ _).mem_iff.1 he) with rfl | he
  · exact hnew.trans_lt h.lt_succ_self
  · exact (hq.handles e he).trans h.lt_succ_self

theorem seedLeaves_ascending (l : List Nat) (hl : l.length ≤ 256) (s : State) : (seedLeaves l 0 s []).2.Ascending :=
  (seedLeaves_keeps (P := fun h _ q => h ≤ 256 → q.SeededBelow h) l (fun _ => ⟨List.Pairwise.nil, by simp⟩)
    (fun _ _ _ _ _ hq hh => (hq (by omega)).insert (by omega) _) (by omega)).ascending

/-! ## The state after both loops -/

/-- The arena, the next handle and the queue after the two loops of R83. -/
def builtForest (s : State) : State × Nat × Queue :=
  mergeAll s.present.length s.present.length (seedLeaves s.present 0 s []).1 (seedLeaves s.present 0 s []).2

theorem buildTree_eq_takeRoot (s : State) :
    buildTree s = takeRoot (builtForest s).1 (builtForest s).2.1 (builtForest s).2.2 := rfl

theorem present_congr {s t : State} (hfreq : ∀ i, i < 256 → s.freqAt i = t.freqAt i) : s.present = t.present :=
  List.filter_congr fun i hi => by rw [hfreq i (List.mem_range.1 hi)]

/-- R84(f): of the state the two loops read `FREQ` only. -/
theorem builtForest_congr {s t : State} (hfreq : ∀ i, i < 256 → s.freqAt i = t.freqAt i) :
    (builtForest s).2 = (builtForest t).2 ∧ (builtForest s).1.sameSlots (builtForest t).1 (builtForest s).2.1 := by
  obtain ⟨hq, hslots⟩ := seedLeaves_congr s.present (h := 0) (s := s) (t := t) []
    (fun x hx => hfreq x (State.mem_present.1 hx).1) (fun k hk => absurd hk k.not_lt_zero)
  rw [builtForest, builtForest, ← present_congr hfreq, ← hq]
  exact mergeAll_congr _ _ (hslots.mono (by omega))

theorem builtForest_freqAt (s : State) (i : Nat) : (builtForest s).1.freqAt i = s.freqAt i := by
  obtain ⟨n, hn⟩ := seedLeaves_frame s.present 0 s []
  obtain ⟨m, hm⟩ := mergeAll_frame s.present.length s.present.length (seedLeaves s.present 0 s []).1
    (seedLeaves s.present 0 s []).2
  rw [builtForest, hm, hn]
  rfl

/-- The loops write below the next handle only (R84(b)). -/
theorem builtForest_sameSlotsFrom (s : State) : s.sameSlotsFrom (builtForest s).1 (builtForest s).2.1 :=
  mergeAll_keeps (P := fun h t _ => s.sameSlotsFrom t h) _
    ((seedLeaves_keeps (P := fun h t _ => s.sameSlotsFrom t h) (q := []) s.present (State.sameSlotsFrom_self s 0)
      fun _ _ _ _ _ ht => ht.setNode _).mono (Nat.zero_add _).le)
    fun _ _ _ _ _ ht => ht.setNode _

theorem builtForest_ordered {s : State} (hs : s.ArenaOk) (hn : 2 ≤ s.present.length) :
    ∃ t e, builtForest s = (t, 2 * s.present.length - 1, [e]) ∧ OrderedForest s.present (2 * s.present.length - 1) t [e] := by
  have hle := s.length_present_le
  have hseed : Forest s.present s.present.length (seedLeaves s.present 0 s []).1 (seedLeaves s.present 0 s []).2 := by
    simpa using seedLeaves_forest s.present [] rfl (Forest.nil hs) (by simpa using hle)
  have hcount := hseed.count
  obtain ⟨t, e, hm, -⟩ := mergeAll_forest s.present.length hseed hle le_rfl
    (List.ne_nil_of_length_pos (by omega)) (by omega)
  have hordered := mergeAll_keeps (P := OrderedForest s.present) s.present.length
    ⟨hseed, le_rfl, seedLeaves_ascending _ hle s, fun p h1 h2 => absurd h2 h1.not_gt⟩ fun h t a b q hf => hf.merge hle
  rw [hm] at hordered
  exact ⟨t, e, hm, hordered⟩

/-- The loops end alike from an arena of any content. -/
theorem builtForest_sameSlots_ordered {s : State} (hn : 2 ≤ s.present.length) :
    ∃ t e, (builtForest s).2 = (2 * s.present.length - 1, [e]) ∧
      t.sameSlots (builtForest s).1 (2 * s.present.length - 1) ∧ (∀ i, t.freqAt i = s.freqAt i) ∧
      OrderedForest s.present (2 * s.present.length - 1) t [e] := by
  have harena : s.zeroNodes.ArenaOk :=
    ⟨(Table.nil_canonical _ 0).1, (Table.nil_canonical none _).2, fun _ => ⟨fun _ => ⟨rfl, rfl⟩, fun _ => rfl⟩⟩
  obtain ⟨t, e, hb, hf⟩ := builtForest_ordered harena hn
  obtain ⟨hsnd, hslots⟩ := builtForest_congr (s := s.zeroNodes) (t := s) fun _ _ => rfl
  have hfreq := builtForest_freqAt s.zeroNodes
  rw [hb] at hsnd hslots hfreq
  exact ⟨t, e, hsnd.symm, hslots, hfreq, hf⟩

end Sys2Proof.Machine
end

section
/-!
SUPPORT. TBUILD (42_tbuild.md R83 to R90): the tree that it leaves, its completion, and the order of the merge weights.
-/

namespace Sys2Proof.Machine

/-! ## The tree -/

/-- Equal roots, equal sizes, and the same slots of the tree. -/
structure State.SameTree (s t : State) : Prop where
  root : s.root = t.root
  nodeCount : s.nodeCount = t.nodeCount
  slots : s.sameSlots t s.nodeCount.toNat

theorem State.SameTree.leafCount {s t : State} (h : s.SameTree t) : s.leafCount = t.leafCount := by
  rw [State.leafCount, State.leafCount, h.nodeCount]

/-- R33 is about the slots of the tree only. -/
theorem State.SameTree.treeInv {s t : State} (h : s.SameTree t) (hs : s.TreeInv) : t.TreeInv := by
  obtain ⟨size, rootLast, leaves, ascending, merged, oneParent⟩ := hs
  have hslots := h.slots
  have hleaf : ∀ k, k < s.leafCount → s.nodeAt k = t.nodeAt k := fun k hk =>
    hslots k (hk.trans_le (by rw [State.leafCount]; omega))
  constructor <;> simp only [← h.leafCount, ← h.nodeCount, ← h.root, State.childOf]
  case size => exact size
  case rootLast => exact rootLast
  case leaves => exact fun k hk => hleaf k hk ▸ leaves k hk
  case ascending => exact fun j k hjk hk => hleaf k hk ▸ hleaf j (hjk.trans hk) ▸ ascending j k hjk hk
  case merged =>
    intro p hp hlt
    obtain ⟨hk, hl, hr, hne, hw⟩ := merged p hp hlt
    rw [hslots _ (hl.trans hlt), hslots _ (hr.trans hlt)] at hw
    exact hslots p hlt ▸ ⟨hk, hl, hr, hne, hw⟩
  case oneParent =>
    intro k hk
    obtain ⟨p, ⟨hp, hlt, hchild⟩, huniq⟩ := oneParent k hk
    exact ⟨p, ⟨hp, hlt, hslots p hlt ▸ hchild⟩,
      fun r ⟨hr, hrlt, hrchild⟩ => huniq r ⟨hr, hrlt, (hslots r hrlt).symm ▸ hrchild⟩⟩

/-- `State.MergesTheTwoLeast` in the words that need no `NODE_COUNT`. -/
theorem State.mergesTheTwoLeast_iff {s : State} : s.MergesTheTwoLeast ↔
    ∀ p, s.leafCount ≤ p → p < s.nodeCount.toNat →
      s.TwoLeast s.leafCount p (s.nodeAt p).left.toNat (s.nodeAt p).right.toNat := by
  have hwaiting : ∀ h k, s.waiting h k ↔ s.waitingBelow s.leafCount h k := fun h k => by
    simp only [State.waiting, State.waitingBelow, State.parentBelow, not_and, not_or, ne_eq]
  simp only [State.MergesTheTwoLeast, hwaiting]
  exact forall_congr' fun p => forall_congr' fun _ => forall_congr' fun _ =>
    ⟨fun ⟨hl, hr, ho, hk⟩ => ⟨hl, hr, ho, hk⟩, fun ⟨hl, hr, ho, hk⟩ => ⟨hl, hr, ho, hk⟩⟩

theorem State.SameTree.mergesTheTwoLeast {s t : State} (h : s.SameTree t) (hs : s.MergesTheTwoLeast) :
    t.MergesTheTwoLeast := by
  rw [State.mergesTheTwoLeast_iff] at hs ⊢
  rw [← h.leafCount, ← h.nodeCount]
  intro p hp hlt
  rw [← h.slots p hlt]
  exact (hs p hp hlt).congr (h.slots.mono hlt.le)

/-- `t` holds the tree of the frequencies of `s` (R84). -/
structure State.TreeOf (s t : State) : Prop where
  root : t.root.toNat = 2 * s.present.length - 2
  nodeCount : t.nodeCount.toNat = 2 * s.present.length - 1
  treeInv : t.TreeInv
  merges : t.MergesTheTwoLeast
  leaves : ∀ k (hk : k < s.present.length), t.nodeAt k = leafNode s.present[k] (s.freqAt s.present[k])
  rootWeight : (t.nodeAt t.root.toNat).weight.toNat = ((List.range 256).map (fun i => (s.freqAt i).toNat)).sum

theorem State.TreeOf.leafCount {s t : State} (h : s.TreeOf t) : t.leafCount = s.present.length := by
  have hsize := h.treeInv.size
  have hcount := h.nodeCount
  rw [State.leafCount]
  omega

theorem State.TreeOf.congr {s t u : State} (h : s.TreeOf t) (htu : t.SameTree u) : s.TreeOf u where
  root := htu.root ▸ h.root
  nodeCount := htu.nodeCount ▸ h.nodeCount
  treeInv := htu.treeInv h.treeInv
  merges := htu.mergesTheTwoLeast h.merges
  leaves k hk := by
    rw [← htu.slots k (by have := h.nodeCount; omega)]
    exact h.leaves k hk
  rootWeight := by
    have hroot : t.root.toNat < t.nodeCount.toNat := by
      have hsize := h.treeInv.size
      have hlast := h.treeInv.rootLast
      omega
    rw [← htu.root, ← htu.slots _ hroot]
    exact h.rootWeight

/-- R84(d): a symbol that is not present adds 0. -/
theorem State.sum_present (s : State) :
    (s.present.map fun x => (s.freqAt x).toNat).sum = ((List.range 256).map fun i => (s.freqAt i).toNat).sum := by
  have habsent : (((List.range 256).filter fun i => decide ¬ s.freqAt i ≠ 0#32).map fun i => (s.freqAt i).toNat).sum = 0 := by
    refine List.sum_eq_zero fun w hw => ?_
    obtain ⟨i, hi, rfl⟩ := List.mem_map.1 hw
    have hzero : s.freqAt i = 0#32 := by simpa using (List.mem_filter.1 hi).2
    rw [hzero]
    rfl
  have hsplit := List.sum_map_filter_add_sum_map_filter_not (fun i => s.freqAt i ≠ 0#32) (fun i => (s.freqAt i).toNat)
    (List.range 256)
  rwa [habsent, Nat.add_zero] at hsplit

theorem OrderedForest.treeOf {s t : State} {e : Entry} (hf : OrderedForest s.present (2 * s.present.length - 1) t [e])
    (hfreq : ∀ i, t.freqAt i = s.freqAt i) (hn : 2 ≤ s.present.length) :
    s.TreeOf (t.setTree e.handle (2 * s.present.length - 1)) := by
  have hle := s.length_present_le
  have hroot : e.handle.toNat = 2 * s.present.length - 2 := hf.forest.root_last
  have hN : (t.setTree e.handle (2 * s.present.length - 1)).nodeCount.toNat = 2 * s.present.length - 1 :=
    Nat.mod_eq_of_lt (by omega)
  have hL : (t.setTree e.handle (2 * s.present.length - 1)).leafCount = s.present.length := by
    rw [State.leafCount, hN]
    omega
  constructor
  case root => exact hroot
  case nodeCount => exact hN
  case treeInv =>
    exact hf.forest.treeInv hn hle s.pairwise_present fun x hx => hfreq x ▸ State.mem_present.1 hx
  case merges =>
    rw [State.mergesTheTwoLeast_iff, hL, hN]
    exact fun p hp hlt => (hf.twoLeast p hp hlt).congr fun _ _ => rfl
  case leaves => exact fun k hk => hfreq _ ▸ hf.forest.leaves k hk
  case rootWeight =>
    have htotal := hf.forest.total
    simp only [List.map_cons, List.map_nil, List.sum_singleton, hfreq, (hf.forest.entries e (by simp)).2] at htotal
    exact htotal.trans s.sum_present

/-- R83 from the seeding on: the root is the one entry left, and the registers take it and the number of slots. -/
theorem buildTree_eq_setTree {s : State} {e : Entry} {h : Nat} (hb : (builtForest s).2 = (h, [e])) :
    buildTree s = (builtForest s).1.setTree e.handle h := by
  rw [buildTree_eq_takeRoot, hb]
  rfl

theorem buildTree_congr {s t : State} (hfreq : ∀ i, i < 256 → s.freqAt i = t.freqAt i) (hn : 2 ≤ s.present.length) :
    (buildTree s).SameTree (buildTree t) := by
  obtain ⟨hsnd, hslots⟩ := builtForest_congr hfreq
  obtain ⟨u, e, hs, -⟩ := builtForest_sameSlots_ordered hn
  rw [buildTree_eq_setTree hs, buildTree_eq_setTree (hsnd.symm.trans hs)]
  rw [hs] at hslots
  exact ⟨rfl, rfl, hslots.mono (Nat.mod_le _ _)⟩

theorem buildTree_treeOf {s : State} (hn : 2 ≤ s.present.length) : s.TreeOf (buildTree s) := by
  obtain ⟨t, e, hs, hslots, hfreq, hf⟩ := builtForest_sameSlots_ordered hn
  rw [buildTree_eq_setTree hs]
  exact (hf.treeOf hfreq hn).congr ⟨rfl, rfl, hslots.mono (Nat.mod_le _ _)⟩

theorem buildTree_tv_of_two_le {s : State} (hn : 2 ≤ s.present.length) : (buildTree s).tv = true := by
  obtain ⟨t, e, hs, -⟩ := builtForest_sameSlots_ordered hn
  rw [buildTree_eq_setTree hs, State.setTree_tv]

/-- R83: every field but the tree's is left alone. -/
theorem buildTree_eq {s : State} (hn : 2 ≤ s.present.length) : buildTree s = { s with
    node := (buildTree s).node, tv := true, root := (buildTree s).root, nodeCount := (buildTree s).nodeCount } := by
  have htv := buildTree_tv_of_two_le hn
  obtain ⟨n, v, r, c, hframe⟩ := buildTree_frame s
  rw [hframe] at htv ⊢
  obtain rfl : v = true := htv
  rfl

/-- R83: slots that the tree does not need are left alone. -/
theorem buildTree_nodeAt_of_le {s : State} (hn : 2 ≤ s.present.length) {k : Nat} (hk : (buildTree s).nodeCount.toNat ≤ k) :
    (buildTree s).nodeAt k = s.nodeAt k := by
  obtain ⟨t, e, hs, -⟩ := builtForest_sameSlots_ordered hn
  rw [(buildTree_treeOf hn).nodeCount] at hk
  rw [buildTree_eq_setTree hs, State.setTree_nodeAt]
  exact builtForest_sameSlotsFrom s k (by rwa [hs])

/-! ## The completion -/

section Exec
variable {s : State}

theorem exec_tbuild_of_fewer (hn : s.present.length < 2) :
    exec .tbuild s = .next (s.dropTree.reported .insufficientAlphabet (BitVec.ofNat 32 s.present.length)) := by
  rw [exec_eq_complete, bodyOf, bodyTbuild, if_pos hn]
  rfl

theorem exec_tbuild_of_two_le (hn : 2 ≤ s.present.length) :
    exec .tbuild s = .next ((buildTree s).reported .none 0#32) := by
  rw [exec_eq_complete, bodyOf, bodyTbuild, if_neg (Nat.not_lt.2 hn)]
  rfl

theorem State.sameTree_reported (s : State) (e : ErrCode) (i : Word) : s.SameTree (s.reported e i) := ⟨rfl, rfl, fun _ _ => rfl⟩

/-- `TV` is 1 after TBUILD only if it built the tree (R90). -/
theorem treeOf_of_exec_tbuild {t : State} (ht : exec .tbuild s = .next t) (htv : t.tv = true) : s.TreeOf t := by
  rcases Nat.lt_or_ge s.present.length 2 with hlt | hn
  · cases (exec_tbuild_of_fewer hlt).symm.trans ht
    cases htv
  · cases (exec_tbuild_of_two_le hn).symm.trans ht
    exact (buildTree_treeOf hn).congr (State.sameTree_reported _ _ _)

end Exec

/-- Settles O32: the raise of R83, its effects (R90) and its report. -/
theorem tbuildRejectsSmallAlphabets : Obligations.TbuildRejectsSmallAlphabets := fun _ => exec_tbuild_of_fewer

/-- Settles O33: the forest that the two loops keep ends as one tree, whatever the arena held before. -/
theorem tbuildBuildsTheTree : Obligations.TbuildBuildsTheTree := by
  unfold Obligations.TbuildBuildsTheTree
  intro s hn
  have htree := (buildTree_treeOf hn).congr (State.sameTree_reported _ .none 0#32)
  exact ⟨_, exec_tbuild_of_two_le hn, congrArg (State.reported · .none 0#32) (buildTree_eq hn), htree.root, htree.nodeCount,
    htree.treeInv, htree.leaves, htree.rootWeight, fun _ => buildTree_nodeAt_of_le hn⟩

/-- Settles O34: every merge found an ascending queue of exactly the slots that waited. -/
theorem tbuildMergesTheTwoLeastKeys : Obligations.TbuildMergesTheTwoLeastKeys := by
  unfold Obligations.TbuildMergesTheTwoLeastKeys
  intro s t ht htv
  have hmerges := (treeOf_of_exec_tbuild ht htv).merges
  refine ⟨hmerges, fun h hleaf hlt => ?_⟩
  obtain ⟨-, -, horder, -⟩ := hmerges h hleaf hlt
  exact ⟨horder.weight_le, horder.lt_of_weight_eq⟩

/-! ## The order of the weights -/

/-- A child of the slot made after `h` weighs no less than the right child of `h`: it is the slot `h`, or it waited when `h` was
made and was not taken (R87). -/
theorem State.TwoLeast.weight_le {s : State} {n h k : Nat}
    (hl : s.TwoLeast n h (s.nodeAt h).left.toNat (s.nodeAt h).right.toNat) (hn : n ≤ h)
    (hsum : (s.nodeAt (s.nodeAt h).right.toNat).weight.toNat ≤ (s.nodeAt h).weight.toNat) (hk : s.waitingBelow n (h + 1) k) :
    (s.nodeAt (s.nodeAt h).right.toNat).weight.toNat ≤ (s.nodeAt k).weight.toNat := by
  obtain ⟨hlt, hroot⟩ := hk
  rcases Nat.lt_succ_iff_lt_or_eq.1 hlt with hlt | rfl
  · have hwait : s.waitingBelow n h k := ⟨hlt, fun p ⟨hp, hph, hc⟩ => hroot p ⟨hp, hph.trans h.lt_succ_self, hc⟩⟩
    obtain ⟨hleft, hright⟩ := not_or.1 fun hc => hroot h ⟨hn, h.lt_succ_self, hc⟩
    exact (hl.least k hwait (Ne.symm hleft) (Ne.symm hright)).weight_le
  · exact hsum

/-- R87 for two merges in a row. -/
theorem State.TreeInv.merge_weight_le_succ {s : State} (hs : s.TreeInv) (hmerges : s.MergesTheTwoLeast) {h : Nat}
    (hleaf : s.leafCount ≤ h) (hlt : h + 1 < s.nodeCount.toNat) :
    (s.nodeAt h).weight.toNat ≤ (s.nodeAt (h + 1)).weight.toNat := by
  rw [State.mergesTheTwoLeast_iff] at hmerges
  have hl := hmerges h hleaf (by omega)
  have hl' := hmerges (h + 1) (by omega) hlt
  obtain ⟨-, -, -, -, hw⟩ := hs.merged h hleaf (by omega)
  obtain ⟨-, -, -, -, hw'⟩ := hs.merged (h + 1) (by omega) hlt
  have hchild := fun k => hl.weight_le (k := k) hleaf (by omega)
  have hab : (s.nodeAt (s.nodeAt h).left.toNat).weight.toNat ≤ (s.nodeAt (s.nodeAt h).right.toNat).weight.toNat :=
    hl.order.weight_le
  have hleft := hchild _ hl'.left
  have hright := hchild _ hl'.right
  omega

/-- Settles O35: from each merge to the next the weight does not fall. -/
theorem tbuildMergeWeightsRise : Obligations.TbuildMergeWeightsRise := by
  unfold Obligations.TbuildMergeWeightsRise
  intro s t ht htv h1 h2 hleaf hlt hN
  have htree := treeOf_of_exec_tbuild ht htv
  induction h2, hlt using Nat.le_induction with
  | base => exact htree.treeInv.merge_weight_le_succ htree.merges hleaf hN
  | succ h2 hlt ih => exact (ih (by omega)).trans (htree.treeInv.merge_weight_le_succ htree.merges (by omega) hN)

/-- Settles O37: with fewer than two symbols the report is of their number; else the two loops go in step. -/
theorem treeIsAFunctionOfFreq : Obligations.TreeIsAFunctionOfFreq := by
  unfold Obligations.TreeIsAFunctionOfFreq
  intro s s' t t' hfreq ht ht'
  have hp := present_congr hfreq
  rcases Nat.lt_or_ge s.present.length 2 with hlt | hn
  · cases (exec_tbuild_of_fewer hlt).symm.trans ht
    cases (exec_tbuild_of_fewer (hp ▸ hlt)).symm.trans ht'
    simp [hp]
  · cases (exec_tbuild_of_two_le hn).symm.trans ht
    cases (exec_tbuild_of_two_le (hp ▸ hn)).symm.trans ht'
    obtain ⟨hroot, hcount, hslots⟩ := buildTree_congr hfreq hn
    have htv := (buildTree_tv_of_two_le hn).trans (buildTree_tv_of_two_le (hp ▸ hn)).symm
    exact ⟨rfl, rfl, htv, hroot, hcount, hslots⟩

end Sys2Proof.Machine
end

section
/-!
SUPPORT. CGEN on a tree of two leaves (42_tbuild.md R89, 43_cgen.md R97): the code that a path becomes, and the walk.
-/

namespace Sys2Proof.Machine

/-! ## The code of a path (43_cgen.md R97) -/

/-- Of the slot of `sym`, `setCodeBit` sets bit `k` and keeps the others. -/
theorem msbFirst_setCodeBit (s : State) (sym k j : Nat) :
    msbFirst ((setCodeBit s sym k).ctBitsAt (32 * sym + j / 8)) j =
      (msbFirst (s.ctBitsAt (32 * sym + j / 8)) j || decide (j = k)) := by
  by_cases hcell : j / 8 = k / 8
  · have hbit : (1#8 <<< (7 - k % 8)).getLsbD (7 - j % 8) = decide (j = k) := by
      rw [← BitVec.twoPow_eq, BitVec.getLsbD_twoPow, decide_eq_true (by omega), Bool.true_and, decide_eq_decide]
      omega
    rw [hcell, setCodeBit, State.setCtBits_ctBitsAt_self, msbFirst, BitVec.getLsbD_or, hbit, msbFirst]
  · have hne : j ≠ k := fun h => hcell (congrArg (· / 8) h)
    rw [setCodeBit, State.setCtBits_ctBitsAt_ne _ _ (by omega), decide_eq_false hne, Bool.or_false]

/-- The inner loop of R97 adds the 1 bits of the path, which begins at bit `k` of the slot. -/
theorem msbFirst_writeBits (sym : Nat) (path : BitString) (k : Nat) (s : State) (j : Nat) :
    msbFirst ((writeBits sym path k s).ctBitsAt (32 * sym + j / 8)) j =
      (msbFirst (s.ctBitsAt (32 * sym + j / 8)) j || (decide (k ≤ j) && path.getD (j - k) false)) := by
  induction path generalizing k s with
  | nil => simp [writeBits]
  | cons b path ih =>
    have hbit : msbFirst ((if b then setCodeBit s sym k else s).ctBitsAt (32 * sym + j / 8)) j =
        (msbFirst (s.ctBitsAt (32 * sym + j / 8)) j || (b && decide (j = k))) := by
      cases b with
      | false => simp
      | true => simpa using msbFirst_setCodeBit s sym k j
    rw [writeBits, ih, hbit, Bool.or_assoc]
    congr 1
    rcases Nat.lt_trichotomy j k with hlt | rfl | hgt
    · simp [hlt.ne, hlt.not_ge, show ¬ k + 1 ≤ j by omega]
    · simp
    · obtain ⟨d, rfl⟩ := Nat.exists_eq_add_of_lt hgt
      have hk : k ≤ k + d + 1 := by omega
      have hne : k + d + 1 ≠ k := by omega
      simp [hk, hne, show k + d + 1 - k = d + 1 by omega, show k + d + 1 - (k + 1) = d by omega]

theorem writeBits_ctBitsAt_of_outside {sym j : Nat} (hj : j < 32 * sym ∨ 32 * sym + 32 ≤ j) (path : BitString) {k : Nat}
    (hk : k + path.length ≤ 256) (s : State) : (writeBits sym path k s).ctBitsAt j = s.ctBitsAt j := by
  induction path generalizing k s with
  | nil => rfl
  | cons b path ih =>
    rw [List.length_cons] at hk
    rw [writeBits, ih (by omega)]
    cases b with
    | false => rfl
    | true => exact s.setCtBits_ctBitsAt_ne _ (by omega)

theorem writeBits_ctLenAt (sym : Nat) (path : BitString) (k : Nat) (s : State) (o : Nat) :
    (writeBits sym path k s).ctLenAt o = s.ctLenAt o := by
  obtain ⟨b, hb⟩ := writeBits_frame sym path k s
  rw [hb]
  rfl

theorem writeCode_nodeAt (s : State) (sym : Nat) (path : BitString) (h : Nat) : (writeCode s sym path).nodeAt h = s.nodeAt h := by
  obtain ⟨l, b, hw⟩ := writeCode_frame s sym path
  rw [hw]
  rfl

/-- R97: at a leaf whose slot is zero the path becomes the code. -/
theorem writeCode_code_self {s : State} {sym : Nat} {path : BitString} (hp : path.length ≤ 255)
    (hzero : ∀ k, k < path.length → msbFirst (s.ctBitsAt (32 * sym + k / 8)) k = false) :
    (writeCode s sym path).code sym = path := by
  have hlen : ((writeCode s sym path).ctLenAt sym).toNat = path.length := by
    rw [writeCode, writeBits_ctLenAt, State.setCtLen_ctLenAt_self, BitVec.toNat_ofNat, Nat.mod_eq_of_lt (by omega)]
  refine List.ext_getElem (by simp [State.code, hlen]) fun k _ hk => ?_
  simp only [State.code, List.getElem_map, List.getElem_range]
  rw [writeCode, msbFirst_writeBits, State.setCtLen_ctBitsAt, hzero k hk]
  simp [hk]

theorem writeCode_ctBitsAt_of_outside {sym j : Nat} (hj : j < 32 * sym ∨ 32 * sym + 32 ≤ j) {path : BitString}
    (hp : path.length ≤ 256) (s : State) : (writeCode s sym path).ctBitsAt j = s.ctBitsAt j :=
  writeBits_ctBitsAt_of_outside hj path (by omega) _

theorem writeCode_code_ne (s : State) {sym o : Nat} (ho : o ≠ sym) {path : BitString} (hp : path.length ≤ 256) :
    (writeCode s sym path).code o = s.code o := by
  have hlen : (writeCode s sym path).ctLenAt o = s.ctLenAt o := by
    rw [writeCode, writeBits_ctLenAt, State.setCtLen_ctLenAt_ne _ _ ho]
  rw [State.code, State.code, hlen]
  refine List.map_congr_left fun k hk => congrArg (msbFirst · k) (writeCode_ctBitsAt_of_outside ?_ hp s)
  have hk8 := (List.mem_range.1 hk).trans (s.ctLenAt o).isLt
  omega

/-! ## The walk (R97) -/

theorem walk_of_leaf {s : State} {h : Nat} (hk : (s.nodeAt h).kind = .leaf) (fuel : Nat) (path : BitString) :
    walk (fuel + 1) h path s = .returned (writeCode s (s.nodeAt h).sym.toNat path) := by
  rw [walk, hk]

theorem walk_of_internal {s : State} {h : Nat} (hk : (s.nodeAt h).kind = .internal) (fuel : Nat) (path : BitString) :
    walk (fuel + 1) h path s = (walk fuel (s.nodeAt h).left.toNat (path ++ [false]) s).andThen
      (walk fuel (s.nodeAt h).right.toNat (path ++ [true])) := by
  rw [walk, hk]

theorem exec_cgen_of_tree {s : State} (htv : s.tv = true) :
    exec .cgen s = (Body.withEffects .cgen (walk 256 s.root.toNat [] s.zeroCodes)).complete := by
  rw [exec_eq_complete, bodyOf, bodyCgen, if_neg (by simp [htv])]
  rfl

/-- CGEN on a root over two leaves: the left symbol gets the code 0, the right one 1 (R89). -/
theorem exec_cgen_of_two_leaves {s : State} {a b x y : Nat} (htv : s.tv = true) (hroot : (s.nodeAt s.root.toNat).kind = .internal)
    (hleft : (s.nodeAt s.root.toNat).left.toNat = a) (hright : (s.nodeAt s.root.toNat).right.toNat = b)
    (ha : (s.nodeAt a).kind = .leaf ∧ (s.nodeAt a).sym.toNat = x) (hb : (s.nodeAt b).kind = .leaf ∧ (s.nodeAt b).sym.toNat = y)
    (hxy : x ≠ y) : ∃ u, exec .cgen s = .next u ∧ u.code x = [false] ∧ u.code y = [true] := by
  obtain ⟨hak, rfl⟩ := ha
  obtain ⟨hbk, rfl⟩ := hb
  have hwalk : walk 256 s.root.toNat [] s.zeroCodes =
      .returned (writeCode (writeCode s.zeroCodes (s.nodeAt a).sym.toNat [false]) (s.nodeAt b).sym.toNat [true]) := by
    rw [walk_of_internal (by simpa using hroot), State.zeroCodes_nodeAt, hleft, hright, walk_of_leaf (by simpa using hak),
      Body.andThen_returned, walk_of_leaf (by simpa [writeCode_nodeAt] using hbk), writeCode_nodeAt]
    rfl
  refine ⟨_, by rw [exec_cgen_of_tree htv, hwalk]; rfl, ?left, ?right⟩
  case left =>
    rw [State.finish_code, writeCode_code_ne _ hxy (by simp), writeCode_code_self (by simp)]
    simp [msbFirst]
  case right =>
    rw [State.finish_code, writeCode_code_self (by simp)]
    intro k hk
    obtain rfl : k = 0 := by simpa using hk
    rw [writeCode_ctBitsAt_of_outside (by omega) (by simp)]
    simp [msbFirst]

/-! ## Two symbols -/

theorem leafNode_weight (sym : Nat) (f : Word) : (leafNode sym f).weight.toNat = f.toNat := by
  have := f.isLt
  rw [leafNode, BitVec.toNat_setWidth]
  omega

/-- R89: the root of a tree of three slots takes the two leaves, the one of the lesser key on its left. -/
theorem State.TreeOf.two_children {s t : State} (h : s.TreeOf t) (hn : s.present.length = 2) :
    (t.nodeAt 2).kind = .internal ∧
    (((t.nodeAt 2).left = 0#9 ∧ (t.nodeAt 2).right = 1#9 ∧ (t.nodeAt 0).weight.toNat ≤ (t.nodeAt 1).weight.toNat) ∨
      ((t.nodeAt 2).left = 1#9 ∧ (t.nodeAt 2).right = 0#9 ∧ (t.nodeAt 1).weight.toNat < (t.nodeAt 0).weight.toNat)) := by
  have hleaf : t.leafCount ≤ 2 := by rw [h.leafCount, hn]
  have hcount : 2 < t.nodeCount.toNat := by rw [h.nodeCount, hn]; omega
  obtain ⟨hkind, hl, hr, hne, -⟩ := h.treeInv.merged 2 hleaf hcount
  obtain ⟨-, -, horder, -⟩ := h.merges 2 hleaf hcount
  have hcases : ((t.nodeAt 2).left = 0#9 ∧ (t.nodeAt 2).right = 1#9) ∨ ((t.nodeAt 2).left = 1#9 ∧ (t.nodeAt 2).right = 0#9) := by
    bv_omega
  refine ⟨hkind, hcases.imp (fun ⟨hl, hr⟩ => ?_) (fun ⟨hl, hr⟩ => ?_)⟩
  · rw [hl, hr] at horder
    exact ⟨hl, hr, horder.weight_le⟩
  · rw [hl, hr] at horder
    exact ⟨hl, hr, horder.weight_le.lt_of_ne fun heq =>
      absurd (horder.lt_of_weight_eq (BitVec.eq_of_toNat_eq heq)) (by decide)⟩

/-- Settles O36: the two leaves are the slots 0 and 1, and CGEN's walk visits the root and then each of them. -/
theorem twoSymbolsGetOneBitEach : Obligations.TwoSymbolsGetOneBitEach := by
  unfold Obligations.TwoSymbolsGetOneBitEach
  intro s s1 s2 hp
  have hn : s.present.length = 2 := by rw [hp]; rfl
  have hexec := exec_tbuild_of_two_le hn.ge
  have htv : ((buildTree s).reported .none 0#32).tv = true := buildTree_tv_of_two_le hn.ge
  generalize (buildTree s).reported .none 0#32 = t at hexec htv
  have htree := treeOf_of_exec_tbuild hexec htv
  have h1 := htree.leaves 0 (by omega)
  have h2 := htree.leaves 1 (by omega)
  simp only [hp, List.getElem_cons_zero, List.getElem_cons_succ] at h1 h2
  have hlt1 : s1 < 256 := (State.mem_present (s := s) |>.1 (by simp [hp])).1
  have hlt2 : s2 < 256 := (State.mem_present (s := s) |>.1 (by simp [hp])).1
  have hne : s1 ≠ s2 := by simpa [hp] using s.pairwise_present.imp Nat.ne_of_lt
  have hleaf1 : (t.nodeAt 0).kind = .leaf ∧ (t.nodeAt 0).sym.toNat = s1 := h1 ▸ ⟨rfl, Nat.mod_eq_of_lt hlt1⟩
  have hleaf2 : (t.nodeAt 1).kind = .leaf ∧ (t.nodeAt 1).sym.toNat = s2 := h2 ▸ ⟨rfl, Nat.mod_eq_of_lt hlt2⟩
  have hw1 : (t.nodeAt 0).weight.toNat = (s.freqAt s1).toNat := by rw [h1, leafNode_weight]
  have hw2 : (t.nodeAt 1).weight.toNat = (s.freqAt s2).toNat := by rw [h2, leafNode_weight]
  obtain ⟨hkind, hchildren⟩ := htree.two_children hn
  rw [hw1, hw2] at hchildren
  have hroot : t.root.toNat = 2 := by rw [htree.root, hn]
  have hrootv : t.root = 2#9 := BitVec.eq_of_toNat_eq hroot
  have hcount : t.nodeCount = 3#10 := BitVec.eq_of_toNat_eq (by rw [htree.nodeCount, hn]; rfl)
  rcases hchildren with ⟨hl, hr, hle⟩ | ⟨hl, hr, hlt⟩
  · obtain ⟨u, hu, hx, hy⟩ := exec_cgen_of_two_leaves htv (by rwa [hroot]) (by rw [hroot, hl]; rfl) (by rw [hroot, hr]; rfl)
      hleaf1 hleaf2 hne
    exact ⟨t, u, hexec, hu, hrootv, hcount, hleaf1, hleaf2, hkind, fun _ => ⟨hl, hr, hx, hy⟩, fun h => absurd hle h.not_ge⟩
  · obtain ⟨u, hu, hx, hy⟩ := exec_cgen_of_two_leaves htv (by rwa [hroot]) (by rw [hroot, hl]; rfl) (by rw [hroot, hr]; rfl)
      hleaf2 hleaf1 hne.symm
    exact ⟨t, u, hexec, hu, hrootv, hcount, hleaf1, hleaf2, hkind, fun h => absurd hlt h.not_gt, fun _ => ⟨hl, hr, hy, hx⟩⟩

end Sys2Proof.Machine
end

section
/-!
SUPPORT. The paths of a valid tree (10_state.md R33, 43_cgen.md R96, R98): every slot has exactly one path from the root, no path is
longer than 255, and no leaf's path runs on beyond it.
-/

namespace Sys2Proof.Machine

/-! ## Descending -/

/-- The slot that the branch `b` of slot `h` leads to, `left` for 0 and `right` for 1 (R96). -/
def State.child (s : State) (h : Nat) (b : Bool) : Nat :=
  if b then (s.nodeAt h).right.toNat else (s.nodeAt h).left.toNat

/-- The path `p` leads from the root to the leaf `h`. -/
def State.leafAt (s : State) (p : BitString) (h : Nat) : Prop :=
  s.descend s.root.toNat p = some h ∧ (s.nodeAt h).kind = .leaf

section Descend
variable {s : State} {h k : Nat} {p q : BitString} {b : Bool}

@[simp] theorem State.descend_nil (s : State) (h : Nat) : s.descend h [] = some h := rfl

theorem State.descend_cons_of_leaf (hk : (s.nodeAt h).kind = .leaf) : s.descend h (b :: p) = none := by
  rw [State.descend, hk]

theorem State.descend_cons_of_internal (hk : (s.nodeAt h).kind = .internal) :
    s.descend h (b :: p) = s.descend (s.child h b) p := by
  rw [State.descend, hk]
  rfl

theorem State.descend_append (s : State) (h : Nat) (p q : BitString) :
    s.descend h (p ++ q) = (s.descend h p).bind (s.descend · q) := by
  induction p generalizing h with
  | nil => rfl
  | cons b p ih =>
    cases hk : (s.nodeAt h).kind with
    | leaf => rw [List.cons_append, State.descend_cons_of_leaf hk, State.descend_cons_of_leaf hk, Option.bind_none]
    | internal => rw [List.cons_append, State.descend_cons_of_internal hk, State.descend_cons_of_internal hk, ih]

theorem State.descend_concat :
    s.descend h (p ++ [b]) = some k ↔ ∃ m, s.descend h p = some m ∧ (s.nodeAt m).kind = .internal ∧ s.child m b = k := by
  rw [State.descend_append, Option.bind_eq_some_iff]
  refine exists_congr fun m => and_congr_right fun _ => ?_
  cases hk : (s.nodeAt m).kind with
  | leaf => simp [State.descend_cons_of_leaf hk]
  | internal => simp [State.descend_cons_of_internal hk]

/-- No path runs on beyond a leaf. -/
theorem State.leafAt.eq_of_prefix (hp : s.leafAt p h) (hq : s.descend s.root.toNat q = some k) (hpq : p <+: q) : q = p := by
  obtain ⟨r, rfl⟩ := hpq
  obtain ⟨hdesc, hleaf⟩ := hp
  rw [State.descend_append, hdesc, Option.bind_some] at hq
  cases r with
  | nil => exact List.append_nil p
  | cons b r =>
    rw [State.descend_cons_of_leaf hleaf] at hq
    cases hq

/-- A leaf's path that begins with the path of an Internal slot takes one of its two branches. -/
theorem State.leafAt.concat_prefix_iff (hp : s.leafAt p h) (hm : s.descend s.root.toNat q = some k)
    (hk : (s.nodeAt k).kind = .internal) : (q ++ [false] <+: p ∨ q ++ [true] <+: p) ↔ q <+: p := by
  have hbelow : ∀ b, q ++ [b] <+: p → q <+: p := fun b => (List.prefix_append q [b]).trans
  refine ⟨fun hpre => hpre.elim (hbelow _) (hbelow _), ?_⟩
  rintro ⟨_ | ⟨b, r⟩, rfl⟩
  · obtain rfl : k = h := Option.some.inj (hm.symm.trans (by simpa using hp.1))
    exact absurd (hk.symm.trans hp.2) nofun
  · cases b <;> simp

/-- Following any bits from the root ends at a leaf, or else the bits run out first. -/
theorem State.exists_leafAt_prefix_or_descend (s : State) (bs : BitString) :
    (∃ p h, p <+: bs ∧ s.leafAt p h) ∨ ∃ h, s.descend s.root.toNat bs = some h := by
  induction bs using List.reverseRecOn with
  | nil => exact .inr ⟨_, rfl⟩
  | append_singleton bs b ih =>
    rcases ih with ⟨p, h, hp, hleaf⟩ | ⟨h, hh⟩
    · exact .inl ⟨p, h, hp.trans (List.prefix_append bs [b]), hleaf⟩
    · cases hk : (s.nodeAt h).kind with
      | leaf => exact .inl ⟨bs, h, List.prefix_append bs [b], hh, hk⟩
      | internal => exact .inr ⟨_, State.descend_concat.2 ⟨h, hh, hk, rfl⟩⟩

end Descend

/-! ## The paths of a valid tree -/

namespace State.TreeInv
variable {s : State} {h k m : Nat} {p q : BitString} {b : Bool}

theorem nodeCount_eq (hs : s.TreeInv) :
    s.nodeCount.toNat = 2 * s.leafCount - 1 ∧ s.root.toNat = 2 * s.leafCount - 2 ∧ 2 ≤ s.leafCount ∧ s.leafCount ≤ 256 := by
  have hsize := hs.size
  have hlast := hs.rootLast
  rw [State.leafCount]
  omega

/-- R33(b), (c): the leaves are the slots below `leafCount`. -/
theorem kind_eq_leaf_iff (hs : s.TreeInv) (hh : h < s.nodeCount.toNat) : (s.nodeAt h).kind = .leaf ↔ h < s.leafCount := by
  refine ⟨fun hk => ?_, fun hlt => (hs.leaves h hlt).1⟩
  by_contra hge
  obtain ⟨hi, -⟩ := hs.merged h (Nat.not_lt.1 hge) hh
  rw [hk] at hi
  cases hi

theorem leafCount_le_of_internal (hs : s.TreeInv) (hh : h < s.nodeCount.toNat) (hk : (s.nodeAt h).kind = .internal) :
    s.leafCount ≤ h := by
  rw [← Nat.not_lt, ← hs.kind_eq_leaf_iff hh, hk]
  exact nofun

theorem child_lt (hs : s.TreeInv) (hm : s.leafCount ≤ m) (hlt : m < s.nodeCount.toNat) : s.child m b < m := by
  obtain ⟨-, hl, hr, -⟩ := hs.merged m hm hlt
  cases b with
  | false => exact hl
  | true => exact hr

theorem child_injective (hs : s.TreeInv) (hm : s.leafCount ≤ m) (hlt : m < s.nodeCount.toNat) :
    Function.Injective (s.child m) := by
  obtain ⟨-, -, -, hne, -⟩ := hs.merged m hm hlt
  refine Bool.injective_iff.2 fun heq => hne (BitVec.eq_of_toNat_eq ?_)
  simpa [State.child] using heq

/-- R33(d) in the words of the branches. -/
theorem childOf_iff (s : State) : s.childOf h m ↔ s.leafCount ≤ m ∧ m < s.nodeCount.toNat ∧ ∃ b, s.child m b = h := by
  simp [State.childOf, State.child]

/-- R98: the slots of a path fall from the root on, and all but the last are among the `leafCount - 1` Internal ones. -/
theorem add_length_le (hs : s.TreeInv) (hp : s.descend s.root.toNat p = some h) :
    h + p.length ≤ s.root.toNat ∧ s.leafCount - 1 + p.length ≤ s.root.toNat := by
  obtain ⟨hN, hroot, htwo, -⟩ := hs.nodeCount_eq
  induction p using List.reverseRecOn generalizing h with
  | nil =>
    obtain rfl : s.root.toNat = h := Option.some.inj hp
    simp only [List.length_nil]
    omega
  | append_singleton p b ih =>
    obtain ⟨m, hm, hk, rfl⟩ := State.descend_concat.1 hp
    have hle := ih hm
    have hinternal := hs.leafCount_le_of_internal (by omega) hk
    have hchild := hs.child_lt (b := b) hinternal (by omega)
    rw [List.length_append, List.length_singleton]
    omega

theorem descend_lt (hs : s.TreeInv) (hp : s.descend s.root.toNat p = some h) : h < s.nodeCount.toNat := by
  have hle := hs.add_length_le hp
  have hN := hs.nodeCount_eq
  omega

/-- R98. -/
theorem length_le (hs : s.TreeInv) (hp : s.descend s.root.toNat p = some h) : p.length ≤ 255 := by
  have hle := hs.add_length_le hp
  have hN := hs.nodeCount_eq
  omega

/-- The last slot before the end of a path is a parent of that end (R33(d)). -/
theorem childOf_of_descend (hs : s.TreeInv) (hm : s.descend s.root.toNat p = some m) (hk : (s.nodeAt m).kind = .internal)
    (b : Bool) : s.childOf (s.child m b) m := by
  have hlt := hs.descend_lt hm
  exact (childOf_iff s).2 ⟨hs.leafCount_le_of_internal hlt hk, hlt, b, rfl⟩

/-- The root is no slot's child, since children lie below their parents. -/
theorem lt_last_of_childOf (hs : s.TreeInv) (hc : s.childOf h m) : h < s.nodeCount.toNat - 1 := by
  obtain ⟨hm, hlt, b, rfl⟩ := (childOf_iff s).1 hc
  have := hs.child_lt (b := b) hm hlt
  omega

/-- R33(d): two paths from the root to one slot are equal. -/
theorem path_unique (hs : s.TreeInv) (hp : s.descend s.root.toNat p = some h) (hq : s.descend s.root.toNat q = some h) :
    p = q := by
  have hlast := hs.rootLast
  induction p using List.reverseRecOn generalizing h q with
  | nil =>
    obtain rfl : s.root.toNat = h := Option.some.inj hp
    cases q using List.reverseRecOn with
    | nil => rfl
    | append_singleton q c =>
      obtain ⟨m, hm, hk, hroot⟩ := State.descend_concat.1 hq
      have hlt := hs.lt_last_of_childOf (hs.childOf_of_descend hm hk c)
      omega
  | append_singleton p b ih =>
    obtain ⟨m, hm, hk, rfl⟩ := State.descend_concat.1 hp
    have hc := hs.childOf_of_descend hm hk b
    have hlt := hs.lt_last_of_childOf hc
    cases q using List.reverseRecOn with
    | nil =>
      have hroot : s.root.toNat = s.child m b := Option.some.inj hq
      omega
    | append_singleton q c =>
      obtain ⟨m', hm', hk', heq⟩ := State.descend_concat.1 hq
      have hc' := hs.childOf_of_descend hm' hk' c
      obtain ⟨parent, -, huniq⟩ := hs.oneParent _ hlt
      obtain rfl : m' = m := (huniq m' (heq ▸ hc')).trans (huniq m hc).symm
      obtain ⟨hge, hltN, -⟩ := hc
      rw [ih hm hm', hs.child_injective hge hltN heq]

/-- R33(d): from every slot the parents lead up to the root. -/
theorem exists_path (hs : s.TreeInv) (h : Nat) (hh : h < s.nodeCount.toNat) : ∃ p, s.descend s.root.toNat p = some h := by
  have hlast := hs.rootLast
  rcases Nat.lt_or_ge h (s.nodeCount.toNat - 1) with hlt | hge
  · obtain ⟨m, hm, -⟩ := hs.oneParent h hlt
    obtain ⟨hleaf, hltN, b, hb⟩ := (childOf_iff s).1 hm
    have hdown : h < m := hb ▸ hs.child_lt hleaf hltN
    obtain ⟨p, hp⟩ := hs.exists_path m hltN
    exact ⟨p ++ [b], State.descend_concat.2 ⟨m, hp, (hs.merged m hleaf hltN).1, hb⟩⟩
  · exact ⟨[], congrArg some (by omega)⟩
termination_by s.nodeCount.toNat - h

/-! ## The leaves -/

theorem lt_leafCount (hs : s.TreeInv) (hp : s.leafAt p h) : h < s.leafCount :=
  (hs.kind_eq_leaf_iff (hs.descend_lt hp.1)).1 hp.2

theorem exists_leafAt (hs : s.TreeInv) (hh : h < s.leafCount) : ∃ p, s.leafAt p h := by
  have hN := hs.nodeCount_eq
  obtain ⟨p, hp⟩ := hs.exists_path h (by omega)
  exact ⟨p, hp, (hs.leaves h hh).1⟩

/-- R33(b): leaves of one symbol are one leaf. -/
theorem leaf_eq_of_sym_eq (hs : s.TreeInv) (hh : h < s.leafCount) (hk : k < s.leafCount)
    (hsym : (s.nodeAt h).sym.toNat = (s.nodeAt k).sym.toNat) : h = k := by
  rcases Nat.lt_trichotomy h k with hlt | heq | hgt
  · exact absurd hsym (hs.ascending h k hlt hk).ne
  · exact heq
  · exact absurd hsym.symm (hs.ascending k h hgt hh).ne

theorem leafAt_unique (hs : s.TreeInv) (hp : s.leafAt p h) (hq : s.leafAt q k)
    (hsym : (s.nodeAt h).sym.toNat = (s.nodeAt k).sym.toNat) : p = q := by
  obtain rfl := hs.leaf_eq_of_sym_eq (hs.lt_leafCount hp) (hs.lt_leafCount hq) hsym
  exact hs.path_unique hp.1 hq.1

/-- The root is no leaf: its path, the empty one, leads to no leaf. -/
theorem one_le_length (hs : s.TreeInv) (hp : s.leafAt p h) : 1 ≤ p.length := by
  have hlt := hs.lt_leafCount hp
  have hN := hs.nodeCount_eq
  refine List.length_pos_iff.2 fun hnil => ?_
  subst hnil
  obtain rfl : s.root.toNat = h := Option.some.inj hp.1
  omega

/-- R99(d) in the words of the paths: 256 bits are more than any path has, so they pass a leaf. -/
theorem exists_leafAt_prefix (hs : s.TreeInv) {bs : BitString} (hbs : 256 ≤ bs.length) : ∃ p h, p <+: bs ∧ s.leafAt p h := by
  rcases s.exists_leafAt_prefix_or_descend bs with hleaf | ⟨h, hh⟩
  · exact hleaf
  · have := hs.length_le hh
    omega

end State.TreeInv

end Sys2Proof.Machine
end

section
/-!
SUPPORT. CGEN on a valid tree (43_cgen.md R96 to R99): the walk writes each leaf's path into the slot of its symbol.
-/

namespace Sys2Proof.Machine

/-! ## The slot of a symbol -/

/-- The slot of `sym` holds the code `p`: its length, its bits, and zeros up to the end of the slot (R22, R23). The empty code is the
zero slot. -/
structure State.slotHolds (s : State) (sym : Nat) (p : BitString) : Prop where
  length : (s.ctLenAt sym).toNat = p.length
  bits : ∀ k, k < 256 → msbFirst (s.ctBitsAt (32 * sym + k / 8)) k = p.getD k false

theorem State.zeroCodes_slotHolds (s : State) (sym : Nat) : s.zeroCodes.slotHolds sym [] where
  length := rfl
  bits k _ := by simp [msbFirst]

theorem State.slotHolds.code_eq {s : State} {sym : Nat} {p : BitString} (h : s.slotHolds sym p) : s.code sym = p := by
  refine List.ext_getElem (by simp [State.code, h.length]) fun k _ hk => ?_
  have hlt := h.length ▸ (s.ctLenAt sym).isLt
  simp only [State.code, List.getElem_map, List.getElem_range]
  rw [h.bits k (by omega), List.getD_eq_getElem p false hk]

theorem State.slotHolds.hasCode_iff {s : State} {sym : Nat} {p : BitString} (h : s.slotHolds sym p) :
    s.hasCode sym ↔ p ≠ [] := by
  rw [State.hasCode, ne_eq, ← BitVec.toNat_inj, h.length]
  simp

theorem State.slotHolds.finish {s : State} {sym : Nat} {p : BitString} (h : s.slotHolds sym p) (e : Option CmdError) :
    (s.finish e).slotHolds sym p := ⟨h.length, h.bits⟩

/-- R97 at a leaf whose slot is zero. -/
theorem writeCode_slotHolds_self {s : State} {sym : Nat} {p : BitString} (h : s.slotHolds sym []) (hp : p.length ≤ 255) :
    (writeCode s sym p).slotHolds sym p where
  length := by rw [writeCode, writeBits_ctLenAt, State.setCtLen_ctLenAt_self, BitVec.toNat_ofNat, Nat.mod_eq_of_lt (by omega)]
  bits k hk := by
    rw [writeCode, msbFirst_writeBits, State.setCtLen_ctBitsAt, h.bits k hk]
    simp

theorem writeCode_slotHolds_ne {s : State} {sym o : Nat} {p q : BitString} (h : s.slotHolds o q) (ho : o ≠ sym)
    (hp : p.length ≤ 256) : (writeCode s sym p).slotHolds o q where
  length := by rw [writeCode, writeBits_ctLenAt, State.setCtLen_ctLenAt_ne _ _ ho, h.length]
  bits k hk := by rw [writeCode_ctBitsAt_of_outside (by omega) hp, h.bits k hk]

theorem State.ctLenAt_le_lmax (s : State) {sym : Nat} (h : sym < 256) : (s.ctLenAt sym).toNat ≤ s.lmax := by
  have hmem : (s.ctLenAt sym).toNat ∈ symbols.map fun o => (s.ctLenAt o).toNat := List.mem_map.2 ⟨sym, List.mem_range.2 h, rfl⟩
  rw [State.lmax, ← List.foldl_map (f := fun o => (s.ctLenAt o).toNat) (g := max), List.foldl_eq_foldr]
  exact List.le_max_of_le hmem le_rfl

/-! ## The walk -/

/-- The code table of `u` after the walk of the tree of `s` has been at the leaves whose paths meet `P`: their symbols' slots hold
these paths, and every other slot is zero. -/
structure State.Recorded (s : State) (P : BitString → Prop) (u : State) : Prop where
  arena : ∀ h, u.nodeAt h = s.nodeAt h
  visited : ∀ p h, P p → s.leafAt p h → u.slotHolds (s.nodeAt h).sym.toNat p
  rest : ∀ sym, (∀ p h, P p → s.leafAt p h → (s.nodeAt h).sym.toNat ≠ sym) → u.slotHolds sym []

namespace State.Recorded
variable {s u : State} {P Q : BitString → Prop} {path : BitString} {h : Nat}

theorem zeroCodes (s : State) : s.Recorded (fun _ => False) s.zeroCodes where
  arena _ := rfl
  visited _ _ hp := hp.elim
  rest sym _ := s.zeroCodes_slotHolds sym

/-- Only the leaves' paths count. -/
theorem congr (hu : s.Recorded P u) (hPQ : ∀ p h, s.leafAt p h → (P p ↔ Q p)) : s.Recorded Q u where
  arena := hu.arena
  visited p h hp hl := hu.visited p h ((hPQ p h hl).2 hp) hl
  rest sym hne := hu.rest sym fun p h hp hl => hne p h ((hPQ p h hl).1 hp) hl

theorem finish (hu : s.Recorded P u) (e : Option CmdError) : s.Recorded P (u.finish e) where
  arena := hu.arena
  visited p h hp hl := (hu.visited p h hp hl).finish e
  rest sym hne := (hu.rest sym hne).finish e

/-- The walk at a leaf adds the leaf's own path. -/
theorem leaf (hs : s.TreeInv) (hu : s.Recorded P u) (hl : s.leafAt path h) (hnew : ∀ p, P p → ¬ path <+: p) :
    s.Recorded (fun p => P p ∨ path <+: p) (writeCode u (s.nodeAt h).sym.toNat path) := by
  have hlen := hs.length_le hl.1
  have hother : ∀ p k, P p → s.leafAt p k → (s.nodeAt k).sym.toNat ≠ (s.nodeAt h).sym.toNat := fun p k hp hk hsym =>
    hnew p hp (hs.leafAt_unique hl hk hsym.symm ▸ List.prefix_rfl)
  constructor
  case arena => exact fun k => (writeCode_nodeAt _ _ _ _).trans (hu.arena k)
  case visited =>
    rintro p k (hp | hp) hk
    · exact writeCode_slotHolds_ne (hu.visited p k hp hk) (hother p k hp hk) (by omega)
    · obtain rfl := hl.eq_of_prefix hk.1 hp
      obtain rfl : h = k := Option.some.inj (hl.1.symm.trans hk.1)
      exact writeCode_slotHolds_self (hu.rest _ hother) hlen
  case rest =>
    intro sym hne
    have hzero := hu.rest sym fun p k hp => hne p k (.inl hp)
    exact writeCode_slotHolds_ne hzero (hne path h (.inr List.prefix_rfl) hl).symm (by omega)

end State.Recorded

/-- From the slot at the end of `path`, the walk adds the leaves whose paths begin with `path` (R97). -/
theorem walk_recorded {s : State} (hs : s.TreeInv) (fuel : Nat) {h : Nat} {path : BitString} {P : BitString → Prop} {u : State}
    (hpath : s.descend s.root.toNat path = some h) (hfuel : path.length + fuel = 256) (hu : s.Recorded P u)
    (hnew : ∀ p, P p → ¬ path <+: p) :
    ∃ t, walk fuel h path u = .returned t ∧ s.Recorded (fun p => P p ∨ path <+: p) t := by
  induction fuel generalizing h path P u with
  | zero =>
    have := hs.length_le hpath
    omega
  | succ fuel ih =>
    cases hk : (s.nodeAt h).kind with
    | leaf =>
      refine ⟨_, walk_of_leaf (by rw [hu.arena, hk]) fuel path, ?_⟩
      rw [hu.arena]
      exact hu.leaf hs ⟨hpath, hk⟩ hnew
    | internal =>
      have hchild : ∀ b, s.descend s.root.toNat (path ++ [b]) = some (s.child h b) := fun b =>
        State.descend_concat.2 ⟨h, hpath, hk, rfl⟩
      have hbelow : ∀ b p, path ++ [b] <+: p → path <+: p := fun b p => (List.prefix_append path [b]).trans
      have hlen : ∀ b : Bool, (path ++ [b]).length + fuel = 256 := fun b => by
        rw [List.length_append, List.length_singleton]
        omega
      obtain ⟨v, hv, hvrec⟩ := ih (hchild false) (hlen false) hu fun p hp hpre => hnew p hp (hbelow _ _ hpre)
      have hright : ∀ p, P p ∨ path ++ [false] <+: p → ¬ path ++ [true] <+: p := by
        rintro p (hp | ⟨r, rfl⟩) hpre
        · exact hnew p hp (hbelow _ _ hpre)
        · simp at hpre
      obtain ⟨t, ht, htrec⟩ := ih (hchild true) (hlen true) hvrec hright
      refine ⟨t, ?_, htrec.congr fun p k hl => ?_⟩
      · rw [walk_of_internal (by rw [hu.arena, hk]), hu.arena]
        exact (congrArg (Body.andThen · _) hv).trans ht
      · rw [or_assoc, hl.concat_prefix_iff hpath hk]

/-- `t` holds the code table of the tree of `s`. -/
abbrev State.CodeTableOf (s t : State) : Prop := s.Recorded (fun _ => True) t

theorem exec_cgen_codeTableOf {s : State} (htv : s.tv = true) (hs : s.TreeInv) :
    ∃ t, exec .cgen s = .next t ∧ t = { s with ctLen := t.ctLen, ctBits := t.ctBits }.reported .none 0#32 ∧
      s.CodeTableOf t := by
  obtain ⟨u, hu, hrec⟩ := walk_recorded hs 256 (path := []) rfl rfl (State.Recorded.zeroCodes s) nofun
  obtain ⟨l, b, hframe⟩ := walk_returned_frame _ _ _ _ _ hu
  refine ⟨u.finish none, by rw [exec_cgen_of_tree htv, hu]; rfl, by rw [hframe]; rfl, ?_⟩
  exact (hrec.congr fun p _ _ => by simp).finish none

theorem codeTableOf_of_exec_cgen {s t : State} (htv : s.tv = true) (hs : s.TreeInv) (ht : exec .cgen s = .next t) :
    s.CodeTableOf t := by
  obtain ⟨u, hu, -, hrec⟩ := exec_cgen_codeTableOf htv hs
  cases hu.symm.trans ht
  exact hrec

/-! ## The code table -/

namespace State.Recorded
variable {s t : State} {p : BitString} {h sym : Nat}

theorem slotHolds_of_leafAt (ht : s.CodeTableOf t) (hl : s.leafAt p h) : t.slotHolds (s.nodeAt h).sym.toNat p :=
  ht.visited p h trivial hl

theorem hasCode_of_leafAt (ht : s.CodeTableOf t) (hs : s.TreeInv) (hl : s.leafAt p h) : t.hasCode (s.nodeAt h).sym.toNat :=
  (ht.slotHolds_of_leafAt hl).hasCode_iff.2 (List.length_pos_iff.1 (hs.one_le_length hl))

/-- The slot of a symbol holds the path of its leaf, or, if it has no leaf, is zero. -/
theorem slotHolds_cases (ht : s.CodeTableOf t) (sym : Nat) :
    (∃ p h, s.leafAt p h ∧ (s.nodeAt h).sym.toNat = sym ∧ t.slotHolds sym p) ∨ t.slotHolds sym [] := by
  by_cases hleaf : ∃ p h, s.leafAt p h ∧ (s.nodeAt h).sym.toNat = sym
  · obtain ⟨p, h, hl, rfl⟩ := hleaf
    exact .inl ⟨p, h, hl, rfl, ht.slotHolds_of_leafAt hl⟩
  · exact .inr (ht.rest sym fun p h _ hl hsym => hleaf ⟨p, h, hl, hsym⟩)

/-- A present code is the path of the leaf of its symbol. -/
theorem leafAt_code (ht : s.CodeTableOf t) (hc : t.hasCode sym) :
    ∃ h, s.leafAt (t.code sym) h ∧ (s.nodeAt h).sym.toNat = sym := by
  rcases ht.slotHolds_cases sym with ⟨p, h, hl, hsym, hp⟩ | hzero
  · exact ⟨h, hp.code_eq.symm ▸ hl, hsym⟩
  · exact absurd rfl (hzero.hasCode_iff.1 hc)

/-- R99(a). -/
theorem hasCode_iff (ht : s.CodeTableOf t) (hs : s.TreeInv) :
    t.hasCode sym ↔ ∃ h, h < s.leafCount ∧ (s.nodeAt h).sym.toNat = sym := by
  constructor
  · intro hc
    obtain ⟨h, hl, hsym⟩ := ht.leafAt_code hc
    exact ⟨h, hs.lt_leafCount hl, hsym⟩
  · rintro ⟨h, hh, rfl⟩
    obtain ⟨p, hl⟩ := hs.exists_leafAt hh
    exact ht.hasCode_of_leafAt hs hl

/-- R97: the bits of a slot beyond its code are 0. -/
theorem padding_eq_zero (ht : s.CodeTableOf t) {k : Nat} (hlen : (t.ctLenAt sym).toNat ≤ k) (hk : k < 256) :
    msbFirst (t.ctBitsAt (32 * sym + k / 8)) k = false := by
  obtain ⟨p, hp⟩ : ∃ p, t.slotHolds sym p :=
    (ht.slotHolds_cases sym).elim (fun ⟨p, _, _, _, hp⟩ => ⟨p, hp⟩) fun hzero => ⟨[], hzero⟩
  rw [hp.bits k hk, List.getD_eq_default p false (hp.length ▸ hlen)]

/-- R99(c), (e): no leaf's path begins with another leaf's. -/
theorem prefixFree (ht : s.CodeTableOf t) : t.prefixFree := by
  intro a b _ _ hne ha hb hpre
  obtain ⟨h, hl, rfl⟩ := ht.leafAt_code ha
  obtain ⟨k, hk, rfl⟩ := ht.leafAt_code hb
  have hpath := hl.eq_of_prefix hk.1 hpre
  have hkh : some k = some h := by rw [← hk.1, ← hl.1, hpath]
  exact hne (Option.some.inj hkh ▸ rfl)

/-- R99(d): zeros put behind the string bring it to the 256 bits that pass a leaf, and that leaf's code ends within the string. -/
theorem exists_code_prefix (ht : s.CodeTableOf t) (hs : s.TreeInv) {bs : BitString} (hbs : bs.length = t.lmax) :
    ∃ sym, sym < 256 ∧ t.hasCode sym ∧ t.code sym <+: bs := by
  obtain ⟨p, h, hpre, hl⟩ := hs.exists_leafAt_prefix (bs := bs ++ List.replicate 256 false)
    (by rw [List.length_append, List.length_replicate]; omega)
  have hslot := ht.slotHolds_of_leafAt hl
  have hlen : p.length ≤ bs.length := hslot.length ▸ hbs ▸ t.ctLenAt_le_lmax (s.nodeAt h).sym.isLt
  refine ⟨_, (s.nodeAt h).sym.isLt, ht.hasCode_of_leafAt hs hl, ?_⟩
  rw [hslot.code_eq]
  exact List.prefix_of_prefix_length_le hpre (List.prefix_append _ _) hlen

end State.Recorded

/-- Where no present code begins another, at most one of them begins a given string. -/
theorem State.prefixFree.eq_of_prefix {s : State} (hs : s.prefixFree) {a b : Nat} {bs : BitString}
    (ha : a < 256 ∧ s.hasCode a ∧ s.code a <+: bs) (hb : b < 256 ∧ s.hasCode b ∧ s.code b <+: bs) : a = b := by
  obtain ⟨ha256, hac, hap⟩ := ha
  obtain ⟨hb256, hbc, hbp⟩ := hb
  by_contra hne
  rcases List.prefix_or_prefix_of_prefix hap hbp with hpre | hpre
  · exact hs a b ha256 hb256 hne hac hbc hpre
  · exact hs b a hb256 ha256 (Ne.symm hne) hbc hac hpre

/-- Settles O39: the walk visits every leaf once, by its one path, and writes that path into the slot of the leaf's symbol. -/
theorem cgenRecordsThePaths : Obligations.CgenRecordsThePaths := by
  unfold Obligations.CgenRecordsThePaths
  intro s htv hs
  obtain ⟨t, hexec, hframe, ht⟩ := exec_cgen_codeTableOf htv hs
  refine ⟨t, hexec, hframe, fun p h hp hk => ?_, fun sym _ => ht.hasCode_iff hs, fun sym k _ => ht.padding_eq_zero⟩
  have hl : s.leafAt p h := ⟨hp, hk⟩
  have hslot := ht.slotHolds_of_leafAt hl
  exact ⟨hslot.code_eq, hslot.length, hs.one_le_length hl, hs.length_le hp⟩

/-- Settles O40: the codes are the paths of leaves, and no path runs on beyond a leaf. -/
theorem cgenTableIsPrefixFree : Obligations.CgenTableIsPrefixFree := fun _ _ htv hs ht =>
  (codeTableOf_of_exec_cgen htv hs ht).prefixFree

/-- Settles O41: following the bits of the string from the root passes a leaf, and by R99(c) no other present code begins the string. -/
theorem cgenTableIsComplete : Obligations.CgenTableIsComplete := by
  unfold Obligations.CgenTableIsComplete
  intro s t htv hs ht bs hbs
  have htable := codeTableOf_of_exec_cgen htv hs ht
  obtain ⟨sym, hsym⟩ := htable.exists_code_prefix hs hbs
  exact ⟨sym, hsym, fun o ho => htable.prefixFree.eq_of_prefix ho hsym⟩

end Sys2Proof.Machine
end

section
/-!
SUPPORT. PACK (44_pack.md R105 to R108): the bytes that the groups of a bit-string make, what the packer has written after each bit,
and the loop over the input as one over the bits of its codes.
-/

namespace Sys2Proof.Machine

/-! ## Groups and their bytes -/

/-- The byte that shifting in the bits of a group leaves (R107). -/
def groupByte (g : BitString) : Byte := g.foldl shiftIn 0#8

@[simp] theorem groupByte_nil : groupByte [] = 0#8 := rfl

@[simp] theorem groupByte_concat (g : BitString) (b : Bool) : groupByte (g ++ [b]) = shiftIn (groupByte g) b := by
  simp [groupByte]

theorem shiftIn_toNat {acc : Byte} (h : acc.toNat < 128) (b : Bool) : (shiftIn acc b).toNat = 2 * acc.toNat + b.toNat := by
  have hshift : (acc <<< 1).toNat = 2 ^ 1 * acc.toNat := by
    rw [BitVec.toNat_shiftLeft, Nat.shiftLeft_eq]
    omega
  have hbit : ((BitVec.ofBool b).setWidth 8).toNat = b.toNat := by cases b <;> rfl
  rw [shiftIn, BitVec.toNat_or, hshift, hbit, ← Nat.two_pow_add_eq_or_of_lt b.toNat_lt]

theorem groupValue_concat (g : BitString) (b : Bool) : groupValue (g ++ [b]) = 2 * groupValue g + b.toNat := by
  simp [groupValue]

theorem groupValue_lt (g : BitString) : groupValue g < 2 ^ g.length := by
  induction g using List.reverseRecOn with
  | nil => exact Nat.one_pos
  | append_singleton g b ih =>
    have hb := b.toNat_lt
    rw [groupValue_concat, List.length_append, List.length_singleton, Nat.pow_succ]
    omega

/-- Nothing is shifted out of a group of at most 8 bits: its byte is the value of R106. -/
theorem groupByte_toNat {g : BitString} (hg : g.length ≤ 8) : (groupByte g).toNat = groupValue g := by
  induction g using List.reverseRecOn with
  | nil => rfl
  | append_singleton g b ih =>
    rw [List.length_append, List.length_singleton] at hg
    have h128 : groupValue g < 2 ^ 7 := (groupValue_lt g).trans_le (Nat.pow_le_pow_right (by omega) (by omega))
    have hval := ih (by omega)
    rw [groupByte_concat, shiftIn_toNat (hval.trans_lt h128), hval, groupValue_concat]

/-- Bit `k` of a group of `r` bits stands in bit `r - 1 - k` of its byte (R44, R106). -/
theorem getLsbD_groupByte {g : BitString} (hg : g.length ≤ 8) {k : Nat} (hk : k < g.length) :
    (groupByte g).getLsbD (g.length - 1 - k) = g.getD k false := by
  have hbits : (List.range g.length).map (g.getD · false) = g := List.ext_getElem (by simp) fun i _ hi => by simp [hi]
  have hfold : groupByte g = (List.range g.length).foldl (fun acc k => shiftIn acc (g.getD k false)) 0#8 := by
    conv_lhs => rw [groupByte, ← hbits, List.foldl_map]
  rw [hfold, getLsbD_foldl_shiftIn _ (by omega) (by omega)]
  congr 1
  omega

theorem length_group (bs : BitString) (q : Nat) : (group bs q).length = min 8 (bs.length - 8 * q) := by simp [group]

theorem length_group_le (bs : BitString) (q : Nat) : (group bs q).length ≤ 8 := by simp [length_group]

/-- A full group stays as it is when bits follow. -/
theorem group_append {bs : BitString} {q : Nat} (hq : q < bs.length / 8) (cs : BitString) : group (bs ++ cs) q = group bs q := by
  rw [group, List.drop_append_of_le_length (by omega), List.take_append_of_le_length (by rw [List.length_drop]; omega), group]

theorem group_take {bs : BitString} {n q : Nat} (hn : 8 * n ≤ bs.length) (hq : q < n) : group (bs.take (8 * n)) q = group bs q := by
  have hfull : q < (bs.take (8 * n)).length / 8 := by rw [List.length_take]; omega
  rw [← group_append hfull (bs.drop (8 * n)), List.take_append_drop]

/-- The group begun, which has fewer than 8 bits, takes the next bit. -/
theorem group_concat_last (bs : BitString) (b : Bool) :
    group (bs ++ [b]) (bs.length / 8) = group bs (bs.length / 8) ++ [b] := by
  have hlast : (bs.drop (8 * (bs.length / 8))).length < 8 := by rw [List.length_drop]; omega
  rw [group, group, List.drop_append_of_le_length (by omega), List.take_of_length_le (by simpa using hlast),
    List.take_of_length_le hlast.le]

theorem group_of_length_le {bs : BitString} {q : Nat} (h : bs.length ≤ 8 * q) : group bs q = [] := by
  rw [group, List.drop_of_length_le h, List.take_nil]

theorem getD_group (bs : BitString) (j : Nat) : (group bs (j / 8)).getD (j % 8) false = bs.getD j false := by
  have hj : 8 * (j / 8) + j % 8 = j := Nat.div_add_mod j 8
  simp [group, List.getD_eq_getElem?_getD, List.getElem?_drop, Nat.mod_lt, hj]

/-! ## One bit packed -/

/-- R107: the packer's working state when the bits `bs` have been packed. -/
def Packer.after (bs : BitString) : Packer :=
  ⟨groupByte (group bs (bs.length / 8)), bs.length % 8, bs.length / 8, bs.length⟩

/-- R107, R142: `t` is `s` with the full groups of the bits `bs` written to `PK`. -/
structure State.Packed (s : State) (bs : BitString) (t : State) : Prop where
  frame : t = { s with pk := t.pk }
  written : ∀ q, q < bs.length / 8 → t.pkAt q = groupByte (group bs q)
  untouched : ∀ q, bs.length / 8 ≤ q → t.pkAt q = s.pkAt q

/-- R107: what one bit, for which there is room, makes of `PK`: a byte is written when the group is full. -/
def packBit (bs : BitString) (b : Bool) (t : State) : State :=
  if bs.length % 8 + 1 = 8 then t.setPk (bs.length / 8) (groupByte (group (bs ++ [b]) (bs.length / 8))) else t

section Bits
variable {s t : State} {bs : BitString}

theorem State.Packed.cfg (hp : s.Packed bs t) : t.cfg = s.cfg := by rw [hp.frame]

theorem State.Packed.hasCode_iff (hp : s.Packed bs t) (sym : Nat) : t.hasCode sym ↔ s.hasCode sym := by
  rw [hp.frame]
  rfl

theorem State.packed_nil (s : State) : s.Packed [] s := ⟨rfl, fun _ h => absurd h (Nat.not_lt_zero _), fun _ _ => rfl⟩

theorem packBits_cons_of_full (hfull : bs.length = 8 * t.cfg.pkMax) (b : Bool) (cs : BitString) :
    packBits (b :: cs) t (Packer.after bs) = .error (.capacity .packedFull, t) := by
  have h : bs.length % 8 = 0 ∧ bs.length / 8 = t.cfg.pkMax := by omega
  exact if_pos h

theorem packBits_cons_of_room (hroom : bs.length < 8 * t.cfg.pkMax) (b : Bool) (cs : BitString) :
    packBits (b :: cs) t (Packer.after bs) = packBits cs (packBit bs b t) (Packer.after (bs ++ [b])) := by
  have h : ¬ (bs.length % 8 = 0 ∧ bs.length / 8 = t.cfg.pkMax) := by omega
  have hlen : (bs ++ [b]).length = bs.length + 1 := List.length_append
  rw [packBits, Packer.after, if_neg h]
  simp only [packBit, Packer.after, hlen, group_concat_last, groupByte_concat]
  split
  · rename_i hlast
    have hnext : (bs.length + 1) / 8 = bs.length / 8 + 1 ∧ (bs.length + 1) % 8 = 0 := by omega
    rw [hnext.1, hnext.2, group_of_length_le (bs := bs ++ [b]) (by omega), groupByte_nil]
  · have hsame : (bs.length + 1) / 8 = bs.length / 8 ∧ (bs.length + 1) % 8 = bs.length % 8 + 1 := by omega
    rw [hsame.1, hsame.2, group_concat_last, groupByte_concat]

theorem State.Packed.bit (hp : s.Packed bs t) (b : Bool) : s.Packed (bs ++ [b]) (packBit bs b t) := by
  have hlen : (bs ++ [b]).length = bs.length + 1 := List.length_append
  unfold packBit
  split
  · rename_i hlast
    refine ⟨congrArg (State.setPk · _ _) hp.frame, fun q hq => ?_, fun q hq => ?_⟩
    · rcases Nat.eq_or_lt_of_le (show q ≤ bs.length / 8 by omega) with rfl | hlt
      · rw [State.setPk_pkAt_self]
      · rw [State.setPk_pkAt_ne _ _ (by omega), hp.written q hlt, group_append hlt]
    · rw [State.setPk_pkAt_ne _ _ (by omega), hp.untouched q (by omega)]
  · refine ⟨hp.frame, fun q hq => ?_, fun q hq => hp.untouched q (by omega)⟩
    have hlt : q < bs.length / 8 := by omega
    rw [hp.written q hlt, group_append hlt]

/-! ## A string of bits packed -/

theorem packBits_of_fits (hp : s.Packed bs t) (cs : BitString) (hfit : (bs ++ cs).length ≤ 8 * s.cfg.pkMax) :
    ∃ u, packBits cs t (Packer.after bs) = .ok (u, Packer.after (bs ++ cs)) ∧ s.Packed (bs ++ cs) u := by
  induction cs generalizing bs t with
  | nil => exact ⟨t, by simp [packBits], by simpa using hp⟩
  | cons b cs ih =>
    have hroom : bs.length < 8 * t.cfg.pkMax := by
      rw [List.length_append, List.length_cons] at hfit
      rw [hp.cfg]
      omega
    rw [List.append_cons] at hfit ⊢
    rw [packBits_cons_of_room hroom]
    exact ih (hp.bit b) hfit

/-- R107 starts from the working state of no bits. -/
theorem packBits_start_of_fits (hfit : bs.length ≤ 8 * s.cfg.pkMax) :
    ∃ u, packBits bs s Packer.start = .ok (u, Packer.after bs) ∧ s.Packed bs u := packBits_of_fits s.packed_nil bs hfit

theorem packBits_append (cs ds : BitString) (s : State) (p : Packer) :
    packBits (cs ++ ds) s p = packBits cs s p >>= fun r => packBits ds r.1 r.2 := by
  induction cs generalizing s p with
  | nil => rfl
  | cons b cs ih =>
    simp only [List.cons_append, packBits, ih]
    split
    · rfl
    · split
      · rfl
      · rfl

/-- R107, R149: bits that overrun `PK` are refused when the full groups of those that fit have been written. -/
theorem packBits_of_overrun (hover : 8 * s.cfg.pkMax < bs.length) :
    ∃ u, packBits bs s Packer.start = .error (.capacity .packedFull, u) ∧ s.Packed (bs.take (8 * s.cfg.pkMax)) u := by
  have hlen : (bs.take (8 * s.cfg.pkMax)).length = 8 * s.cfg.pkMax := List.length_take_of_le hover.le
  obtain ⟨u, hu, hpacked⟩ := packBits_start_of_fits hlen.le
  refine ⟨u, ?_, hpacked⟩
  obtain ⟨b, cs, hdrop⟩ := List.exists_cons_of_ne_nil (l := bs.drop (8 * s.cfg.pkMax)) (by simpa using hover)
  rw [← List.take_append_drop (8 * s.cfg.pkMax) bs, packBits_append, hu, hdrop]
  exact packBits_cons_of_full (hpacked.cfg.symm ▸ hlen) b cs

end Bits

/-! ## The loop over the input -/

@[simp] theorem State.codesOf_nil (s : State) : s.codesOf [] = [] := rfl

@[simp] theorem State.codesOf_cons (s : State) (b : Byte) (msg : List Byte) :
    s.codesOf (b :: msg) = s.code b.toNat ++ s.codesOf msg := rfl

theorem packBytes_cons_of_absent {s : State} {b : Byte} (h : ¬ s.hasCode b.toNat) (bs : List Byte) (i : Nat) (p : Packer) :
    packBytes (b :: bs) i s p = .error (.internalConsistency i, s) := if_pos (Decidable.not_not.1 h)

theorem packBytes_cons_of_hasCode {s : State} {b : Byte} (h : s.hasCode b.toNat) (bs : List Byte) (i : Nat) (p : Packer) :
    packBytes (b :: bs) i s p = packBits (s.code b.toNat) s p >>= fun r => packBytes bs (i + 1) r.1 r.2 := by
  rw [packBytes, if_neg h]
  cases packBits (s.code b.toNat) s p <;> rfl

/-- Over bytes with codes the outer loop of R107 is the inner loop over the bits of those codes. -/
theorem packBytes_append {s : State} {msg : List Byte} (hmsg : ∀ b ∈ msg, s.hasCode b.toNat) (bs : List Byte) (i : Nat)
    (p : Packer) :
    packBytes (msg ++ bs) i s p = packBits (s.codesOf msg) s p >>= fun r => packBytes bs (i + msg.length) r.1 r.2 := by
  induction msg generalizing s i p with
  | nil => rfl
  | cons b msg ih =>
    rw [List.cons_append, packBytes_cons_of_hasCode (hmsg b List.mem_cons_self), State.codesOf_cons, packBits_append]
    have hframe := packBits_frame (s.code b.toNat) s p
    cases hbits : packBits (s.code b.toNat) s p with
    | error e => rfl
    | ok r =>
      rw [hbits] at hframe
      obtain ⟨m, hm⟩ := hframe
      obtain ⟨t, p'⟩ := r
      obtain rfl : t = { s with pk := m } := hm
      have hrest := ih (s := { s with pk := m }) (fun x hx => hmsg x (List.mem_cons_of_mem _ hx)) (i + 1) p'
      rw [Nat.add_right_comm, Nat.add_assoc] at hrest
      exact hrest

/-! ## The final group and the completion -/

section Exec
variable {s : State}

/-- R107, R145: PACK changes `PK`, the two counts and the report. -/
theorem exec_pack_frame {t : State} (ht : exec .pack s = .next t) :
    t = { s with pk := t.pk, bitCount := t.bitCount, byteCount := t.byteCount }.reported t.err t.errInfo := by
  obtain ⟨_, e, ⟨m, a, b, rfl⟩, rfl⟩ := (bodyPack_frame s).complete ht
  rfl

theorem exec_pack_of_tooLong (h : s.cfg.srcMax < s.srcLen.toNat) :
    exec .pack s = .next ((s.setCounts 0 0).reported .capacity 3#32) := by
  rw [exec_eq_complete, bodyOf, bodyPack, if_pos h]
  rfl

theorem exec_pack_of_ok (hle : s.srcLen.toNat ≤ s.cfg.srcMax) {u : State} {p : Packer}
    (h : packBytes s.input 0 (s.setCounts 0 0) Packer.start = .ok (u, p)) :
    exec .pack s = .next ((packEnd u p).finish none) := by
  rw [exec_eq_complete, bodyOf, bodyPack, if_neg (Nat.not_lt.2 hle), h]
  rfl

theorem packEnd_of_full (u : State) {bs : BitString} (h : bs.length % 8 = 0) :
    packEnd u (Packer.after bs) = u.setCounts bs.length (bs.length / 8) := if_neg (by simp [Packer.after, h])

theorem packEnd_of_partial (u : State) {bs : BitString} (h : 0 < bs.length % 8) :
    packEnd u (Packer.after bs) =
      (u.setPk (bs.length / 8) (groupByte (group bs (bs.length / 8)))).setCounts bs.length (bs.length / 8 + 1) := if_pos h

/-- R108: a group that is not full is written as the last. -/
theorem packEnd_pkAt {bs : BitString} {u : State} (hp : s.Packed bs u) (q : Nat) :
    (packEnd u (Packer.after bs)).pkAt q = if q < (bs.length + 7) / 8 then groupByte (group bs q) else s.pkAt q := by
  rcases Nat.eq_zero_or_pos (bs.length % 8) with hfull | hpartial
  · rw [packEnd_of_full u hfull, State.setCounts_pkAt]
    split
    · exact hp.written q (by omega)
    · exact hp.untouched q (by omega)
  · rw [packEnd_of_partial u hpartial, State.setCounts_pkAt]
    rcases Nat.lt_trichotomy q (bs.length / 8) with hlt | rfl | hgt
    · rw [if_pos (by omega), State.setPk_pkAt_ne _ _ (by omega), hp.written q hlt]
    · rw [if_pos (by omega), State.setPk_pkAt_self]
    · rw [if_neg (by omega), State.setPk_pkAt_ne _ _ (by omega), hp.untouched q (by omega)]

theorem packEnd_counts (u : State) {bs : BitString} (hlen : bs.length < 2 ^ 32) :
    (packEnd u (Packer.after bs)).bitCount.toNat = bs.length ∧
      (packEnd u (Packer.after bs)).byteCount.toNat = (bs.length + 7) / 8 := by
  rcases Nat.eq_zero_or_pos (bs.length % 8) with hfull | hpartial
  · rw [packEnd_of_full u hfull, State.setCounts_bitCount, State.setCounts_byteCount, BitVec.toNat_ofNat, BitVec.toNat_ofNat]
    omega
  · rw [packEnd_of_partial u hpartial, State.setCounts_bitCount, State.setCounts_byteCount, BitVec.toNat_ofNat,
      BitVec.toNat_ofNat]
    omega

/-- R117: `streambit` reads back the bits of which `PK` holds the groups. -/
theorem stream_eq_of_groups {t : State} {bs : BitString} (hbits : t.bitCount.toNat = bs.length)
    (hpk : ∀ q, q < (bs.length + 7) / 8 → t.pkAt q = groupByte (group bs q)) : t.stream = bs := by
  refine List.ext_getElem (by simp [State.stream, hbits]) fun j _ hj => ?_
  have hbyte : ∀ r, (group bs (j / 8)).length = r → j % 8 < r →
      (t.pkAt (j / 8)).getLsbD (r - 1 - j % 8) = bs.getD j false := by
    rintro _ rfl hlt
    rw [hpk _ (by omega), getLsbD_groupByte (length_group_le _ _) hlt, getD_group]
  have hstream : t.streambit j = bs.getD j false := by
    rw [State.streambit, hbits]
    split
    · exact hbyte 8 (by rw [length_group]; omega) (by omega)
    · have hlast : bs.length / 8 = j / 8 := by omega
      rw [hlast]
      exact hbyte _ (by rw [length_group]; omega) (by omega)
  simp [State.stream, hstream, hj]

theorem length_codesOf (s : State) (msg : List Byte) :
    (s.codesOf msg).length = (msg.map (fun b => (s.ctLenAt b.toNat).toNat)).sum := by
  simp [State.codesOf, List.length_flatMap, State.code]

theorem drop_input {i : Nat} (hi : i < s.srcLen.toNat) : s.input.drop i = s.srcAt i :: s.input.drop (i + 1) := by
  rw [List.drop_eq_getElem_cons (by rwa [State.length_input])]
  simp [State.input]

theorem take_succ_input {i : Nat} (hi : i < s.srcLen.toNat) : s.input.take (i + 1) = s.input.take i ++ [s.srcAt i] := by
  rw [List.take_succ_eq_append_getElem (by rwa [State.length_input])]
  simp [State.input]

/-- PACK on an input whose first `n` bytes have codes: the bits of these, then the bytes after them. -/
theorem packBytes_input {n : Nat} (hn : n ≤ s.srcLen.toNat) (h : ∀ b ∈ s.input.take n, s.hasCode b.toNat) :
    packBytes s.input 0 (s.setCounts 0 0) Packer.start =
      packBits (s.codesOf (s.input.take n)) (s.setCounts 0 0) Packer.start >>=
        fun r => packBytes (s.input.drop n) n r.1 r.2 := by
  have hloop := packBytes_append (s := s.setCounts 0 0) h (s.input.drop n) 0 Packer.start
  rwa [List.take_append_drop, List.length_take_of_le (by rwa [State.length_input]), Nat.zero_add] at hloop

/-- R142, R145: a refused PACK keeps the groups of the bits packed before, and its counts are 0. -/
theorem exec_pack_of_raise (hle : s.srcLen.toNat ≤ s.cfg.srcMax) {e : CmdError} {u : State} {bs : BitString}
    (h : packBytes s.input 0 (s.setCounts 0 0) Packer.start = .error (e, u)) (hp : (s.setCounts 0 0).Packed bs u) :
    ∃ t, exec .pack s = .next t ∧
      t = { s with pk := t.pk, bitCount := 0#32, byteCount := 0#32 }.reported e.code e.info ∧
      (∀ q, q < bs.length / 8 → (t.pkAt q).toNat = groupValue (group bs q)) ∧
      (∀ q, bs.length / 8 ≤ q → t.pkAt q = s.pkAt q) := by
  have hexec : exec .pack s = .next ((u.setCounts 0 0).finish (some e)) := by
    rw [exec_eq_complete, bodyOf, bodyPack, if_neg (Nat.not_lt.2 hle), h]
    rfl
  refine ⟨_, hexec, exec_pack_frame hexec, fun q hq => ?_, fun q hq => hp.untouched q hq⟩
  rw [State.finish_pkAt, State.setCounts_pkAt, hp.written q hq, groupByte_toNat (length_group_le _ _)]

end Exec

/-- Settles O42: the loop packs the bits of the input's codes, and the last group is written after it. -/
theorem packWritesTheEncodedStream : Obligations.PackWritesTheEncodedStream := by
  unfold Obligations.PackWritesTheEncodedStream
  intro s hcfg hle hcodes hfit
  obtain ⟨-, -, -, hpkMax⟩ := hcfg
  obtain ⟨u, hbits, hp⟩ := packBits_start_of_fits (s := s.setCounts 0 0) hfit
  have hall : s.input.take s.srcLen.toNat = s.input := List.take_of_length_le s.length_input.le
  have hloop : packBytes s.input 0 (s.setCounts 0 0) Packer.start = .ok (u, Packer.after s.encodedStream) := by
    rw [packBytes_input le_rfl (by rwa [hall]), hall, List.drop_of_length_le s.length_input.le]
    exact congrArg (· >>= _) hbits
  have hexec := exec_pack_of_ok hle hloop
  obtain ⟨hbit, hbyte⟩ := packEnd_counts u (bs := s.encodedStream) (by omega)
  have hpk := packEnd_pkAt hp
  refine ⟨_, hexec, exec_pack_frame hexec, hbit, hbit.trans (length_codesOf s s.input), ?bytes, fun q hq => ?groups, ?stream,
    fun q hq => ?later⟩
  case bytes => exact hbyte.trans (by rw [State.finish_bitCount, hbit])
  case groups =>
    rw [State.finish_byteCount, hbyte] at hq
    rw [State.finish_pkAt, hpk, if_pos hq, groupByte_toNat (length_group_le _ _)]
  case stream => exact stream_eq_of_groups hbit fun q hq => (hpk q).trans (if_pos hq)
  case later =>
    rw [State.finish_byteCount, hbyte] at hq
    rw [State.finish_pkAt, hpk, if_neg (by omega), State.setCounts_pkAt]

/-- Settles O43: the loop runs over the bytes before the index, and the byte there raises the error. -/
theorem packErrors : Obligations.PackErrors := by
  unfold Obligations.PackErrors
  intro s _
  refine ⟨exec_pack_of_tooLong, fun hle i hi hcodes hfit => ⟨fun habsent => ?absent, fun hpresent hover => ?overrun⟩⟩
  case absent =>
    obtain ⟨u, hbits, hp⟩ := packBits_start_of_fits (s := s.setCounts 0 0) hfit
    refine exec_pack_of_raise (e := .internalConsistency i) hle (u := u) ?_ hp
    rw [packBytes_input hi.le hcodes, drop_input hi, hbits]
    exact packBytes_cons_of_absent (fun h => habsent ((hp.hasCode_iff _).1 h)) _ _ _
  case overrun =>
    have hall : ∀ b ∈ s.input.take (i + 1), s.hasCode b.toNat := by
      simpa [take_succ_input hi, or_imp, forall_and] using ⟨hcodes, hpresent⟩
    obtain ⟨u, hbits, hp⟩ := packBits_of_overrun (s := s.setCounts 0 0) hover
    obtain ⟨t, hexec, hframe, hwritten, hlater⟩ := exec_pack_of_raise (e := .capacity .packedFull) hle (u := u)
      (by rw [packBytes_input hi hall, hbits]; rfl) hp
    have hgroups : ((s.codesOf (s.input.take (i + 1))).take (8 * s.cfg.pkMax)).length / 8 = s.cfg.pkMax := by
      rw [List.length_take_of_le hover.le]
      omega
    refine ⟨t, hexec, hframe, fun q hq => ?_, fun q hq => hlater q (hgroups.trans_le hq)⟩
    rw [hwritten q (hgroups.symm ▸ hq), State.setCounts_cfg, group_take hover.le hq]

end Sys2Proof.Machine
end

section
/-!
SUPPORT. PACK reads neither the tree nor `FREQ`, and UNPACK neither those nor the input (44_pack.md R107, 45_unpack.md R115): each
commutes with a change of what it does not read.
-/

namespace Sys2Proof.Machine

/-! ## PACK and the tree -/

/-- `s` with the tree, `FREQ` and `TV` of `u`. -/
def State.withTreeOf (s u : State) : State :=
  { s with node := u.node, freq := u.freq, tv := u.tv, root := u.root, nodeCount := u.nodeCount }

section WithTreeOf
variable (u s : State)

@[simp] theorem State.withTreeOf_cfg : (s.withTreeOf u).cfg = s.cfg := rfl
@[simp] theorem State.withTreeOf_srcLen : (s.withTreeOf u).srcLen = s.srcLen := rfl
@[simp] theorem State.withTreeOf_input : (s.withTreeOf u).input = s.input := rfl
@[simp] theorem State.withTreeOf_ctLenAt (i : Nat) : (s.withTreeOf u).ctLenAt i = s.ctLenAt i := rfl
@[simp] theorem State.withTreeOf_code (i : Nat) : (s.withTreeOf u).code i = s.code i := rfl
@[simp] theorem State.withTreeOf_setCounts (a b : Nat) : (s.withTreeOf u).setCounts a b = (s.setCounts a b).withTreeOf u := rfl

theorem packBits_withTreeOf (bs : BitString) (p : Packer) :
    packBits bs (s.withTreeOf u) p = mapEnds (State.withTreeOf · u) (packBits bs s p) := by
  induction bs generalizing s p with
  | nil => rfl
  | cons b bs ih =>
    simp only [packBits, apply_ite (mapEnds (State.withTreeOf · u))]
    exact if_congr Iff.rfl rfl (if_congr Iff.rfl (ih (s.setPk p.nbytes (shiftIn p.acc b)) _) (ih s _))

theorem packBytes_withTreeOf (bs : List Byte) (i : Nat) (p : Packer) :
    packBytes bs i (s.withTreeOf u) p = mapEnds (State.withTreeOf · u) (packBytes bs i s p) := by
  induction bs generalizing s i p with
  | nil => rfl
  | cons b bs ih =>
    simp only [packBytes, State.withTreeOf_ctLenAt, State.withTreeOf_code, packBits_withTreeOf]
    split
    · rfl
    · cases packBits (s.code b.toNat) s p with
      | error e => rfl
      | ok r => exact ih r.1 (i + 1) r.2

theorem packEnd_withTreeOf (p : Packer) : packEnd (s.withTreeOf u) p = (packEnd s p).withTreeOf u := by
  unfold packEnd
  split
  · rfl
  · rfl

theorem bodyPack_withTreeOf : bodyPack (s.withTreeOf u) = (bodyPack s).mapState (State.withTreeOf · u) := by
  unfold bodyPack
  rw [← Body.withEffects_mapState (f := (State.withTreeOf · u)) fun _ => rfl]
  refine congrArg _ ?_
  simp only [State.withTreeOf_cfg, State.withTreeOf_srcLen, State.withTreeOf_input, State.withTreeOf_setCounts,
    packBytes_withTreeOf]
  split
  · rfl
  · cases packBytes s.input 0 (s.setCounts 0 0) Packer.start with
    | error e => rfl
    | ok r => exact congrArg Body.returned (packEnd_withTreeOf u r.1 r.2)

variable {s} in
theorem exec_pack_withTreeOf {t : State} (ht : exec .pack s = .next t) :
    exec .pack (s.withTreeOf u) = .next (t.withTreeOf u) := by
  rw [exec_eq_complete] at ht ⊢
  exact (congrArg Body.complete (bodyPack_withTreeOf u s)).trans (Body.complete_mapState (fun _ _ => rfl) ht)

end WithTreeOf

/-! ## UNPACK, the tree and the input -/

/-- `s` with the tree, `FREQ`, `TV` and the input of `u`. -/
def State.withTreeAndSrcOf (s u : State) : State := { s.withTreeOf u with src := u.src, srcLen := u.srcLen }

section WithTreeAndSrcOf
variable (u s : State)

@[simp] theorem State.withTreeAndSrcOf_cfg : (s.withTreeAndSrcOf u).cfg = s.cfg := rfl
@[simp] theorem State.withTreeAndSrcOf_byteCount : (s.withTreeAndSrcOf u).byteCount = s.byteCount := rfl
@[simp] theorem State.withTreeAndSrcOf_bitCount : (s.withTreeAndSrcOf u).bitCount = s.bitCount := rfl
@[simp] theorem State.withTreeAndSrcOf_stream : (s.withTreeAndSrcOf u).stream = s.stream := rfl
@[simp] theorem State.withTreeAndSrcOf_lmax : (s.withTreeAndSrcOf u).lmax = s.lmax := rfl
@[simp] theorem State.withTreeAndSrcOf_matchCode (c : BitString) : (s.withTreeAndSrcOf u).matchCode c = s.matchCode c := rfl
@[simp] theorem State.withTreeAndSrcOf_setOutLen (n : Nat) :
    (s.withTreeAndSrcOf u).setOutLen n = (s.setOutLen n).withTreeAndSrcOf u := rfl

theorem unpackBits_withTreeAndSrcOf (n : Nat) (bs : BitString) (j : Nat) (p : Unpacker) :
    unpackBits n bs j (s.withTreeAndSrcOf u) p = mapEnds (State.withTreeAndSrcOf · u) (unpackBits n bs j s p) := by
  induction bs generalizing s j p with
  | nil =>
    simp only [unpackBits]
    split
    · rfl
    · rfl
  | cons b bs ih =>
    simp only [unpackBits, State.withTreeAndSrcOf_matchCode]
    cases s.matchCode (p.cand ++ [b]) with
    | some sym =>
      simp only [apply_ite (mapEnds (State.withTreeAndSrcOf · u))]
      exact if_congr Iff.rfl rfl (ih (s.setOut p.nout (BitVec.ofNat 8 sym)) _ _)
    | none =>
      simp only [apply_ite (mapEnds (State.withTreeAndSrcOf · u))]
      exact if_congr Iff.rfl rfl (ih s _ _)

theorem bodyUnpack_withTreeAndSrcOf :
    bodyUnpack (s.withTreeAndSrcOf u) = (bodyUnpack s).mapState (State.withTreeAndSrcOf · u) := by
  unfold bodyUnpack
  rw [← Body.withEffects_mapState (f := (State.withTreeAndSrcOf · u)) fun _ => rfl]
  refine congrArg _ ?_
  simp only [State.withTreeAndSrcOf_cfg, State.withTreeAndSrcOf_byteCount, State.withTreeAndSrcOf_bitCount,
    State.withTreeAndSrcOf_stream, State.withTreeAndSrcOf_lmax, State.withTreeAndSrcOf_setOutLen, unpackBits_withTreeAndSrcOf]
  split
  · rfl
  · split
    · rfl
    · cases unpackBits s.lmax s.stream 0 (s.setOutLen 0) ⟨[], 0, 0⟩ with
      | error e => rfl
      | ok r => rfl

variable {s} in
theorem exec_unpack_withTreeAndSrcOf {t : State} (ht : exec .unpack s = .next t) :
    exec .unpack (s.withTreeAndSrcOf u) = .next (t.withTreeAndSrcOf u) := by
  rw [exec_eq_complete] at ht ⊢
  exact (congrArg Body.complete (bodyUnpack_withTreeAndSrcOf u s)).trans (Body.complete_mapState (fun _ _ => rfl) ht)

end WithTreeAndSrcOf

/-- Settles O52: the values put in are those of a state to take the tree and the input from. -/
theorem packAndUnpackDoNotReadTheTree : Obligations.PackAndUnpackDoNotReadTheTree := by
  unfold Obligations.PackAndUnpackDoNotReadTheTree
  exact ⟨fun s _ n f v r c => exec_pack_withTreeOf { s with node := n, freq := f, tv := v, root := r, nodeCount := c },
    fun s _ n f v r c m l => exec_unpack_withTreeAndSrcOf
      { s with node := n, freq := f, tv := v, root := r, nodeCount := c, src := m, srcLen := l }⟩

end Sys2Proof.Machine
end

section
/-!
SUPPORT. The candidates of UNPACK (45_unpack.md R118) and the greedy scan (R119, R121): which symbol a candidate matches, when a
bit-string has a first match, and what a message that the scan emits leaves to be scanned.
-/

namespace Sys2Proof.Machine

/-! ## The match of a candidate -/

section Match
variable {s : State} {bs cand : BitString} {m : Nat}

theorem State.length_code (s : State) (sym : Nat) : (s.code sym).length = (s.ctLenAt sym).toNat := by simp [State.code]

theorem State.hasCode_iff_code_ne_nil : s.hasCode m ↔ s.code m ≠ [] := by
  rw [State.hasCode, ← List.length_pos_iff, State.length_code, ← BitVec.toNat_inj.ne]
  exact Nat.pos_iff_ne_zero.symm

theorem State.matchCode_eq_some_iff : s.matchCode cand = some m ↔
    (m < 256 ∧ (s.ctLenAt m).toNat = cand.length ∧ s.code m = cand) ∧
      ∀ o, o < m → ¬ ((s.ctLenAt o).toNat = cand.length ∧ s.code o = cand) := by
  simp [State.matchCode, symbols, Config.nSym, List.find?_range_eq_some, and_assoc, and_left_comm, imp_iff_not_or]

theorem State.matchCode_eq_none_iff : s.matchCode cand = none ↔
    ∀ o, o < 256 → ¬ ((s.ctLenAt o).toNat = cand.length ∧ s.code o = cand) := by
  simp [State.matchCode, symbols, Config.nSym]

theorem State.code_of_matchCode (h : s.matchCode cand = some m) : m < 256 ∧ s.code m = cand := by
  obtain ⟨⟨hm, -, hcode⟩, -⟩ := State.matchCode_eq_some_iff.1 h
  exact ⟨hm, hcode⟩

theorem State.exists_matchCode_code (s : State) (hm : m < 256) : ∃ o, s.matchCode (s.code m) = some o := by
  refine Option.ne_none_iff_exists'.1 fun h => ?_
  exact State.matchCode_eq_none_iff.1 h m hm ⟨(s.length_code m).symm, rfl⟩

/-! ## The first match -/

/-- The candidate of the first match is the code of its symbol. -/
theorem State.firstMatch_iff : s.firstMatch bs m ↔ s.code m ≠ [] ∧ s.code m <+: bs ∧ s.matchCode (s.code m) = some m ∧
    ∀ k, 0 < k → k < (s.code m).length → s.matchCode (bs.take k) = none := by
  constructor
  · rintro ⟨len, hpos, hle, hmatch, hshort⟩
    have hcode := (State.code_of_matchCode hmatch).2
    have hlen : (s.code m).length = len := by rw [hcode, List.length_take_of_le hle]
    exact ⟨List.ne_nil_of_length_pos (hlen ▸ hpos), hcode ▸ List.take_prefix _ _, hcode ▸ hmatch, hlen ▸ hshort⟩
  · rintro ⟨hne, hpre, hmatch, hshort⟩
    exact ⟨_, List.length_pos_iff.2 hne, hpre.length_le, (List.prefix_iff_eq_take.1 hpre) ▸ hmatch, hshort⟩

theorem State.code_of_firstMatch (h : s.firstMatch bs m) : m < 256 ∧ s.hasCode m ∧ s.code m <+: bs := by
  obtain ⟨hne, hpre, hmatch, -⟩ := State.firstMatch_iff.1 h
  exact ⟨(State.code_of_matchCode hmatch).1, State.hasCode_iff_code_ne_nil.2 hne, hpre⟩

/-- The scan finds a match if any present code begins the string: the shortest one that does so is found first. -/
theorem State.exists_firstMatch (hm : m < 256) (hc : s.hasCode m) (hpre : s.code m <+: bs) : ∃ o, s.firstMatch bs o := by
  classical
  have hcode : 0 < (s.code m).length ∧ ∃ o, s.matchCode (bs.take (s.code m).length) = some o :=
    ⟨List.length_pos_iff.2 (State.hasCode_iff_code_ne_nil.1 hc), List.prefix_iff_eq_take.1 hpre ▸ s.exists_matchCode_code hm⟩
  have hex : ∃ len, 0 < len ∧ ∃ o, s.matchCode (bs.take len) = some o := ⟨_, hcode⟩
  obtain ⟨hpos, o, ho⟩ := Nat.find_spec hex
  have hle : Nat.find hex ≤ (s.code m).length := Nat.find_min' hex hcode
  refine ⟨o, Nat.find hex, hpos, hle.trans hpre.length_le, ho, fun k hk hlt => ?_⟩
  exact Option.eq_none_iff_forall_ne_some.2 fun x hx => Nat.find_min hex hlt ⟨hk, x, hx⟩

/-- R123: where no present code begins another, a code that begins the string is the first match. -/
theorem State.prefixFree.firstMatch (hs : s.prefixFree) (hm : m < 256) (hc : s.hasCode m) (hpre : s.code m <+: bs) :
    s.firstMatch bs m := by
  obtain ⟨o, ho⟩ := State.exists_firstMatch hm hc hpre
  exact hs.eq_of_prefix (State.code_of_firstMatch ho) ⟨hm, hc, hpre⟩ ▸ ho

end Match

/-! ## What the scan emits -/

section Emits
variable {s : State} {bs : BitString} {msg : List Byte}

@[simp] theorem State.codesOf_append (s : State) (msg other : List Byte) :
    s.codesOf (msg ++ other) = s.codesOf msg ++ s.codesOf other := List.flatMap_append

theorem State.emits_append (msg other : List Byte) :
    s.emits bs (msg ++ other) ↔ s.emits bs msg ∧ s.emits (bs.drop (s.codesOf msg).length) other := by
  induction msg generalizing bs with
  | nil => simp
  | cons b msg ih => simp only [List.cons_append, State.emits_cons, ih, State.codesOf_cons, List.length_append, List.drop_drop,
      and_assoc]

theorem State.emits_concat (msg : List Byte) (b : Byte) :
    s.emits bs (msg ++ [b]) ↔ s.emits bs msg ∧ s.firstMatch (bs.drop (s.codesOf msg).length) b.toNat := by
  simp [State.emits_append]

theorem State.emits_take (h : s.emits bs msg) (n : Nat) : s.emits bs (msg.take n) := by
  rw [← List.take_append_drop n msg, State.emits_append] at h
  exact h.1

/-- R119: no bit is dropped between two symbols. -/
theorem State.codesOf_prefix_of_emits (h : s.emits bs msg) : s.codesOf msg <+: bs := by
  induction msg generalizing bs with
  | nil => exact List.nil_prefix
  | cons b msg ih =>
    obtain ⟨hfirst, hrest⟩ := h
    obtain ⟨rest, rfl⟩ := (State.code_of_firstMatch hfirst).2.2
    rw [List.drop_left] at hrest
    exact (List.prefix_append_right_inj _).2 (ih hrest)

theorem State.hasCode_of_emits (h : s.emits bs msg) : ∀ b ∈ msg, s.hasCode b.toNat := by
  induction msg generalizing bs with
  | nil => nofun
  | cons b msg ih => exact List.forall_mem_cons.2 ⟨(State.code_of_firstMatch h.1).2.1, ih h.2⟩

/-- R122, R123: where no present code begins another the scan finds the codes that were put one after the other. -/
theorem State.prefixFree.emits (hs : s.prefixFree) (hcodes : ∀ b ∈ msg, s.hasCode b.toNat) (hpre : s.codesOf msg <+: bs) :
    s.emits bs msg := by
  induction msg generalizing bs with
  | nil => trivial
  | cons b msg ih =>
    obtain ⟨hb, hmsg⟩ := List.forall_mem_cons.1 hcodes
    obtain ⟨rest, rfl⟩ := hpre
    rw [State.codesOf_cons, List.append_assoc]
    refine ⟨hs.firstMatch b.isLt hb (List.prefix_append _ _), ?_⟩
    rw [List.drop_left]
    exact ih hmsg (List.prefix_append _ _)

/-- The greedy scan goes on to a place where no candidate matches: each symbol uses up at least one bit. -/
theorem State.exists_emits_stuck (s : State) (bs : BitString) :
    ∃ msg, s.emits bs msg ∧ ∀ m, ¬ s.firstMatch (bs.drop (s.codesOf msg).length) m := by
  by_cases hstuck : ∃ m, s.firstMatch bs m
  · obtain ⟨m, hm⟩ := hstuck
    obtain ⟨hm256, hc, hpre⟩ := State.code_of_firstMatch hm
    have hpos : 0 < (s.code m).length := List.length_pos_iff.2 (State.hasCode_iff_code_ne_nil.1 hc)
    have hle := hpre.length_le
    obtain ⟨msg, hmsg, hend⟩ := State.exists_emits_stuck s (bs.drop (s.code m).length)
    have hbyte : (BitVec.ofNat 8 m).toNat = m := Nat.mod_eq_of_lt hm256
    exact ⟨BitVec.ofNat 8 m :: msg, by rw [State.emits_cons, hbyte]; exact ⟨hm, hmsg⟩,
      by simpa only [State.codesOf_cons, hbyte, List.length_append, List.drop_drop] using hend⟩
  · exact ⟨[], trivial, not_exists.1 hstuck⟩
termination_by bs.length
decreasing_by rw [List.length_drop]; omega

end Emits

/-- Settles O45: the search in ascending order answers the first symbol whose entry fits, and an absent entry fits no candidate that
has a bit. -/
theorem matchIsTheLeastSymbol : Obligations.MatchIsTheLeastSymbol := by
  unfold Obligations.MatchIsTheLeastSymbol
  intro s cand hne
  refine ⟨fun m => State.matchCode_eq_some_iff, State.matchCode_eq_none_iff, fun m hm => ?present⟩
  case present =>
    rw [State.hasCode_iff_code_ne_nil, (State.code_of_matchCode hm).2]
    exact hne

end Sys2Proof.Machine
end

section
/-!
SUPPORT. UNPACK (45_unpack.md R116 to R121): its loop from one symbol boundary to the next is the greedy scan, and the ways in
which it ends.
-/

namespace Sys2Proof.Machine

/-! ## One candidate -/

/-- R119 from inside a candidate: the bits `pre` that complete it to the first one with a match. -/
theorem unpackBits_of_match {t : State} {cand pre : BitString} {m : Nat} (hpre : pre ≠ [])
    (hm : t.matchCode (cand ++ pre) = some m)
    (hshort : ∀ k, cand.length < k → k < (cand ++ pre).length → t.matchCode ((cand ++ pre).take k) = none)
    (rest : BitString) (j start nout : Nat) :
    unpackBits t.lmax (pre ++ rest) j t ⟨cand, start, nout⟩ =
      if nout = t.cfg.srcMax then .error (.capacity .outFull, t)
      else unpackBits t.lmax rest (j + pre.length) (t.setOut nout (BitVec.ofNat 8 m)) ⟨[], j + pre.length, nout + 1⟩ := by
  induction pre generalizing cand j with
  | nil => exact absurd rfl hpre
  | cons b pre ih =>
    cases pre with
    | nil => simp only [List.singleton_append, unpackBits, hm, List.length_singleton]
    | cons c pre =>
      have hcat : cand ++ b :: c :: pre = (cand ++ [b]) ++ c :: pre := List.append_cons ..
      rw [hcat] at hm hshort
      have hgrow : (cand ++ [b]).length = cand.length + 1 := List.length_append
      have hlonger : (cand ++ [b]).length < ((cand ++ [b]) ++ c :: pre).length := by simp
      have hnone := hshort _ (by omega) hlonger
      rw [List.take_left] at hnone
      obtain ⟨hm256, hcode⟩ := State.code_of_matchCode hm
      have hlmax : ¬ t.lmax ≤ (cand ++ [b]).length := by
        have hle := t.ctLenAt_le_lmax hm256
        rw [← State.length_code, hcode] at hle
        exact Nat.not_le.2 (hlonger.trans_le hle)
      have hnext := ih (cand := cand ++ [b]) (List.cons_ne_nil c pre) hm (fun k hk => hshort k (by omega)) (j + 1)
      rw [List.cons_append, unpackBits]
      simp only [hnone, if_neg hlmax, hnext, List.length_cons, Nat.add_assoc, Nat.add_comm 1]

/-- R120: bits of which no candidate matches are refused, before `lmax` of them or at the end of the stream. -/
theorem unpackBits_of_no_match {t : State} {cand bs : BitString} (hne : cand ++ bs ≠ [])
    (hnone : ∀ k, cand.length < k → k ≤ (cand ++ bs).length → t.matchCode ((cand ++ bs).take k) = none)
    (lmax j start nout : Nat) :
    unpackBits lmax bs j t ⟨cand, start, nout⟩ = .error (.malformedStream start, t) := by
  induction bs generalizing cand j with
  | nil =>
    rw [List.append_nil] at hne
    rw [unpackBits, if_pos hne]
  | cons b bs ih =>
    have hcat : cand ++ b :: bs = (cand ++ [b]) ++ bs := List.append_cons ..
    rw [hcat] at hne hnone
    have hgrow : (cand ++ [b]).length = cand.length + 1 := List.length_append
    have hfirst := hnone (cand ++ [b]).length (by omega) (by simp)
    rw [List.take_left] at hfirst
    have hnext := ih hne (fun k hk => hnone k (by omega)) (j + 1)
    simp only [unpackBits, hfirst, hnext, ite_self]

/-! ## One symbol -/

/-- R119(f): `t` is `s` with the symbols `msg` written to `OUT`; `OUT_LEN` is set before and after the loop. -/
structure State.Emitted (s : State) (msg : List Byte) (t : State) : Prop where
  frame : t = { s with out := t.out, outLen := t.outLen }
  written : ∀ i (hi : i < msg.length), t.outAt i = msg[i]
  untouched : ∀ i, msg.length ≤ i → t.outAt i = s.outAt i

/-- The loop of R119 where a candidate begins: the symbols `msg` stand in `OUT` of `t`, and their codes have been read. -/
def State.scanAfter (s : State) (msg : List Byte) (t : State) : Except (CmdError × State) (State × Nat) :=
  unpackBits s.lmax (s.stream.drop (s.codesOf msg).length) (s.codesOf msg).length t ⟨[], (s.codesOf msg).length, msg.length⟩

section Scan
variable {s t : State} {msg : List Byte}

@[simp] theorem State.length_stream (s : State) : s.stream.length = s.bitCount.toNat := by simp [State.stream]

theorem State.emitted_nil (s : State) : s.Emitted [] (s.setOutLen 0) := ⟨rfl, nofun, fun _ _ => rfl⟩

theorem State.Emitted.concat (ht : s.Emitted msg t) (b : Byte) : s.Emitted (msg ++ [b]) (t.setOut msg.length b) where
  frame := congrArg (State.setOut · _ _) ht.frame
  written i hi := by
    rw [List.length_append, List.length_singleton] at hi
    rcases Nat.eq_or_lt_of_le (Nat.le_of_lt_succ hi) with rfl | hlt
    · rw [State.setOut_outAt_self, List.getElem_concat_length rfl]
    · rw [State.setOut_outAt_ne _ _ hlt.ne, ht.written i hlt, List.getElem_append_left hlt]
  untouched i hi := by
    rw [List.length_append, List.length_singleton] at hi
    rw [State.setOut_outAt_ne _ _ (by omega), ht.untouched i (by omega)]

theorem State.Emitted.map_outAt (ht : s.Emitted msg t) : (List.range msg.length).map t.outAt = msg :=
  List.ext_getElem (by simp) fun i _ hi => by simp [ht.written i hi]

/-- The completion of a scan changes `OUT`, `OUT_LEN` and the report. -/
theorem State.Emitted.frame_reported (ht : s.Emitted msg t) (n : Nat) (e : ErrCode) (i : Word) :
    (t.setOutLen n).reported e i = { s with out := t.out, outLen := BitVec.ofNat 32 n }.reported e i :=
  congrArg (fun u => (State.setOutLen u n).reported e i) ht.frame

theorem State.Emitted.cfg (ht : s.Emitted msg t) : t.cfg = s.cfg := by rw [ht.frame]

theorem State.Emitted.lmax (ht : s.Emitted msg t) : t.lmax = s.lmax := by
  rw [ht.frame]
  rfl

theorem State.Emitted.matchCode (ht : s.Emitted msg t) (cand : BitString) : t.matchCode cand = s.matchCode cand := by
  rw [ht.frame]
  rfl

/-- R119: the scan reaches the end of the first match, and writes its symbol if `OUT` has room. -/
theorem State.Emitted.scanAfter_of_firstMatch (ht : s.Emitted msg t) {b : Byte}
    (hb : s.firstMatch (s.stream.drop (s.codesOf msg).length) b.toNat) :
    s.scanAfter msg t = if msg.length = s.cfg.srcMax then .error (.capacity .outFull, t)
      else s.scanAfter (msg ++ [b]) (t.setOut msg.length b) := by
  obtain ⟨hne, ⟨rest, hrest⟩, hmatch, hshort⟩ := State.firstMatch_iff.1 hb
  have hcand := unpackBits_of_match (t := t) (cand := []) hne ((ht.matchCode _).trans hmatch)
    (fun k hpos (hlt : k < (s.code b.toNat).length) => by
      rw [List.nil_append, ht.matchCode, ← List.take_append_of_le_length (l₂ := rest) hlt.le, hrest]
      exact hshort k hpos hlt)
    rest (s.codesOf msg).length (s.codesOf msg).length msg.length
  rw [hrest, ht.lmax, ht.cfg, BitVec.ofNat_toNat, BitVec.setWidth_eq] at hcand
  rw [State.scanAfter, hcand, State.scanAfter, State.codesOf_append, List.length_append, ← List.drop_drop, ← hrest]
  simp

/-- The end of the stream at the end of a symbol. -/
theorem State.scanAfter_of_end (hend : s.codesOf msg = s.stream) : s.scanAfter msg t = .ok (t, msg.length) := by
  rw [State.scanAfter, hend, List.drop_length]
  rfl

/-- R120: bits of which no candidate matches are an error at the place where they begin. -/
theorem State.Emitted.scanAfter_of_stuck (ht : s.Emitted msg t) (hleft : (s.codesOf msg).length < s.stream.length)
    (hstuck : ∀ m, ¬ s.firstMatch (s.stream.drop (s.codesOf msg).length) m) :
    s.scanAfter msg t = .error (.malformedStream (s.codesOf msg).length, t) := by
  refine unpackBits_of_no_match (by simpa using hleft) (fun k hpos hle => ?_) _ _ _ _
  refine Option.eq_none_iff_forall_ne_some.2 fun m hm => ?_
  rw [ht.matchCode, List.nil_append] at hm
  obtain ⟨hm256, hcode⟩ := State.code_of_matchCode hm
  have hne : s.code m ≠ [] := by
    rw [hcode, ← List.length_pos_iff, List.length_take_of_le (by simpa using hle)]
    exact hpos
  obtain ⟨o, ho⟩ := State.exists_firstMatch hm256 (State.hasCode_iff_code_ne_nil.2 hne) (hcode ▸ List.take_prefix _ _)
  exact hstuck o ho

/-- The scan of a message that fits `OUT`, from the first bit on. -/
theorem State.scanAfter_of_emits (h : s.emits s.stream msg) (hroom : msg.length ≤ s.cfg.srcMax) :
    ∃ t, s.Emitted msg t ∧ s.scanAfter [] (s.setOutLen 0) = s.scanAfter msg t := by
  induction msg using List.reverseRecOn with
  | nil => exact ⟨_, s.emitted_nil, rfl⟩
  | append_singleton msg b ih =>
    rw [List.length_append, List.length_singleton] at hroom
    obtain ⟨hmsg, hb⟩ := (State.emits_concat msg b).1 h
    obtain ⟨t, ht, hscan⟩ := ih hmsg (by omega)
    refine ⟨_, ht.concat b, ?_⟩
    rw [hscan, ht.scanAfter_of_firstMatch hb, if_neg (by omega)]

/-- R149: the whole scan where the message is longer than `OUT`. -/
theorem State.scanAfter_of_overrun (h : s.emits s.stream msg) (hover : s.cfg.srcMax < msg.length) :
    ∃ t, s.Emitted (msg.take s.cfg.srcMax) t ∧ s.scanAfter [] (s.setOutLen 0) = .error (.capacity .outFull, t) := by
  have hlen := List.length_take_of_le hover.le
  rw [← List.take_append_drop s.cfg.srcMax msg, List.drop_eq_getElem_cons hover, State.emits_append, State.emits_cons] at h
  obtain ⟨hmsg, hb, -⟩ := h
  obtain ⟨t, ht, hscan⟩ := State.scanAfter_of_emits hmsg hlen.le
  exact ⟨t, ht, by rw [hscan, ht.scanAfter_of_firstMatch hb, if_pos hlen]⟩

end Scan

/-! ## The completion -/

section Exec
variable {s t : State}

theorem exec_unpack_of_tooMany (h : s.cfg.pkMax < s.byteCount.toNat) :
    exec .unpack s = .next ((s.setOutLen 0).reported .capacity 4#32) := by
  rw [exec_eq_complete, bodyOf, bodyUnpack, if_pos h]
  rfl

theorem exec_unpack_of_disagree (hle : s.byteCount.toNat ≤ s.cfg.pkMax) (h : s.byteCount.toNat ≠ (s.bitCount.toNat + 7) / 8) :
    exec .unpack s = .next ((s.setOutLen 0).reported .malformedContainer 0xFFFFFFFF#32) := by
  rw [exec_eq_complete, bodyOf, bodyUnpack, ceil8, if_neg (Nat.not_lt.2 hle), if_pos h]
  rfl

/-- The header that R116 lets pass. -/
def State.headerOk (s : State) : Prop := s.byteCount.toNat ≤ s.cfg.pkMax ∧ s.byteCount.toNat = (s.bitCount.toNat + 7) / 8

theorem exec_unpack_of_scan_ok (h : s.headerOk) {n : Nat}
    (hscan : s.scanAfter [] (s.setOutLen 0) = .ok (t, n)) :
    exec .unpack s = .next ((t.setOutLen n).reported .none 0#32) := by
  obtain ⟨hle, hcounts⟩ := h
  change unpackBits s.lmax s.stream 0 (s.setOutLen 0) ⟨[], 0, 0⟩ = _ at hscan
  rw [exec_eq_complete, bodyOf, bodyUnpack, ceil8, if_neg (Nat.not_lt.2 hle), if_neg (not_not.2 hcounts), hscan]
  rfl

theorem exec_unpack_of_scan_error (h : s.headerOk) {e : CmdError}
    (hscan : s.scanAfter [] (s.setOutLen 0) = .error (e, t)) :
    exec .unpack s = .next ((t.setOutLen 0).reported e.code e.info) := by
  obtain ⟨hle, hcounts⟩ := h
  change unpackBits s.lmax s.stream 0 (s.setOutLen 0) ⟨[], 0, 0⟩ = _ at hscan
  rw [exec_eq_complete, bodyOf, bodyUnpack, ceil8, if_neg (Nat.not_lt.2 hle), if_neg (not_not.2 hcounts), hscan]
  rfl

/-- R116, R119 to R121: the ends of UNPACK. Past the header it is the greedy scan of the whole stream, as far as `OUT` has room. -/
theorem exec_unpack_cases (hexec : exec .unpack s = .next t) :
    t.err = .capacity ∨ (s.byteCount.toNat ≠ (s.bitCount.toNat + 7) / 8 ∧ t.err = .malformedContainer) ∨
    ∃ msg u, s.emits s.stream msg ∧ msg.length ≤ s.cfg.srcMax ∧ s.Emitted msg u ∧
      ((s.codesOf msg = s.stream ∧ t = (u.setOutLen msg.length).reported .none 0#32) ∨
      ((s.codesOf msg).length < s.stream.length ∧ (∀ m, ¬ s.firstMatch (s.stream.drop (s.codesOf msg).length) m) ∧
        t = (u.setOutLen 0).reported .malformedContainer (BitVec.ofNat 32 (s.codesOf msg).length))) := by
  have heq : ∀ {v}, exec .unpack s = .next v → t = v := fun hv => Host.Outcome.next.inj (hexec.symm.trans hv)
  rcases Nat.lt_or_ge s.cfg.pkMax s.byteCount.toNat with hmany | hle
  · exact .inl (by rw [heq (exec_unpack_of_tooMany hmany), State.reported_err])
  by_cases hcounts : s.byteCount.toNat = (s.bitCount.toNat + 7) / 8
  · obtain ⟨msg, hemits, hstuck⟩ := s.exists_emits_stuck s.stream
    rcases Nat.lt_or_ge s.cfg.srcMax msg.length with hover | hroom
    · obtain ⟨u, -, hscan⟩ := State.scanAfter_of_overrun hemits hover
      exact .inl (by rw [heq (exec_unpack_of_scan_error ⟨hle, hcounts⟩ hscan), State.reported_err, CmdError.code])
    · obtain ⟨u, hu, hscan⟩ := State.scanAfter_of_emits hemits hroom
      refine .inr (.inr ⟨msg, u, hemits, hroom, hu, ?_⟩)
      rcases Nat.lt_or_ge (s.codesOf msg).length s.stream.length with hleft | hend
      · have hstop := hscan.trans (hu.scanAfter_of_stuck hleft hstuck)
        exact .inr ⟨hleft, hstuck, heq (exec_unpack_of_scan_error ⟨hle, hcounts⟩ hstop)⟩
      · have hall := (State.codesOf_prefix_of_emits hemits).eq_of_length_le hend
        exact .inl ⟨hall, heq (exec_unpack_of_scan_ok ⟨hle, hcounts⟩ (hscan.trans (State.scanAfter_of_end hall)))⟩
  · exact .inr (.inl ⟨hcounts, by rw [heq (exec_unpack_of_disagree hle hcounts), State.reported_err]⟩)

end Exec

/-! ## The obligations -/

/-- Settles O44: the two checks of R116, each with its error effects (R145) and its report. -/
theorem unpackHeaderChecks : Obligations.UnpackHeaderChecks := fun _ => ⟨exec_unpack_of_tooMany, exec_unpack_of_disagree⟩

/-- `OUT` has at most `2^24` cells, so `OUT_LEN` holds any number of symbols that fit it. -/
theorem outLen_toNat_of_le_srcMax {s : State} (hcfg : s.cfg.wf) {n : Nat} (hn : n ≤ s.cfg.srcMax) :
    (BitVec.ofNat 32 n).toNat = n := by
  obtain ⟨-, hsrcMax, -, -⟩ := hcfg
  exact Nat.mod_eq_of_lt (by omega)

/-- Settles O46: under either hypothesis the scan emits the message, and it ends where the stream ends. -/
theorem unpackDecodesConcatenatedCodes : Obligations.UnpackDecodesConcatenatedCodes := by
  unfold Obligations.UnpackDecodesConcatenatedCodes
  intro s msg hcfg hle hcounts hstream hmsg hroom
  have hemits : s.emits s.stream msg :=
    hmsg.elim (fun ⟨hfree, hcodes⟩ => hfree.emits hcodes (hstream ▸ List.prefix_rfl)) id
  obtain ⟨t, ht, hscan⟩ := State.scanAfter_of_emits hemits hroom
  have hexec := exec_unpack_of_scan_ok ⟨hle, hcounts⟩ (hscan.trans (State.scanAfter_of_end hstream.symm))
  exact ⟨_, hexec, ht.frame_reported _ _ _, outLen_toNat_of_le_srcMax hcfg hroom, ht.written, ht.untouched⟩

/-- Settles O47: of the ends of UNPACK only the end of the stream is a success. -/
theorem unpackSuccessIsADecoding : Obligations.UnpackSuccessIsADecoding := by
  unfold Obligations.UnpackSuccessIsADecoding
  intro s t hcfg hexec herr
  rcases exec_unpack_cases hexec with
    hcapacity | ⟨-, hmalformed⟩ | ⟨msg, u, hemits, hroom, hu, ⟨hall, rfl⟩ | ⟨-, -, rfl⟩⟩
  · cases hcapacity.symm.trans herr
  · cases hmalformed.symm.trans herr
  · have hlen := outLen_toNat_of_le_srcMax hcfg hroom
    have hout : (List.range (BitVec.ofNat 32 msg.length).toNat).map u.outAt = msg := by rw [hlen, hu.map_outAt]
    refine ⟨hu.frame_reported _ _ _, ?emits, ?codes, ?present, fun i hi => hu.untouched i (hlen ▸ hi)⟩
    case emits => exact hout.symm ▸ hemits
    case codes => exact hout.symm ▸ hall
    case present =>
      intro i hi
      rw [State.reported_outAt, State.setOutLen_outAt, hu.written i (hlen ▸ hi)]
      exact State.hasCode_of_emits hemits _ (List.getElem_mem _)
  · cases herr

/-- Settles O48: the error of R120 comes where the scan is stuck before the end of the stream. -/
theorem unpackMalformedStart : Obligations.UnpackMalformedStart := by
  unfold Obligations.UnpackMalformedStart
  intro s t hexec hcounts herr
  rcases exec_unpack_cases hexec with
    hcapacity | ⟨hdisagree, -⟩ | ⟨msg, u, hemits, hroom, hu, ⟨-, rfl⟩ | ⟨hleft, hstuck, rfl⟩⟩
  · cases hcapacity.symm.trans herr
  · exact absurd hcounts hdisagree
  · cases herr
  · rw [State.length_stream] at hleft
    have hstart : (BitVec.ofNat 32 (s.codesOf msg).length).toNat = (s.codesOf msg).length :=
      Nat.mod_eq_of_lt (hleft.trans s.bitCount.isLt)
    have hpre := State.codesOf_prefix_of_emits hemits
    rw [State.reported_errInfo, hstart]
    refine ⟨hu.frame_reported _ _ _, hleft, ⟨msg, List.prefix_iff_eq_take.1 hpre, hemits, hroom, State.hasCode_of_emits hemits,
      hu.written, hu.untouched⟩, fun sym hsym hc hcode => ?stuck⟩
    case stuck =>
      obtain ⟨m, hm⟩ := State.exists_firstMatch hsym hc hcode
      exact hstuck m hm

/-- Settles O49: the scan of the first `SRC_MAX` symbols fills `OUT`, and the next match is refused. -/
theorem unpackOutputFull : Obligations.UnpackOutputFull := by
  unfold Obligations.UnpackOutputFull
  intro s msg _ hle hcounts hmsg hlen
  have hemits : s.emits s.stream msg := hmsg.elim (fun ⟨hfree, hcodes, hpre⟩ => hfree.emits hcodes hpre) id
  obtain ⟨t, ht, hscan⟩ := State.scanAfter_of_overrun hemits (by omega)
  have hfull : (msg.take s.cfg.srcMax).length = s.cfg.srcMax := List.length_take_of_le (by omega)
  refine ⟨_, exec_unpack_of_scan_error ⟨hle, hcounts⟩ hscan, ht.frame_reported _ _ _, fun i hi hlt => ?written,
    fun i hi => ht.untouched i (hfull.trans_le hi)⟩
  case written =>
    have := ht.written i (hfull.symm ▸ hlt)
    rwa [List.getElem_take] at this

end Sys2Proof.Machine
end

section
/-!
SUPPORT. UNPACK reads `PK` through the stream only (45_unpack.md R117, R124): replacing `PK` by another content with the same stream
commutes with it.
-/

namespace Sys2Proof.Machine

/-- A change of the state that the parameters, the matches and `OUT` do not see passes through the loop of R119. -/
theorem unpackBits_mapEnds {f : State → State} (hcfg : ∀ s, (f s).cfg = s.cfg)
    (hmatch : ∀ s cand, (f s).matchCode cand = s.matchCode cand) (hout : ∀ s i v, (f s).setOut i v = f (s.setOut i v))
    (lmax : Nat) (bs : BitString) (j : Nat) (s : State) (u : Unpacker) :
    unpackBits lmax bs j (f s) u = mapEnds f (unpackBits lmax bs j s u) := by
  induction bs generalizing s j u with
  | nil =>
    simp only [unpackBits, apply_ite (mapEnds f)]
    rfl
  | cons b bs ih =>
    simp only [unpackBits, hmatch]
    cases s.matchCode (u.cand ++ [b]) with
    | some m => simp only [hcfg, hout, ih, apply_ite (mapEnds f), mapEnds_error]
    | none => simp only [ih, apply_ite (mapEnds f), mapEnds_error]

/-- `PK` with another content. -/
def State.withPk (m : Memory) (s : State) : State := { s with pk := m }

section WithPk
variable {m : Memory} {s : State}

@[simp] theorem State.withPk_cfg : (s.withPk m).cfg = s.cfg := rfl
@[simp] theorem State.withPk_byteCount : (s.withPk m).byteCount = s.byteCount := rfl
@[simp] theorem State.withPk_bitCount : (s.withPk m).bitCount = s.bitCount := rfl
@[simp] theorem State.withPk_lmax : (s.withPk m).lmax = s.lmax := rfl
@[simp] theorem State.withPk_setOutLen (n : Nat) : (s.withPk m).setOutLen n = (s.setOutLen n).withPk m := rfl

theorem bodyUnpack_withPk (hs : (s.withPk m).stream = s.stream) :
    bodyUnpack (s.withPk m) = (bodyUnpack s).mapState (State.withPk m) := by
  have hbits := unpackBits_mapEnds (f := State.withPk m) (fun _ => rfl) (fun _ _ => rfl) (fun _ _ _ => rfl) s.lmax s.stream 0
    (s.setOutLen 0) ⟨[], 0, 0⟩
  unfold bodyUnpack
  rw [← Body.withEffects_mapState (f := State.withPk m) fun _ => rfl, hs]
  refine congrArg _ ?_
  simp only [State.withPk_cfg, State.withPk_byteCount, State.withPk_bitCount, State.withPk_lmax, State.withPk_setOutLen, hbits]
  split_ifs
  · rfl
  · rfl
  · cases unpackBits s.lmax s.stream 0 (s.setOutLen 0) ⟨[], 0, 0⟩ with
    | error e => rfl
    | ok r => rfl

/-- R117, R124: the stream is the full groups and the low bits of the last one. -/
theorem stream_withPk (hfull : ∀ i, i < s.bitCount.toNat / 8 → (s.withPk m).pkAt i = s.pkAt i)
    (hlast : ∀ k, k < s.bitCount.toNat % 8 →
      ((s.withPk m).pkAt (s.bitCount.toNat / 8)).getLsbD k = (s.pkAt (s.bitCount.toNat / 8)).getLsbD k) :
    (s.withPk m).stream = s.stream := by
  refine List.map_congr_left fun j hj => ?_
  have hlt : j < s.bitCount.toNat := List.mem_range.1 hj
  rw [State.streambit, State.streambit, State.withPk_bitCount]
  by_cases hgroup : j / 8 < s.bitCount.toNat / 8
  · rw [if_pos hgroup, if_pos hgroup, hfull _ hgroup]
  · rw [if_neg hgroup, if_neg hgroup, hlast _ (by omega)]

end WithPk

/-- Settles O50: the two states have one stream, and UNPACK reads nothing else of `PK`. -/
theorem unpackIgnoresPadding : Obligations.UnpackIgnoresPadding := by
  unfold Obligations.UnpackIgnoresPadding
  intro s t m hfull hlast ht
  rw [exec_eq_complete] at ht ⊢
  have hend := Body.complete_mapState (f := State.withPk m) (fun _ _ => rfl) ht
  rw [bodyOf, ← bodyUnpack_withPk (stream_withPk hfull hlast)] at hend
  exact hend

end Sys2Proof.Machine
end

section
/-!
SUPPORT. The round trip (45_unpack.md R123): what a successful ENCODE leaves is a stream of codes none of which begins another, so
that UNPACK decodes it.
-/

namespace Sys2Proof.Machine

/-! ## The stages of a success -/

theorem Body.withEffects_eq_returned {i : Instr} {b : Body} {t : State} (h : b.withEffects i = .returned t) : b = .returned t := by
  cases b with
  | returned s => exact h
  | raised e s => cases h
  | stuck f => cases h

/-- R130: a `return` of ENCODE is one of each of its stages. -/
theorem bodyEncode_returned_stages {s t : State} (h : bodyEncode s = .returned t) :
    ∃ a b c, bodyFcount (s.dropTree.setCounts 0 0) = .returned a ∧ bodyTbuild a = .returned b ∧ bodyCgen b = .returned c ∧
      bodyPack c = .returned t := by
  obtain ⟨c, hc, hpack⟩ := Body.andThen_eq_returned (Body.withEffects_eq_returned h)
  obtain ⟨b, hb, hcgen⟩ := Body.andThen_eq_returned hc
  obtain ⟨a, hfcount, htbuild⟩ := Body.andThen_eq_returned hb
  exact ⟨a, b, c, hfcount, htbuild, hcgen, hpack⟩

theorem exec_of_returned {i : Instr} {s t : State} (h : bodyOf i s = .returned t) : exec i s = .next (t.finish none) := by
  rw [exec_eq_complete, h, Body.complete]

theorem cfg_of_returned (i : Instr) {s t : State} (h : bodyOf i s = .returned t) : t.cfg = s.cfg :=
  (commandsWriteOnlyTheirResults i s _ (exec_of_returned h)).1

/-- R83, R99: the code table that TBUILD and CGEN leave when both return has no code that begins another. -/
theorem prefixFree_of_tbuild_cgen {a b c : State} (htbuild : bodyTbuild a = .returned b) (hcgen : bodyCgen b = .returned c) :
    c.prefixFree := by
  have hcgen' := exec_of_returned (i := .cgen) hcgen
  have htv : b.tv = true :=
    (exec_tv (by decide) (by decide) (by decide) hcgen').symm.trans (bodyCgen_returned_tv (t := c) hcgen)
  have htree := (treeOf_of_exec_tbuild (exec_of_returned (i := .tbuild) htbuild) htv).treeInv
  exact cgenTableIsPrefixFree b (c.finish none) htv (htree.congr rfl rfl rfl) hcgen'

/-- R107: a successful PACK has met a code for every byte of the input, and room for the stream. -/
theorem exec_pack_success {s t : State} (hcfg : s.cfg.wf) (ht : exec .pack s = .next t) (herr : t.err = .none) :
    s.srcLen.toNat ≤ s.cfg.srcMax ∧ (∀ b ∈ s.input, s.hasCode b.toNat) ∧ s.encodedStream.length ≤ 8 * s.cfg.pkMax := by
  obtain ⟨hlong, hstops⟩ := packErrors s hcfg
  have hle : s.srcLen.toNat ≤ s.cfg.srcMax := by
    by_contra hover
    cases (hlong (Nat.lt_of_not_le hover)).symm.trans ht
    cases herr
  have hsofar : ∀ i, i ≤ s.srcLen.toNat →
      (∀ b ∈ s.input.take i, s.hasCode b.toNat) ∧ (s.codesOf (s.input.take i)).length ≤ 8 * s.cfg.pkMax := by
    intro i
    induction i with
    | zero => simp
    | succ i ih =>
      intro hi
      obtain ⟨hcodes, hfit⟩ := ih (by omega)
      obtain ⟨habsent, hover⟩ := hstops hle i hi hcodes hfit
      have hc : s.hasCode (s.srcAt i).toNat := by
        by_contra hnone
        obtain ⟨u, hu, hframe, -⟩ := habsent hnone
        cases hu.symm.trans ht
        rw [hframe] at herr
        cases herr
      refine ⟨by simpa [take_succ_input hi, or_imp, forall_and] using ⟨hcodes, hc⟩, ?_⟩
      by_contra hfull
      obtain ⟨u, hu, hframe, -⟩ := hover hc (Nat.lt_of_not_le hfull)
      cases hu.symm.trans ht
      rw [hframe] at herr
      cases herr
  have hall := hsofar _ le_rfl
  rw [List.take_of_length_le s.length_input.le] at hall
  exact ⟨hle, hall⟩

/-! ## What UNPACK finds -/

/-- R123: what UNPACK needs to give the input back. -/
structure State.Decodable (t : State) : Prop where
  prefixFree : t.prefixFree
  present : ∀ b ∈ t.input, t.hasCode b.toNat
  stream : t.stream = t.encodedStream
  header : t.headerOk
  room : t.srcLen.toNat ≤ t.cfg.srcMax

theorem decodable_of_exec_pack {s t : State} (hcfg : s.cfg.wf) (hfree : s.prefixFree) (ht : exec .pack s = .next t)
    (herr : t.err = .none) : t.Decodable := by
  obtain ⟨hle, hcodes, hfit⟩ := exec_pack_success hcfg ht herr
  obtain ⟨u, hu, hframe, hbits, -, hbytes, -, hstream, -⟩ := packWritesTheEncodedStream s hcfg hle hcodes hfit
  cases hu.symm.trans ht
  have hencoded : t.encodedStream = s.encodedStream := by rw [hframe]; rfl
  have hsame : t.cfg = s.cfg := by rw [hframe]; rfl
  exact {
    prefixFree := by rw [hframe]; exact hfree
    present := by rw [hframe]; exact hcodes
    stream := hstream.trans hencoded.symm
    header := ⟨by rw [hbytes, hbits, hsame]; omega, hbytes⟩
    room := by rw [hframe]; exact hle }

theorem decodable_of_exec_encode {s t : State} (hcfg : s.cfg.wf) (ht : exec .encode s = .next t) (herr : t.err = .none) :
    t.Decodable := by
  rw [exec_eq_complete] at ht
  rcases Body.complete_next ht with ⟨u, hu, rfl⟩ | ⟨e, u, -, rfl⟩
  · obtain ⟨a, b, c, hfcount, htbuild, hcgen, hpack⟩ := bodyEncode_returned_stages hu
    have hc : c.cfg = s.cfg :=
      ((cfg_of_returned .cgen hcgen).trans (cfg_of_returned .tbuild htbuild)).trans
        (cfg_of_returned .fcount (s := s.dropTree.setCounts 0 0) hfcount)
    exact decodable_of_exec_pack (hc.symm ▸ hcfg) (prefixFree_of_tbuild_cgen htbuild hcgen)
      (exec_of_returned (i := .pack) hpack) rfl
  · exact absurd herr (resultCode_some_ne e)

theorem srcAt_of_exec_encode {s t : State} (ht : exec .encode s = .next t) : t.srcAt = s.srcAt := by
  obtain ⟨-, -, hsrc, hpowerOns, -⟩ := commandsWriteOnlyTheirResults _ _ _ ht
  exact funext fun i => by rw [State.srcAt, hsrc, hpowerOns, State.srcAt]

/-- Settles O56: the stream that ENCODE leaves is the codes of the input, none of which begins another, so
UNPACK decodes it (R122). -/
theorem roundTrip : Obligations.RoundTrip := by
  unfold Obligations.RoundTrip
  intro s t hcfg ht herr
  have hdec := decodable_of_exec_encode hcfg ht herr
  obtain ⟨hpk, hcounts⟩ := hdec.header
  obtain ⟨hc, -, -, -, -, hsrcLen, -⟩ := commandsWriteOnlyTheirResults _ _ _ ht
  have hlength : t.input.length = s.srcLen.toNat := by rw [State.length_input, hsrcLen (by decide)]
  obtain ⟨u, hu, hframe, hlen, hout, -⟩ := unpackDecodesConcatenatedCodes (t.accept (encode .unpack)) t.input (hc ▸ hcfg) hpk
    hcounts hdec.stream (.inl ⟨hdec.prefixFree, hdec.present⟩) (t.length_input.trans_le hdec.room)
  refine ⟨u, hu, by rw [hframe, State.reported_err], BitVec.eq_of_toNat_eq (hlen.trans hlength), fun i hi => ?byte⟩
  case byte =>
    have hbyte : t.input[i]'(hlength.symm ▸ hi) = t.srcAt i := by simp [State.input]
    rw [hout i (hlength.symm ▸ hi), hbyte, srcAt_of_exec_encode ht]

end Sys2Proof.Machine
end

section
/-!
SUPPORT. What the stages of ENCODE leave alone (46_encode_system.md R130, R134): the loops of FCOUNT, TBUILD, CGEN and PACK work on
the tables and the buffers, so a change of the result registers and of the report passes through each of them.
-/

namespace Sys2Proof.Machine

/-! ## A change of registers only -/

/-- `f` changes none of what the loops of the four stages read, and passes through every write of theirs. -/
structure ChangesRegistersOnly (f : State → State) : Prop where
  cfg : ∀ s, (f s).cfg = s.cfg
  srcLen : ∀ s, (f s).srcLen = s.srcLen
  input : ∀ s, (f s).input = s.input
  freqAt : ∀ s i, (f s).freqAt i = s.freqAt i
  nodeAt : ∀ s h, (f s).nodeAt h = s.nodeAt h
  ctLenAt : ∀ s i, (f s).ctLenAt i = s.ctLenAt i
  ctBitsAt : ∀ s k, (f s).ctBitsAt k = s.ctBitsAt k
  zeroFreq : ∀ s, (f s).zeroFreq = f s.zeroFreq
  zeroCodes : ∀ s, (f s).zeroCodes = f s.zeroCodes
  setFreq : ∀ s i v, (f s).setFreq i v = f (s.setFreq i v)
  setNode : ∀ s h v, (f s).setNode h v = f (s.setNode h v)
  setCtLen : ∀ s i v, (f s).setCtLen i v = f (s.setCtLen i v)
  setCtBits : ∀ s k v, (f s).setCtBits k v = f (s.setCtBits k v)
  setPk : ∀ s i v, (f s).setPk i v = f (s.setPk i v)

theorem reported_changesRegistersOnly (e : ErrCode) (i : Word) : ChangesRegistersOnly (State.reported · e i) := by
  constructor <;> intros <;> rfl

theorem setCounts_changesRegistersOnly (a b : Nat) : ChangesRegistersOnly (State.setCounts · a b) := by
  constructor <;> intros <;> rfl

/-- The first lines of ENCODE (R130). -/
theorem dropTree_setCounts_changesRegistersOnly (a b : Nat) : ChangesRegistersOnly fun s => s.dropTree.setCounts a b := by
  constructor <;> intros <;> rfl

namespace ChangesRegistersOnly
variable {f g : State → State} (hf : ChangesRegistersOnly f)
include hf

theorem code (s : State) (sym : Nat) : (f s).code sym = s.code sym := by simp only [State.code, hf.ctLenAt, hf.ctBitsAt]

/-! ## FCOUNT -/

theorem counted (s : State) : (f s).counted = f s.counted := by
  rw [State.counted, hf.input, hf.zeroFreq]
  exact List.foldl_hom f fun t b => by rw [countByte, countByte, hf.freqAt, hf.setFreq]

/-! ## TBUILD -/

theorem present (s : State) : (f s).present = s.present := present_congr fun i _ => hf.freqAt s i

theorem seedLeaves (l : List Nat) (h : Nat) (s : State) (q : Queue) :
    seedLeaves l h (f s) q = (seedLeaves l h s q).map f id := by
  induction l generalizing h s q with
  | nil => rfl
  | cons x l ih => rw [Machine.seedLeaves, Machine.seedLeaves, hf.freqAt, hf.setNode, ih]

theorem mergeAll (fuel h : Nat) (s : State) (q : Queue) : mergeAll fuel h (f s) q = (mergeAll fuel h s q).map f id := by
  induction fuel generalizing h s q with
  | zero => rfl
  | succ fuel ih =>
    match q with
    | [] => rfl
    | [_] => rfl
    | a :: b :: q => simp only [Machine.mergeAll, Queue.extractMin, hf.setNode, ih]

theorem builtForest (s : State) : builtForest (f s) = (builtForest s).map f id := by
  rw [Machine.builtForest, hf.present, hf.seedLeaves, Prod.map_fst, Prod.map_snd, hf.mergeAll]
  rfl

/-- R83: the registers of the tree are written anew. -/
theorem buildTree (hset : ∀ s r h, (f s).setTree r h = g (s.setTree r h)) {s : State} (hn : 2 ≤ s.present.length) :
    buildTree (f s) = g (buildTree s) := by
  obtain ⟨t, e, hs, -⟩ := builtForest_sameSlots_ordered hn
  have hfs : (Machine.builtForest (f s)).2 = (2 * s.present.length - 1, [e]) := by rw [hf.builtForest, Prod.map_snd, hs]; rfl
  rw [buildTree_eq_setTree hs, buildTree_eq_setTree hfs, hf.builtForest]
  exact hset _ _ _

/-! ## CGEN -/

theorem writeBits (sym : Nat) (path : BitString) (k : Nat) (s : State) :
    writeBits sym path k (f s) = f (writeBits sym path k s) := by
  induction path generalizing k s with
  | nil => rfl
  | cons b path ih =>
    have hbit : setCodeBit (f s) sym k = f (setCodeBit s sym k) := by rw [setCodeBit, setCodeBit, hf.ctBitsAt, hf.setCtBits]
    rw [Machine.writeBits, Machine.writeBits, hbit, ← apply_ite f, ih]

theorem writeCode (s : State) (sym : Nat) (path : BitString) : writeCode (f s) sym path = f (writeCode s sym path) := by
  rw [Machine.writeCode, hf.setCtLen, hf.writeBits, Machine.writeCode]

theorem walk (fuel h : Nat) (path : BitString) (s : State) : walk fuel h path (f s) = (walk fuel h path s).mapState f := by
  induction fuel generalizing h path s with
  | zero => rfl
  | succ fuel ih =>
    cases hk : (s.nodeAt h).kind with
    | leaf =>
      rw [walk_of_leaf ((hf.nodeAt s h).symm ▸ hk), walk_of_leaf hk, hf.nodeAt, hf.writeCode, Body.mapState]
    | internal =>
      rw [walk_of_internal ((hf.nodeAt s h).symm ▸ hk), walk_of_internal hk, hf.nodeAt, ih]
      cases Machine.walk fuel (s.nodeAt h).left.toNat (path ++ [false]) s with
      | returned t => exact ih _ _ t
      | raised e t => rfl
      | stuck c => rfl

theorem bodyCgen {s : State} (htv : (f s).tv = s.tv) (hroot : (f s).root = s.root) :
    bodyCgen (f s) = (bodyCgen s).mapState f := by
  rw [Machine.bodyCgen, Machine.bodyCgen, ← Body.withEffects_mapState (f := f) fun _ => rfl, htv, hroot, hf.zeroCodes, hf.walk,
    apply_ite (Body.mapState f), Body.mapState]

/-! ## PACK -/

theorem packBits (bs : BitString) (s : State) (p : Packer) : packBits bs (f s) p = mapEnds f (packBits bs s p) := by
  induction bs generalizing s p with
  | nil => rfl
  | cons b bs ih => simp only [Machine.packBits, hf.cfg, hf.setPk, ih, apply_ite (mapEnds f), mapEnds_error]

theorem packBytes (bs : List Byte) (i : Nat) (s : State) (p : Packer) :
    packBytes bs i (f s) p = mapEnds f (packBytes bs i s p) := by
  induction bs generalizing s i p with
  | nil => rfl
  | cons b bs ih =>
    simp only [Machine.packBytes, hf.ctLenAt, hf.code, hf.packBits]
    split
    · rfl
    · cases Machine.packBits (s.code b.toNat) s p with
      | error e => rfl
      | ok r => exact ih (i + 1) r.1 r.2

theorem packEnd (hset : ∀ s a b, (f s).setCounts a b = f (s.setCounts a b)) (s : State) (p : Packer) :
    packEnd (f s) p = f (packEnd s p) := by
  simp only [Machine.packEnd, hf.setPk, hset, apply_ite f]

theorem bodyPack (hset : ∀ s a b, (f s).setCounts a b = f (s.setCounts a b)) (s : State) :
    bodyPack (f s) = (bodyPack s).mapState f := by
  rw [Machine.bodyPack, Machine.bodyPack, ← Body.withEffects_mapState (i := .pack) fun s => hset s 0 0, hf.cfg, hf.srcLen, hf.input,
    hset, hf.packBytes]
  split
  · rfl
  · cases Machine.packBytes s.input 0 (s.setCounts 0 0) Packer.start with
    | error e => rfl
    | ok r => exact congrArg Body.returned (hf.packEnd hset r.1 r.2)

end ChangesRegistersOnly

/-! ## The report of the command before -/

theorem Body.complete_mapState_reported (b : Body) (e : ErrCode) (i : Word) :
    (b.mapState (State.reported · e i)).complete = b.complete := by
  cases b with
  | returned s => rfl
  | raised e s => rfl
  | stuck f => rfl

theorem exec_tbuild_reported {s : State} (hn : 2 ≤ s.present.length) (e : ErrCode) (i : Word) :
    exec .tbuild (s.reported e i) = exec .tbuild s := by
  rw [exec_tbuild_of_two_le hn, exec_tbuild_of_two_le (s := s.reported e i) hn,
    (reported_changesRegistersOnly e i).buildTree (g := (State.reported · e i)) (fun _ _ _ => rfl) hn]
  rfl

theorem exec_cgen_reported (s : State) (e : ErrCode) (i : Word) : exec .cgen (s.reported e i) = exec .cgen s := by
  rw [exec_eq_complete, bodyOf, (reported_changesRegistersOnly e i).bodyCgen rfl rfl, Body.complete_mapState_reported]
  rfl

theorem exec_pack_reported (s : State) (e : ErrCode) (i : Word) : exec .pack (s.reported e i) = exec .pack s := by
  rw [exec_eq_complete, bodyOf, (reported_changesRegistersOnly e i).bodyPack (fun _ _ _ => rfl), Body.complete_mapState_reported]
  rfl

end Sys2Proof.Machine
end

section
/-!
SUPPORT. NOP, CLEAR and ENCODE (46_encode_system.md R130 to R134): the ways in which ENCODE completes, and the state in which its PACK
stage finds the engine.
-/

namespace Sys2Proof.Machine

/-! ## NOP and CLEAR -/

/-- Settles O27: the body is a `return`, and the report is all that the completion writes. -/
theorem nopResult : Obligations.NopResult := ⟨rfl, fun _ => rfl⟩

/-- Settles O28: the body writes every field that R34 gives a value. -/
theorem clearResult : Obligations.ClearResult := ⟨rfl, fun _ => rfl⟩

/-! ## The symbols of the input -/

section Input
variable {s : State}

theorem State.mem_present_counted {x : Nat} : x ∈ s.counted.present ↔ ∃ b ∈ s.input, b.toNat = x := by
  have hfreq : s.counted.freqAt x ≠ 0#32 ↔ ∃ b ∈ s.input, b.toNat = x := by
    rw [ne_eq, ← BitVec.toNat_inj, s.counted_freqAt]
    simp [List.count_eq_zero]
  rw [State.mem_present, hfreq, and_iff_right_iff_imp]
  rintro ⟨b, -, rfl⟩
  exact b.isLt

theorem State.nodup_present (s : State) : s.present.Nodup := s.pairwise_present.imp ne_of_lt

/-- R86: two bytes that differ are two symbols. -/
theorem State.two_le_length_present_counted {x y : Byte} (hx : x ∈ s.input) (hy : y ∈ s.input) (hxy : x ≠ y) :
    2 ≤ s.counted.present.length := by
  have hnodup : [x.toNat, y.toNat].Nodup := by simpa [BitVec.toNat_inj] using hxy
  have hsub : [x.toNat, y.toNat] ⊆ s.counted.present := by
    simp [State.mem_present_counted, BitVec.toNat_inj, hx, hy]
  exact (List.subperm_of_subset hnodup hsub).length_le

/-- R130: an input of one byte value has one symbol. -/
theorem State.length_present_counted_of_eq {b : Byte} (hpos : 0 < s.srcLen.toNat) (hall : ∀ x ∈ s.input, x = b) :
    s.counted.present.length = 1 := by
  have hb : b ∈ s.input := by
    obtain ⟨x, hx⟩ := List.exists_mem_of_length_pos (s.length_input.symm ▸ hpos)
    exact hall x hx ▸ hx
  have hperm : s.counted.present.Perm [b.toNat] :=
    (List.perm_ext_iff_of_nodup s.counted.nodup_present (List.nodup_singleton _)).2 fun x => by
      rw [State.mem_present_counted, List.mem_singleton]
      exact ⟨fun ⟨c, hc, hx⟩ => hall c hc ▸ hx.symm, fun hx => ⟨b, hb, hx.symm⟩⟩
  exact hperm.length_eq

end Input

/-! ## The completion -/

/-- R145: ENCODE adds nothing to the effects of the stage that failed. -/
theorem Body.withEffects_encode (b : Body) : b.withEffects .encode = b := by
  cases b with
  | returned s => rfl
  | raised e s => rfl
  | stuck f => rfl

section Exec
variable {s : State}

theorem bodyTbuild_of_fewer (hn : s.present.length < 2) :
    bodyTbuild s = .raised (.insufficientAlphabet s.present.length) s.dropTree :=
  congrArg (Body.withEffects .tbuild) (if_pos hn)

theorem bodyTbuild_of_two_le (hn : 2 ≤ s.present.length) : bodyTbuild s = .returned (buildTree s) :=
  congrArg (Body.withEffects .tbuild) (if_neg (Nat.not_lt.2 hn))

/-- R130: the FCOUNT stage counts the input as FCOUNT does. -/
theorem bodyFcount_dropTree_setCounts (hpos : s.srcLen ≠ 0#32) (hle : s.srcLen.toNat ≤ s.cfg.srcMax) :
    bodyFcount (s.dropTree.setCounts 0 0) = .returned (s.counted.dropTree.setCounts 0 0) :=
  calc bodyFcount (s.dropTree.setCounts 0 0)
      = .returned (s.dropTree.setCounts 0 0).counted :=
        congrArg (Body.withEffects .fcount) ((if_neg (Nat.not_lt.2 hle)).trans (if_neg hpos))
    _ = .returned (s.counted.dropTree.setCounts 0 0) :=
        congrArg Body.returned ((dropTree_setCounts_changesRegistersOnly 0 0).counted s)

theorem exec_encode_of_tooLong (h : s.cfg.srcMax < s.srcLen.toNat) :
    exec .encode s = .next ((s.dropTree.setCounts 0 0).reported .capacity 3#32) := by
  have hfcount : bodyFcount (s.dropTree.setCounts 0 0) = .raised (.capacity .srcLen) (s.dropTree.setCounts 0 0) :=
    congrArg (Body.withEffects .fcount) (if_pos h)
  rw [exec_eq_complete, bodyOf, bodyEncode, hfcount]
  rfl

theorem exec_encode_of_empty (h : s.srcLen = 0#32) :
    exec .encode s = .next ((s.dropTree.setCounts 0 0).zeroFreq.reported .emptyInput 0#32) := by
  have hfcount : bodyFcount (s.dropTree.setCounts 0 0) = .raised .emptyInput (s.dropTree.setCounts 0 0).zeroFreq :=
    congrArg (Body.withEffects .fcount) ((if_neg (by simp [h])).trans (if_pos h))
  rw [exec_eq_complete, bodyOf, bodyEncode, hfcount]
  rfl

theorem exec_encode_of_fewer (hpos : s.srcLen ≠ 0#32) (hle : s.srcLen.toNat ≤ s.cfg.srcMax) (hn : s.counted.present.length < 2) :
    exec .encode s = .next ((s.counted.dropTree.setCounts 0 0).reported .insufficientAlphabet
      (BitVec.ofNat 32 s.counted.present.length)) := by
  rw [exec_eq_complete, bodyOf, bodyEncode, bodyFcount_dropTree_setCounts hpos hle, Body.andThen_returned,
    bodyTbuild_of_fewer (s := s.counted.dropTree.setCounts 0 0) hn]
  rfl

/-- R130, R134: with two symbols it is the PACK stage that decides how ENCODE completes. -/
theorem exec_encode_of_two_le (hpos : s.srcLen ≠ 0#32) (hle : s.srcLen.toNat ≤ s.cfg.srcMax)
    (hn : 2 ≤ s.counted.present.length) {c : State} (hcgen : bodyCgen (buildTree s.counted) = .returned c) :
    exec .encode s = exec .pack c := by
  have hbuild : buildTree (s.counted.dropTree.setCounts 0 0) = (buildTree s.counted).setCounts 0 0 :=
    (dropTree_setCounts_changesRegistersOnly 0 0).buildTree (g := (State.setCounts · 0 0)) (fun _ _ _ => rfl) hn
  rw [exec_eq_complete, bodyOf, bodyEncode, Body.withEffects_encode, bodyFcount_dropTree_setCounts hpos hle,
    Body.andThen_returned, bodyTbuild_of_two_le (s := s.counted.dropTree.setCounts 0 0) hn, hbuild, Body.andThen_returned,
    (setCounts_changesRegistersOnly 0 0).bodyCgen rfl rfl, hcgen, Body.mapState, Body.andThen_returned]
  rfl

/-- R145: ENCODE drops the tree first, so it fails with `TV = 0` unless the input has two symbols. -/
theorem two_le_of_exec_encode {t : State} (ht : exec .encode s = .next t) (hdone : t.err = .none ∨ t.tv = true) :
    s.srcLen ≠ 0#32 ∧ s.srcLen.toNat ≤ s.cfg.srcMax ∧ 2 ≤ s.counted.present.length := by
  have hle : s.srcLen.toNat ≤ s.cfg.srcMax := by
    by_contra hlong
    cases (exec_encode_of_tooLong (Nat.lt_of_not_le hlong)).symm.trans ht
    simp at hdone
  have hpos : s.srcLen ≠ 0#32 := by
    intro hempty
    cases (exec_encode_of_empty hempty).symm.trans ht
    simp at hdone
  refine ⟨hpos, hle, ?_⟩
  by_contra hfew
  cases (exec_encode_of_fewer hpos hle (Nat.lt_of_not_le hfew)).symm.trans ht
  simp at hdone

/-- R97 on the tree just built: CGEN returns, with the code table of that tree. -/
theorem exists_bodyCgen_buildTree (hn : 2 ≤ s.present.length) :
    ∃ c, bodyCgen (buildTree s) = .returned c ∧ c = { buildTree s with ctLen := c.ctLen, ctBits := c.ctBits } ∧
      (buildTree s).CodeTableOf c := by
  obtain ⟨c, hwalk, hrec⟩ := walk_recorded (buildTree_treeOf hn).treeInv 256 (path := []) rfl rfl
    (State.Recorded.zeroCodes _) nofun
  have hcgen : bodyCgen (buildTree s) = .returned c := by
    rw [bodyCgen, if_neg (by simp [buildTree_tv_of_two_le hn])]
    exact congrArg (Body.withEffects .cgen) hwalk
  have hframe := bodyCgen_frame (buildTree s)
  rw [hcgen] at hframe
  obtain ⟨l, b, rfl⟩ := hframe
  exact ⟨_, hcgen, rfl, hrec.congr fun p _ _ => by simp⟩

end Exec

/-! ## The last stage -/

section LastStage
variable {s c t : State}

/-- R90, R130: what an ENCODE that built its tree can have changed. -/
theorem exec_encode_frame (ht : exec .encode s = .next t) (htv : t.tv = true) :
    t = { s with
      freq := t.freq, node := t.node, root := t.root, nodeCount := t.nodeCount, tv := true, ctLen := t.ctLen,
      ctBits := t.ctBits, pk := t.pk, bitCount := t.bitCount, byteCount := t.byteCount }.reported t.err t.errInfo := by
  rw [exec_eq_complete] at ht
  obtain ⟨_, e, ⟨f, n, v, r, k, l, b, m, x, y, rfl⟩, rfl⟩ := (bodyEncode_frame s).complete ht
  obtain rfl : v = true := htv
  rfl

/-- `t` holds what the stages before PACK make of the input of `s` (R130): its counts, its tree and its code table. -/
structure State.EncodesInputOf (s t : State) : Prop where
  treeInv : t.TreeInv
  merges : t.MergesTheTwoLeast
  tv : t.tv = true
  prefixFree : t.prefixFree
  counts : ∀ b : Byte, (t.freqAt b.toNat).toNat = s.input.count b
  hasCode_iff : ∀ b : Byte, t.hasCode b.toNat ↔ b ∈ s.input
  later : ∀ h, t.nodeCount.toNat ≤ h → t.nodeAt h = s.nodeAt h

/-- PACK leaves all of it. -/
theorem State.EncodesInputOf.exec_pack (hc : s.EncodesInputOf c) (ht : exec .pack c = .next t) : s.EncodesInputOf t := by
  obtain ⟨treeInv, merges, tv, prefixFree, counts, hasCode_iff, later⟩ := hc
  have htree : c.SameTree t := by
    rw [exec_pack_frame ht]
    exact ⟨rfl, rfl, fun _ _ => rfl⟩
  have htreeInv := htree.treeInv treeInv
  have hmerges := htree.mergesTheTwoLeast merges
  rw [exec_pack_frame ht] at htreeInv hmerges ⊢
  exact ⟨htreeInv, hmerges, tv, prefixFree, counts, hasCode_iff, later⟩

/-- R84(c): the leaves of the tree are for the bytes of the input. -/
theorem buildTree_counted_leaf_iff (hn : 2 ≤ s.counted.present.length) (b : Byte) :
    (∃ h, h < (buildTree s.counted).leafCount ∧ ((buildTree s.counted).nodeAt h).sym.toNat = b.toNat) ↔ b ∈ s.input := by
  have htree := buildTree_treeOf hn
  have hsym : ∀ k (hk : k < s.counted.present.length), ((buildTree s.counted).nodeAt k).sym.toNat = s.counted.present[k] :=
    fun k hk => by
      have hlt := (State.mem_present.1 (List.getElem_mem hk)).1
      rw [htree.leaves k hk, leafNode, BitVec.toNat_ofNat, Nat.mod_eq_of_lt hlt]
  calc (∃ h, h < (buildTree s.counted).leafCount ∧ ((buildTree s.counted).nodeAt h).sym.toNat = b.toNat)
      ↔ ∃ h, ∃ (hh : h < s.counted.present.length), s.counted.present[h] = b.toNat := by
        rw [htree.leafCount]
        exact exists_congr fun h =>
          ⟨fun ⟨hh, hb⟩ => ⟨hh, (hsym h hh).symm.trans hb⟩, fun ⟨hh, hb⟩ => ⟨hh, (hsym h hh).trans hb⟩⟩
    _ ↔ b.toNat ∈ s.counted.present := List.mem_iff_getElem.symm
    _ ↔ b ∈ s.input := by simp [State.mem_present_counted, BitVec.toNat_inj]

theorem exists_frame_of_codeTable (hframe : c = { buildTree s.counted with ctLen := c.ctLen, ctBits := c.ctBits }) :
    ∃ f n v r k, c = { s with
      freq := f, node := n, tv := v, root := r, nodeCount := k, ctLen := c.ctLen, ctBits := c.ctBits } := by
  obtain ⟨n, v, r, k, hbuild⟩ := buildTree_frame s.counted
  rw [hbuild, s.counted_frame] at hframe
  exact ⟨_, n, v, r, k, hframe⟩

theorem encodesInputOf_of_codeTableOf (hn : 2 ≤ s.counted.present.length)
    (hframe : c = { buildTree s.counted with ctLen := c.ctLen, ctBits := c.ctBits }) (hc : (buildTree s.counted).CodeTableOf c) :
    s.EncodesInputOf c := by
  have htree := buildTree_treeOf hn
  have hsame : (buildTree s.counted).SameTree c := by
    rw [hframe]
    exact ⟨rfl, rfl, fun _ _ => rfl⟩
  constructor
  case treeInv => exact hsame.treeInv htree.treeInv
  case merges => exact hsame.mergesTheTwoLeast htree.merges
  case tv =>
    rw [hframe]
    exact buildTree_tv_of_two_le hn
  case prefixFree => exact hc.prefixFree
  case counts =>
    intro b
    rw [hframe, buildTree_eq hn]
    exact s.counted_byte b
  case hasCode_iff => exact fun b => (hc.hasCode_iff htree.treeInv).trans (buildTree_counted_leaf_iff hn b)
  case later =>
    intro h hh
    rw [← hsame.nodeCount] at hh
    rw [hc.arena, buildTree_nodeAt_of_le hn hh, s.counted_frame]
    rfl

/-- R149: a stream longer than `PK` leaves every byte of `PK` written, and the counts 0. -/
theorem exec_pack_of_overrun (hle : s.srcLen.toNat ≤ s.cfg.srcMax) (hcodes : ∀ b ∈ s.input, s.hasCode b.toNat)
    (hover : 8 * s.cfg.pkMax < s.encodedStream.length) :
    ∃ t, exec .pack s = .next t ∧
      t = { s with pk := t.pk, bitCount := 0#32, byteCount := 0#32 }.reported .capacity 1#32 ∧
      (∀ q, q < s.cfg.pkMax → (t.pkAt q).toNat = groupValue (group s.encodedStream q)) ∧
      (∀ q, s.cfg.pkMax ≤ q → t.pkAt q = s.pkAt q) := by
  obtain ⟨u, hbits, hp⟩ := packBits_of_overrun (s := s.setCounts 0 0) hover
  have hall : s.input.take s.srcLen.toNat = s.input := List.take_of_length_le s.length_input.le
  obtain ⟨t, hexec, hframe, hwritten, hlater⟩ := exec_pack_of_raise (e := .capacity .packedFull) hle (u := u)
    (by rw [packBytes_input le_rfl (by rwa [hall]), hall]; exact congrArg (· >>= _) hbits) hp
  have hgroups : (s.encodedStream.take (8 * s.cfg.pkMax)).length / 8 = s.cfg.pkMax := by
    rw [List.length_take_of_le hover.le]
    omega
  refine ⟨t, hexec, hframe, fun q hq => ?_, fun q hq => hlater q (hgroups.trans_le hq)⟩
  rw [hwritten q (hgroups.symm ▸ hq), State.setCounts_cfg, group_take hover.le hq]

/-- PACK on an input all of whose bytes have codes: the length of the stream decides between its two ends. -/
theorem exec_pack_of_codes (hcfg : s.cfg.wf) (hle : s.srcLen.toNat ≤ s.cfg.srcMax) (hcodes : ∀ b ∈ s.input, s.hasCode b.toNat) :
    ∃ t, exec .pack s = .next t ∧
      (s.encodedStream.length ≤ 8 * s.cfg.pkMax →
        t.err = .none ∧ t.errInfo = 0#32 ∧ t.bitCount.toNat = s.encodedStream.length ∧
        t.byteCount.toNat = (t.bitCount.toNat + 7) / 8 ∧ t.stream = s.encodedStream ∧
        (∀ q, q < t.byteCount.toNat → (t.pkAt q).toNat = groupValue (group s.encodedStream q)) ∧
        ∀ q, t.byteCount.toNat ≤ q → t.pkAt q = s.pkAt q) ∧
      (8 * s.cfg.pkMax < s.encodedStream.length →
        t.err = .capacity ∧ t.errInfo = 1#32 ∧ t.bitCount = 0#32 ∧ t.byteCount = 0#32 ∧
        (∀ q, q < s.cfg.pkMax → (t.pkAt q).toNat = groupValue (group s.encodedStream q)) ∧
        ∀ q, s.cfg.pkMax ≤ q → t.pkAt q = s.pkAt q) := by
  rcases Nat.lt_or_ge (8 * s.cfg.pkMax) s.encodedStream.length with hover | hfit
  · obtain ⟨t, ht, hframe, hgroups, hlater⟩ := exec_pack_of_overrun hle hcodes hover
    refine ⟨t, ht, fun hfit => absurd hover hfit.not_gt, fun _ => ⟨?_, ?_, ?_, ?_, hgroups, hlater⟩⟩
    all_goals
      rw [hframe]
      rfl
  · obtain ⟨t, ht, hframe, hbits, -, hbytes, hgroups, hstream, hlater⟩ := packWritesTheEncodedStream s hcfg hle hcodes hfit
    refine ⟨t, ht, fun _ => ⟨?_, ?_, hbits, hbytes, hstream, hgroups, hlater⟩, fun hover => absurd hover hfit.not_gt⟩
    all_goals
      rw [hframe]
      rfl

end LastStage

/-! ## The obligations -/

/-- Settles O53: FCOUNT's two errors as they are raised in the first stage, and TBUILD's error on the one count of the third case. -/
theorem encodeEarlyFailures : Obligations.EncodeEarlyFailures := by
  unfold Obligations.EncodeEarlyFailures
  refine fun s => ⟨exec_encode_of_tooLong, exec_encode_of_empty, fun b _ hpos hle hall => ?oneSymbol⟩
  case oneSymbol =>
    have hne : s.srcLen ≠ 0#32 := fun h => by simp [h] at hpos
    have hone := State.length_present_counted_of_eq hpos hall
    have hexec := exec_encode_of_fewer hne hle (by omega)
    rw [hone] at hexec
    refine ⟨_, hexec, ?frame, ?count, fun i hi => ?others⟩
    case frame => exact congrArg (fun u => (u.dropTree.setCounts 0 0).reported .insufficientAlphabet 1#32) s.counted_frame
    case count =>
      refine BitVec.eq_of_toNat_eq ((s.counted_byte b).trans ?_)
      rw [List.count_eq_length.2 fun x hx => (hall x hx).symm, State.length_input]
    case others =>
      have habsent : i ∉ s.input.map BitVec.toNat := by
        simpa using fun x hx hxi => hi (hall x hx ▸ hxi.symm)
      exact BitVec.eq_of_toNat_eq ((s.counted_freqAt i).trans (List.count_eq_zero_of_not_mem habsent))

/-- Settles O55: each stage leaves what its command leaves but for the counts and the report, which the next stage does not read; an
ENCODE that does not build its tree fails with `TV = 0`. -/
theorem encodeIsItsFourStages : Obligations.EncodeIsItsFourStages := by
  unfold Obligations.EncodeIsItsFourStages
  intro s t ht hdone
  obtain ⟨hpos, hle, hn⟩ := two_le_of_exec_encode ht hdone
  obtain ⟨c, hc, -⟩ := exists_bodyCgen_buildTree hn
  have htbuild := (exec_tbuild_reported hn .none 0#32).trans (exec_tbuild_of_two_le hn)
  have hcgen := (exec_cgen_reported (buildTree s.counted) .none 0#32).trans (exec_of_returned (i := .cgen) hc)
  have hpack := (exec_pack_reported c .none 0#32).trans ((exec_encode_of_two_le hpos hle hn hc).symm.trans ht)
  exact ⟨_, _, _, exec_fcount_of_fits hpos hle, htbuild, hcgen, hpack⟩

/-- Settles O54: the stages before PACK return and leave what the input determines; whether the stream fits decides how PACK ends. -/
theorem encodeCompletes : Obligations.EncodeCompletes := by
  unfold Obligations.EncodeCompletes
  rintro s hcfg hle ⟨x, hx, y, hy, hxy⟩
  have hn := State.two_le_length_present_counted hx hy hxy
  have hpos : s.srcLen ≠ 0#32 := fun h => by simp [State.input, h] at hx
  obtain ⟨c, hcgen, hframe, htable⟩ := exists_bodyCgen_buildTree hn
  have hc := encodesInputOf_of_codeTableOf hn hframe htable
  obtain ⟨f, n, v, r, k, hcs⟩ := exists_frame_of_codeTable hframe
  have hcfgc : c.cfg = s.cfg := by rw [hcs]
  have hlec : c.srcLen.toNat ≤ c.cfg.srcMax := by rwa [hcs]
  have hinput : c.input = s.input := by
    rw [hcs]
    rfl
  have hpkAt : c.pkAt = s.pkAt := by
    rw [hcs]
    rfl
  obtain ⟨t, hpack, hfits, hoverruns⟩ := exec_pack_of_codes (hcfgc ▸ hcfg) hlec fun b hb => (hc.hasCode_iff b).2 (hinput ▸ hb)
  have hstream : t.encodedStream = c.encodedStream := by
    rw [exec_pack_frame hpack]
    rfl
  have hexec := (exec_encode_of_two_le hpos hle hn hcgen).trans hpack
  have ht := hc.exec_pack hpack
  rw [← hstream, hpkAt, hcfgc] at hfits hoverruns
  exact ⟨t, hexec, ht.treeInv, ht.merges, ht.tv, ht.prefixFree, exec_encode_frame hexec ht.tv,
    fun b => ⟨ht.counts b, ht.hasCode_iff b⟩, ht.later, hfits, hoverruns⟩

end Sys2Proof.Machine
end

section
/-!
SUPPORT. The ends of every command (60_exceptions.md R141 to R145): how it completes, which errors it reports, what a failure leaves,
and that nothing but a partial bus access stops the machine (R158).
-/

namespace Sys2Proof.Machine

/-! ## The report -/

/-- Settles O6: the table of R143 and R144, row by row. -/
theorem errorCodesAndInformation : Obligations.ErrorCodesAndInformation :=
  ⟨rfl, rfl, rfl, rfl, rfl, fun _ => rfl, fun _ => rfl, fun _ => rfl, fun _ => rfl, rfl, rfl, rfl, fun _ => rfl, fun _ => rfl,
    fun _ => rfl, fun _ => rfl, fun _ => rfl, fun _ => rfl, fun _ _ => rfl⟩

/-- Settles O5: such a word does not decode, and the completion of one that does not is the report of `ILLEGAL_CMD`. -/
theorem illegalWordCompletes : Obligations.IllegalWordCompletes := by
  unfold Obligations.IllegalWordCompletes
  intro s hturn hword
  rw [step_of_engineTurn hturn, completion]
  cases hdec : decode s.cur with
  | ok i => exact absurd (eq_encode_of_decode hdec) (hword i)
  | error e => exact completeIllegal_eq s

/-- R142, R145: a command that reports an error ends with the error effects, applied where its body raised. -/
theorem Body.raised_of_complete {i : Instr} {b : Body} {t : State} (ht : (b.withEffects i).complete = .next t)
    (herr : t.err ≠ .none) : ∃ e u, b = .raised e u ∧ t = (errorEffects i u).finish (some e) := by
  cases b with
  | returned u =>
    cases ht
    exact absurd rfl herr
  | raised e u =>
    cases ht
    exact ⟨e, u, rfl, rfl⟩
  | stuck f => cases ht

/-- R141: every completion leaves the engine idle and done. -/
theorem exec_idle_done {i : Instr} {s t : State} (ht : exec i s = .next t) : t.busy = false ∧ t.done = true := by
  rw [exec_eq_complete] at ht
  rcases Body.complete_next ht with ⟨u, -, rfl⟩ | ⟨e, u, -, rfl⟩
  · exact ⟨rfl, rfl⟩
  · exact ⟨rfl, rfl⟩

/-! ## The ends of each command -/

section Exec
variable {s t : State}

theorem exec_fcount_cases (s : State) :
    exec .fcount s = .next (s.reported .capacity 3#32) ∨ exec .fcount s = .next (s.zeroFreq.reported .emptyInput 0#32) ∨
      exec .fcount s = .next (s.counted.reported .none 0#32) := by
  rcases Nat.lt_or_ge s.cfg.srcMax s.srcLen.toNat with hlong | hle
  · exact .inl (exec_fcount_of_tooLong hlong)
  · by_cases hempty : s.srcLen = 0#32
    · exact .inr (.inl (exec_fcount_of_empty hempty))
    · exact .inr (.inr (exec_fcount_of_fits hempty hle))

theorem exec_tbuild_cases (s : State) :
    exec .tbuild s = .next (s.dropTree.reported .insufficientAlphabet (BitVec.ofNat 32 s.present.length)) ∨
      exec .tbuild s = .next ((buildTree s).reported .none 0#32) :=
  (Nat.lt_or_ge s.present.length 2).imp exec_tbuild_of_fewer exec_tbuild_of_two_le

theorem exec_cgen_of_no_tree (htv : s.tv = false) : exec .cgen s = .next (s.reported .sequence 0#32) := by
  rw [exec_eq_complete, bodyOf, bodyCgen, if_pos htv]
  rfl

/-- The walk raises nothing (R97), so `SEQUENCE` is CGEN's only error. -/
theorem exec_cgen_cases (ht : exec .cgen s = .next t) : t = s.reported .sequence 0#32 ∨ t.err = .none := by
  by_cases htv : s.tv = false
  · exact .inl (Host.Outcome.next.inj (ht.symm.trans (exec_cgen_of_no_tree htv)))
  · refine .inr (by_contra fun herr => ?_)
    obtain ⟨e, u, hraised, -⟩ := Body.raised_of_complete (i := .cgen) ht herr
    rw [if_neg htv] at hraised
    exact walk_not_raised _ _ _ _ _ _ hraised

theorem packBits_error {bs : BitString} {p : Packer} {e : CmdError × State} (h : packBits bs s p = .error e) :
    e.1 = .capacity .packedFull := by
  induction bs generalizing s p with
  | nil => cases h
  | cons b bs ih =>
    simp only [packBits] at h
    split at h
    · cases h
      rfl
    · split at h
      · exact ih h
      · exact ih h

/-- R107: what the loop over the input can raise. -/
theorem packBytes_error {bs : List Byte} {i : Nat} {p : Packer} {e : CmdError × State} (h : packBytes bs i s p = .error e) :
    e.1 = .capacity .packedFull ∨ ∃ k, e.1 = .internalConsistency k := by
  induction bs generalizing i s p with
  | nil => cases h
  | cons b bs ih =>
    by_cases hcode : s.hasCode b.toNat
    · rw [packBytes_cons_of_hasCode hcode] at h
      cases hbits : packBits (s.code b.toNat) s p with
      | error e' =>
        rw [hbits] at h
        cases h
        exact .inl (packBits_error hbits)
      | ok r =>
        rw [hbits] at h
        exact ih h
    · rw [packBytes_cons_of_absent hcode] at h
      cases h
      exact .inr ⟨i, rfl⟩

theorem exec_pack_of_error (hle : s.srcLen.toNat ≤ s.cfg.srcMax) {e : CmdError} {u : State}
    (h : packBytes s.input 0 (s.setCounts 0 0) Packer.start = .error (e, u)) :
    exec .pack s = .next ((u.setCounts 0 0).finish (some e)) := by
  rw [exec_eq_complete, bodyOf, bodyPack, if_neg (Nat.not_lt.2 hle), h]
  rfl

/-- R107: PACK completes from every state, and its loop raises all its errors but that of the length check. -/
theorem exists_exec_pack (s : State) : ∃ t, exec .pack s = .next t ∧ t.err ∈ canReport .pack := by
  rcases Nat.lt_or_ge s.cfg.srcMax s.srcLen.toNat with hlong | hle
  · exact ⟨_, exec_pack_of_tooLong hlong, by simp [canReport]⟩
  · cases hloop : packBytes s.input 0 (s.setCounts 0 0) Packer.start with
    | ok r => exact ⟨_, exec_pack_of_ok hle hloop, by simp [canReport, resultCode]⟩
    | error e =>
      refine ⟨_, exec_pack_of_error hle hloop, ?_⟩
      rcases packBytes_error hloop with he | ⟨k, he⟩
      · simp [canReport, resultCode, he, CmdError.code]
      · simp [canReport, resultCode, he, CmdError.code]

theorem exec_pack_of_failure (ht : exec .pack s = .next t) (herr : t.err ≠ .none) : t.bitCount = 0#32 ∧ t.byteCount = 0#32 := by
  obtain ⟨e, u, -, rfl⟩ := Body.raised_of_complete (i := .pack) ht herr
  exact ⟨rfl, rfl⟩

/-- R116, R119: UNPACK completes from every state. -/
theorem exists_exec_unpack (s : State) : ∃ t, exec .unpack s = .next t := by
  rcases Nat.lt_or_ge s.cfg.pkMax s.byteCount.toNat with hmany | hle
  · exact ⟨_, exec_unpack_of_tooMany hmany⟩
  · by_cases hcounts : s.byteCount.toNat = (s.bitCount.toNat + 7) / 8
    · cases hscan : s.scanAfter [] (s.setOutLen 0) with
      | ok r => exact ⟨_, exec_unpack_of_scan_ok ⟨hle, hcounts⟩ hscan⟩
      | error e => exact ⟨_, exec_unpack_of_scan_error ⟨hle, hcounts⟩ hscan⟩
    · exact ⟨_, exec_unpack_of_disagree hle hcounts⟩

theorem exec_unpack_of_failure (ht : exec .unpack s = .next t) (herr : t.err ≠ .none) : t.outLen = 0#32 := by
  obtain ⟨e, u, -, rfl⟩ := Body.raised_of_complete (i := .unpack) ht herr
  rfl

/-- R130: the state in which ENCODE's PACK stage finds the engine, its input covered by the table that CGEN made. -/
structure State.ReadyToPack (s c : State) : Prop where
  cfg : c.cfg = s.cfg
  tv : c.tv = true
  fits : c.srcLen.toNat ≤ c.cfg.srcMax
  covered : ∀ b ∈ c.input, c.hasCode b.toNat

theorem exists_readyToPack (hle : s.srcLen.toNat ≤ s.cfg.srcMax) (hn : 2 ≤ s.counted.present.length) :
    ∃ c, bodyCgen (buildTree s.counted) = .returned c ∧ s.ReadyToPack c := by
  obtain ⟨c, hcgen, hframe, htable⟩ := exists_bodyCgen_buildTree hn
  have hc := encodesInputOf_of_codeTableOf hn hframe htable
  obtain ⟨f, n, v, r, k, hcs⟩ := exists_frame_of_codeTable hframe
  have hinput : c.input = s.input := by
    rw [hcs]
    rfl
  exact ⟨c, hcgen, by rw [hcs], hc.tv, by rwa [hcs], fun b hb => (hc.hasCode_iff b).2 (hinput ▸ hb)⟩

/-- R130, R133: ENCODE fails before its tree, with nothing written but `FREQ`, or its PACK stage decides. -/
theorem exec_encode_cases (s : State) :
    (∃ f e info, e ∈ [ErrCode.emptyInput, .insufficientAlphabet, .capacity] ∧
      exec .encode s = .next ({ s.dropTree.setCounts 0 0 with freq := f }.reported e info)) ∨
    ∃ c, s.ReadyToPack c ∧ exec .encode s = exec .pack c := by
  rcases Nat.lt_or_ge s.cfg.srcMax s.srcLen.toNat with hlong | hle
  · exact .inl ⟨s.freq, .capacity, _, by simp, exec_encode_of_tooLong hlong⟩
  by_cases hempty : s.srcLen = 0#32
  · exact .inl ⟨[], .emptyInput, _, by simp, exec_encode_of_empty hempty⟩
  rcases Nat.lt_or_ge s.counted.present.length 2 with hfew | hn
  · have hexec := exec_encode_of_fewer hempty hle hfew
    rw [s.counted_frame] at hexec
    exact .inl ⟨_, .insufficientAlphabet, _, by simp, hexec⟩
  · obtain ⟨c, hcgen, hc⟩ := exists_readyToPack hle hn
    exact .inr ⟨c, hc, exec_encode_of_two_le hempty hle hn hcgen⟩

/-- R130: with the input covered `INTERNAL_CONSISTENCY` cannot arise. -/
theorem State.ReadyToPack.err_of_exec_pack {c : State} (hc : s.ReadyToPack c) (hcfg : s.cfg.wf) (ht : exec .pack c = .next t) :
    t.err = .none ∨ t.err = .capacity := by
  obtain ⟨u, hu, hfits, hoverruns⟩ := exec_pack_of_codes (hc.cfg ▸ hcfg) hc.fits hc.covered
  cases hu.symm.trans ht
  rcases Nat.lt_or_ge (8 * c.cfg.pkMax) c.encodedStream.length with hover | hfit
  · exact .inr (hoverruns hover).1
  · exact .inl (hfits hfit).1

theorem exec_encode_err (hcfg : s.cfg.wf) (ht : exec .encode s = .next t) : t.err ∈ canReport .encode := by
  rcases exec_encode_cases s with ⟨f, e, info, he, hexec⟩ | ⟨c, hc, hexec⟩
  · cases hexec.symm.trans ht
    exact List.mem_cons_of_mem _ he
  · rcases hc.err_of_exec_pack hcfg (hexec.symm.trans ht) with herr | herr
    · simp [herr, canReport]
    · simp [herr, canReport]

/-- R141: a command completes from every state that has a tree wherever `TV` says so (R33), whatever else the state holds. -/
theorem exists_exec (i : Instr) (htree : s.tv = true → s.TreeInv) : ∃ t, exec i s = .next t := by
  cases i with
  | nop | clear => exact ⟨_, rfl⟩
  | fcount => rcases exec_fcount_cases s with h | h | h <;> exact ⟨_, h⟩
  | tbuild => rcases exec_tbuild_cases s with h | h <;> exact ⟨_, h⟩
  | cgen =>
    cases htv : s.tv with
    | false => exact ⟨_, exec_cgen_of_no_tree htv⟩
    | true => exact (exec_cgen_codeTableOf htv (htree htv)).imp fun _ => And.left
  | pack => exact (exists_exec_pack s).imp fun _ => And.left
  | unpack => exact exists_exec_unpack s
  | encode =>
    rcases exec_encode_cases s with ⟨_, _, _, -, h⟩ | ⟨c, -, h⟩
    · exact ⟨_, h⟩
    · exact (exists_exec_pack c).imp fun _ ht => h.trans ht.1

end Exec

/-! ## The host's turn -/

/-- R46: a partial access is the only operation of the host that is refused. -/
theorem exists_hostStep {s : State} (h : ∀ a rest, s.host.script ≠ .partialAccess a :: rest) : ∃ t, hostStep s = .next t := by
  unfold hostStep
  split
  iterate 5
    · exact ⟨_, rfl⟩
  next a rest hs => exact absurd hs (h a rest)

/-! ## The obligations -/

/-- Settles O38: CGEN raises before it writes. -/
theorem cgenNeedsATree : Obligations.CgenNeedsATree := fun _ => exec_cgen_of_no_tree

/-- Settles O12: CGEN has a tree to walk or reports that it has none; the other commands end from every state. -/
theorem everyCommandCompletes : Obligations.EveryCommandCompletes := by
  unfold Obligations.EveryCommandCompletes
  intro i s h
  obtain ⟨t, ht⟩ := exists_exec i h.tree
  exact ⟨t, ht, exec_idle_done ht⟩

/-- Settles O13: the step is a completion, an illegal word's, or a host operation that is no partial access. -/
theorem nothingStopsTheMachine : Obligations.NothingStopsTheMachine := by
  unfold Obligations.NothingStopsTheMachine
  intro s h haccess
  rcases step_cases s with ⟨-, ⟨i, -, hs⟩ | ⟨e, -, hs⟩⟩ | ⟨-, -, hs⟩ | ⟨-, hs⟩
  · exact hs ▸ exists_exec i h.tree
  · exact ⟨_, hs⟩
  · exact hs ▸ exists_hostStep (s := s.tick) haccess
  · exact hs ▸ exists_hostStep haccess

/-- Settles O7, by the ends of each command; for ENCODE, its PACK stage finds every byte of the input covered. -/
theorem commandsReportOnlyTheirErrors : Obligations.CommandsReportOnlyTheirErrors := by
  unfold Obligations.CommandsReportOnlyTheirErrors
  intro i s t hcfg ht
  cases i with
  | nop | clear =>
    cases ht
    exact List.mem_cons_self
  | fcount =>
    rcases exec_fcount_cases s with h | h | h <;> cases h.symm.trans ht <;> simp [canReport]
  | tbuild =>
    rcases exec_tbuild_cases s with h | h <;> cases h.symm.trans ht <;> simp [canReport]
  | cgen =>
    rcases exec_cgen_cases ht with rfl | herr
    · simp [canReport]
    · simp [canReport, herr]
  | pack =>
    obtain ⟨u, hu, herr⟩ := exists_exec_pack s
    cases hu.symm.trans ht
    exact herr
  | unpack =>
    rcases exec_unpack_cases ht with herr | ⟨-, herr⟩ | ⟨_, _, -, -, -, ⟨-, rfl⟩ | ⟨-, -, rfl⟩⟩
    · simp [canReport, herr]
    · simp [canReport, herr]
    · simp [canReport]
    · simp [canReport]
  | encode => exact exec_encode_err hcfg ht

/-- Settles O58, by the ends of each command; an ENCODE that reaches its PACK stage has `TV = 1`. -/
theorem failuresZeroTheResults : Obligations.FailuresZeroTheResults := by
  unfold Obligations.FailuresZeroTheResults
  intro i s t ht herr
  cases i with
  | nop | clear =>
    cases ht
    exact absurd rfl herr
  | fcount =>
    rcases exec_fcount_cases s with h | h | h <;> cases h.symm.trans ht
    · simp
    · simp
    · exact absurd rfl herr
  | tbuild =>
    rcases exec_tbuild_cases s with h | h <;> cases h.symm.trans ht
    · simp
    · exact absurd rfl herr
  | cgen =>
    obtain rfl := (exec_cgen_cases ht).resolve_right herr
    simp
  | pack => simp [exec_pack_of_failure ht herr]
  | unpack => simp [exec_unpack_of_failure ht herr]
  | encode =>
    rcases exec_encode_cases s with ⟨f, e, info, -, hexec⟩ | ⟨c, hc, hexec⟩
    · cases hexec.symm.trans ht
      simp
    · have hpack := hexec.symm.trans ht
      have htv : t.tv = true := (exec_tv (by simp) (by simp) (by simp) hpack).trans hc.tv
      simp [exec_pack_of_failure hpack herr, htv]

end Sys2Proof.Machine
end

section
/-!
SUPPORT. Reset and the accepted command (70_reset_and_hazards.md R165, R166, R172): no command reads the host's side, so the operations
that the host issues while a completion is owed (20_memory.md R51) leave it the effect it has at acceptance.
-/

namespace Sys2Proof.Machine

/-! ## Reset -/

/-- Settles O10: the reset at the head of the script is carried out as any operation of the host is, BUSY or idle. -/
theorem resetAbandonsTheCommand : Obligations.ResetAbandonsTheCommand := by
  unfold Obligations.ResetAbandonsTheCommand
  intro s rest hs hturn
  rw [step_of_hostTurn hturn, hs]
  rfl

/-! ## The host's side replaced -/

/-- A change that the next stage lets through passes through the sequence of the two (R130). -/
theorem Body.andThen_mapState {f : State → State} {stage : State → Body}
    (hstage : ∀ s, stage (f s) = (stage s).mapState f) (b : Body) : (b.mapState f).andThen stage = (b.andThen stage).mapState f := by
  cases b with
  | returned s => exact hstage s
  | raised e s => rfl
  | stuck g => rfl

/-- The engine as it is, beside another host. -/
def State.withHost (k : HostSide) (s : State) : State := { s with host := k }

theorem withHost_changesRegistersOnly (k : HostSide) : ChangesRegistersOnly (State.withHost k) := by
  constructor <;> intros <;> rfl

section WithHost
variable (k : HostSide) (s : State)

@[simp] theorem State.withHost_cfg : (s.withHost k).cfg = s.cfg := rfl
@[simp] theorem State.withHost_cur : (s.withHost k).cur = s.cur := rfl
@[simp] theorem State.withHost_srcLen : (s.withHost k).srcLen = s.srcLen := rfl
@[simp] theorem State.withHost_byteCount : (s.withHost k).byteCount = s.byteCount := rfl
@[simp] theorem State.withHost_bitCount : (s.withHost k).bitCount = s.bitCount := rfl
@[simp] theorem State.withHost_stream : (s.withHost k).stream = s.stream := rfl
@[simp] theorem State.withHost_lmax : (s.withHost k).lmax = s.lmax := rfl
@[simp] theorem State.withHost_setOutLen (n : Nat) : (s.withHost k).setOutLen n = (s.setOutLen n).withHost k := rfl

/-- The error effects of a command write registers (R145). -/
theorem errorEffects_withHost (i : Instr) : errorEffects i (s.withHost k) = (errorEffects i s).withHost k := by cases i <;> rfl

/-! ## No command reads the host's side -/

theorem bodyFcount_withHost : bodyFcount (s.withHost k) = (bodyFcount s).mapState (State.withHost k) := by
  have hcounted := (withHost_changesRegistersOnly k).counted s
  unfold bodyFcount
  rw [← Body.withEffects_mapState (errorEffects_withHost k · .fcount)]
  refine congrArg _ ?_
  rw [State.withHost_cfg, State.withHost_srcLen]
  split_ifs
  · rfl
  · rfl
  · exact congrArg Body.returned hcounted

theorem bodyTbuild_withHost : bodyTbuild (s.withHost k) = (bodyTbuild s).mapState (State.withHost k) := by
  have hpresent := (withHost_changesRegistersOnly k).present s
  rcases Nat.lt_or_ge s.present.length 2 with hn | hn
  · rw [bodyTbuild_of_fewer hn, bodyTbuild_of_fewer (hpresent ▸ hn), hpresent]
    rfl
  · rw [bodyTbuild_of_two_le hn, bodyTbuild_of_two_le (hpresent ▸ hn),
      (withHost_changesRegistersOnly k).buildTree (g := State.withHost k) (fun _ _ _ => rfl) hn]
    rfl

theorem bodyUnpack_withHost : bodyUnpack (s.withHost k) = (bodyUnpack s).mapState (State.withHost k) := by
  have hbits := unpackBits_mapEnds (f := State.withHost k) (fun _ => rfl) (fun _ _ => rfl) (fun _ _ _ => rfl) s.lmax s.stream 0
    (s.setOutLen 0) ⟨[], 0, 0⟩
  unfold bodyUnpack
  rw [← Body.withEffects_mapState (errorEffects_withHost k · .unpack)]
  refine congrArg _ ?_
  simp only [State.withHost_cfg, State.withHost_byteCount, State.withHost_bitCount, State.withHost_stream, State.withHost_lmax,
    State.withHost_setOutLen, hbits]
  split_ifs
  · rfl
  · rfl
  · cases unpackBits s.lmax s.stream 0 (s.setOutLen 0) ⟨[], 0, 0⟩ with
    | error e => rfl
    | ok r => rfl

theorem bodyOf_withHost (i : Instr) : bodyOf i (s.withHost k) = (bodyOf i s).mapState (State.withHost k) := by
  have hcgen : ∀ s, bodyCgen (s.withHost k) = (bodyCgen s).mapState (State.withHost k) := fun s =>
    (withHost_changesRegistersOnly k).bodyCgen rfl rfl
  have hpack := (withHost_changesRegistersOnly k).bodyPack fun _ _ _ => rfl
  cases i with
  | nop | clear => rfl
  | fcount => exact bodyFcount_withHost k s
  | tbuild => exact bodyTbuild_withHost k s
  | cgen => exact hcgen s
  | pack => exact hpack s
  | unpack => exact bodyUnpack_withHost k s
  | encode =>
    have hfcount := bodyFcount_withHost k (s.dropTree.setCounts 0 0)
    rw [bodyOf, bodyEncode, bodyEncode, Body.withEffects_encode, Body.withEffects_encode, ← Body.andThen_mapState hpack,
      ← Body.andThen_mapState hcgen, ← Body.andThen_mapState (bodyTbuild_withHost k), ← hfcount]
    rfl

/-- R51: whatever word was accepted, its completion takes nothing from the host's side and leaves it as it is. -/
theorem completion_withHost {u : State} (hu : completion s = .next u) : completion (s.withHost k) = .next (u.withHost k) := by
  unfold completion at hu ⊢
  rw [State.withHost_cur]
  cases hdec : decode s.cur with
  | ok i =>
    rw [hdec] at hu
    simp only [exec_eq_complete] at hu ⊢
    rw [bodyOf_withHost]
    exact Body.complete_mapState (fun _ _ => rfl) hu
  | error e =>
    rw [hdec] at hu
    cases hu
    rfl

end WithHost

/-! ## The completion comes -/

section Busy
variable {s : State}

/-- While BUSY an operation of the host, short of a reset, changes the host's side only: its schedule stays, and its script goes on or,
for a poll, stays (R42, R51, R65). -/
theorem hostStep_of_busy (hb : s.busy = true) {op : HostOp} {rest : List HostOp} (hs : s.host.script = op :: rest)
    (hreset : op ≠ .reset) (hwf : op.wf = true) :
    ∃ k, hostStep s = .next (s.withHost k) ∧ k.delay = s.host.delay ∧ (k.script = rest ∨ k.script = op :: rest) := by
  simp only [hostStep, hs]
  cases op with
  | read a => exact ⟨_, rfl, rfl, .inl rfl⟩
  | write a v =>
    have hdropped := hostWrite_of_busy (s := s.withHost { s.host with script := rest }) hb a v
    exact ⟨_, congrArg Host.Outcome.next hdropped, rfl, .inl rfl⟩
  | wait =>
    rw [hostPoll_eq]
    exact ⟨_, rfl, rfl, .inr (by simp [hb, hs])⟩
  | reset => exact absurd rfl hreset
  | partialAccess a => cases hwf

theorem run_one (s : State) : Host.Core.run core 1 s = step s := by
  have hcore : core.step s = step s := rfl
  simp only [Host.Core.run, hcore]
  cases step s <;> rfl

/-- R172, by induction on the host operations that the schedule puts before the completion. -/
theorem run_of_busy (hb : s.busy = true) (hops : ∀ op ∈ s.host.script.take s.host.delay, op ≠ .reset ∧ op.wf = true) :
    ∃ n k, n ≤ s.host.delay ∧ Host.Core.run core (n + 1) s = completion (s.withHost k) := by
  induction hd : s.host.delay generalizing s with
  | zero => exact ⟨0, s.host, Nat.le_refl 0, (run_one s).trans (step_of_engineTurn ⟨hb, .inl hd⟩)⟩
  | succ d ih =>
    cases hs : s.host.script with
    | nil => exact ⟨0, s.host, Nat.zero_le _, (run_one s).trans (step_of_engineTurn ⟨hb, .inr hs⟩)⟩
    | cons op rest =>
      have hturn : ¬ s.engineTurn := by simp [State.engineTurn, hd, hs]
      rw [hs, hd, List.take_succ_cons] at hops
      obtain ⟨hreset, hwf⟩ := hops op List.mem_cons_self
      obtain ⟨k, hstep, hdelay, hscript⟩ := hostStep_of_busy (s := s.tick) hb hs hreset hwf
      have hd' : k.delay = d := by simp [hdelay, hd]
      have hsub : k.script.take d ⊆ op :: rest.take d := by
        rcases hscript with h | h
        · exact h ▸ List.subset_cons_self op (rest.take d)
        · exact h ▸ List.take_subset_take_left (op :: rest) d.le_succ
      obtain ⟨n, j, hn, hrun⟩ := ih (s := s.tick.withHost k) hb (fun o ho => hops o (hsub (hd' ▸ ho))) hd'
      have hfirst : step s = .next (s.tick.withHost k) := (step_of_busy hturn hb).trans hstep
      exact ⟨n + 1, j, Nat.succ_le_succ hn, (run_succ hfirst (n + 1)).trans hrun⟩

theorem exists_completion (h : s.Inv) : ∃ u, completion s = .next u := by
  unfold completion
  split
  next i _ => exact exists_exec i h.tree
  next => exact ⟨_, rfl⟩

/-- R150: the completion of a word that is none of the eight. -/
theorem completion_of_illegal (hword : ∀ i, s.cur ≠ encode i) : completion s = .next (s.reported .illegalCmd s.cur) := by
  unfold completion
  cases hdec : decode s.cur with
  | ok i => exact absurd (eq_encode_of_decode hdec) (hword i)
  | error e => exact completeIllegal_eq s

end Busy

/-- Settles O14: the completion comes when the host operations before it are used up, and it does not depend on the host's side, which
is all that they have changed. -/
theorem acceptedCommandCompletes : Obligations.AcceptedCommandCompletes := by
  unfold Obligations.AcceptedCommandCompletes
  intro s h hb hops
  obtain ⟨u, hu⟩ := exists_completion h
  obtain ⟨n, k, hn, hrun⟩ := run_of_busy hb hops
  refine ⟨n, u.withHost k, u, hn, hrun.trans (completion_withHost k s hu), rfl, hu, fun i hdec => ?command, fun hword => ?illegal⟩
  case command => rwa [completion, hdec] at hu
  case illegal => exact Host.Outcome.next.inj (hu.symm.trans (completion_of_illegal hword))

end Sys2Proof.Machine
end
